-- ==== Sys2Proof/Word.lean ====
section
/-! DEFINITION. The word types of the block (spec/00_scope.md R6, R9, spec/10_state.md R45). -/

namespace Sys2Proof

/-- A host register word, REG_WIDTH = 32 (R6, R81). -/
abbrev Word := BitVec 32

/-- A byte offset in the host register space, REG_OFFSET_BITS = 16 (R6, R81). -/
abbrev Offset := BitVec 16

/-- A node index field, IDX_BITS = 10 (R6, R45). -/
abbrev NodeIdx := BitVec 10

/-- A symbol as a node record holds it, SYM_BITS = 9 (R5, R45). -/
abbrev Sym := BitVec 9

/-- A node weight, WEIGHT_BITS = 40 (R6, R45). -/
abbrev Weight := BitVec 40

/-- A bit string in transmission order, first bit at the head (R9). -/
abbrev BitString := List Bool

end Sys2Proof
end

