-- ==== Sys2Proof/Config.lean ====
section
/-! DEFINITION. The parameters of the block: the fixed ones of R6, and the open ones of R7 as constants without a body. -/

namespace Sys2Proof.Config

/-- `PSEUDO_EOF`, the symbol that ends a payload (R5, R6). -/
abbrev pseudoEof : Nat := 256

/-- `N_SYM`, the number of symbols and of CODE entries (R6, R48). -/
abbrev nSym : Nat := 257

/-- The number of FREQ entries (R40). -/
abbrev nFreq : Nat := 256

/-- `NODE_CAP`, the number of node records (R6, R45). -/
abbrev nodeCap : Nat := 513

/-- `CODE_MAX`, the greatest length of a code, so the greatest depth of a leaf (R6, R236). -/
abbrev codeMax : Nat := 256

/-- How deep SER and GENTAB may nest: a path of at most `CODE_MAX` internal nodes and a leaf (R190, R236). -/
abbrev treeDepth : Nat := 257

/-- `EOF_WEIGHT` (R6). -/
abbrev eofWeight : Weight := 1

/-- FREE VALUE (log entry 11): it selects the parameter MAGIC among the nonzero words (R7 (a)). -/
opaque magicIndex : Fin 4294967295

/-- The parameter MAGIC: any 32-bit value but 0 (R7 (a), R44), one for each value of `magicIndex`. -/
def magic : Word := BitVec.ofNat 32 (magicIndex.val + 1)

/-- FREE VALUE (log entry 6): the bits a read returns where R86 (c) and (d) make them a draw; the argument counts the draws. -/
opaque busyRead : Nat → Word

/-- FREE VALUE (log entry 12): DROP after a CLEAR during whose busy interval a write was dropped (R157); the argument counts
the draws. -/
opaque clearDrop : Nat → Bool

end Sys2Proof.Config
end

