-- ==== Sys2Proof/Syntax.lean ====
section
/-! DEFINITION. The commands of the block, one constructor for each row of spec/opcode_table.json (R123). -/

namespace Sys2Proof

/-- A command (R123). Only ENC carries an operand, the symbol of bits [16:8] (R122). -/
inductive Instr where
  | nop
  | clear
  | build
  | ser
  | des
  | gentab
  | enc (sym : Nat)
  | encall
  | decode
  | wmagic
  | rmagic
  | rewind
  | close
  deriving DecidableEq, Repr

end Sys2Proof
end

