-- ==== Sys2Proof/WellFormed.lean ====
section
/-! DEFINITION. Which commands the 32-bit word can carry (R121, R122, R127). -/

namespace Sys2Proof

/-- The operand of ENC is a number in 0..511, the range of the 9-bit field (R122, R127); no other command has an operand. -/
def Instr.wellFormed : Instr → Bool
  | .enc sym => sym < 512
  | .nop => true
  | .clear => true
  | .build => true
  | .ser => true
  | .des => true
  | .gentab => true
  | .encall => true
  | .decode => true
  | .wmagic => true
  | .rmagic => true
  | .rewind => true
  | .close => true

end Sys2Proof
end

