-- ==== Sys2Proof/Decode.lean ====
section
/-! DEFINITION. The command word: its fields, the decoder of R124, and the encoder of R123. -/

namespace Sys2Proof

/-- OPCODE, bits [7:0] (R121). -/
def opcodeField (w : Word) : Nat := (w.extractLsb' 0 8).toNat

/-- SYM, bits [16:8], an unsigned value 0..511 (R121, R122). -/
def symField (w : Word) : Nat := (w.extractLsb' 8 9).toNat

/-- RSVD, bits [31:17] (R121). -/
def rsvdField (w : Word) : Nat := (w.extractLsb' 17 15).toNat

/-- Why a word is ILLEGAL (R124, R125). Every reason has one outcome, E_ILLEGAL. -/
inductive IllegalWord where
  /-- RSVD ≠ 0. -/
  | reservedBits
  /-- OPCODE 0x0D to 0xFF. -/
  | reservedOpcode
  /-- SYM ≠ 0 on a command other than ENC. -/
  | symNotZero
  deriving DecidableEq, Repr

/-- The opcode map of R123; `none` for a reserved opcode. -/
def instrOf (op sym : Nat) : Option Instr :=
  match op with
  | 0x00 => some .nop
  | 0x01 => some .clear
  | 0x02 => some .build
  | 0x03 => some .ser
  | 0x04 => some .des
  | 0x05 => some .gentab
  | 0x06 => some (.enc sym)
  | 0x07 => some .encall
  | 0x08 => some .decode
  | 0x09 => some .wmagic
  | 0x0A => some .rmagic
  | 0x0B => some .rewind
  | 0x0C => some .close
  | _ => none

/-- `decode(w)` of R124, total on every word, its refusals named. -/
def decodeNamed (w : Word) : Except IllegalWord Instr :=
  if rsvdField w ≠ 0 then .error .reservedBits
  else
    match instrOf (opcodeField w) (symField w) with
    | none => .error .reservedOpcode
    | some i => if opcodeField w ≠ 0x06 ∧ symField w ≠ 0 then .error .symNotZero else .ok i

/-- The command a word selects, or `none` where it is ILLEGAL (R124). -/
def decode (w : Word) : Option Instr :=
  match decodeNamed w with
  | .ok i => some i
  | .error _ => none

/-- The OPCODE of a command (R123). -/
def opcodeOf : Instr → Nat
  | .nop => 0x00
  | .clear => 0x01
  | .build => 0x02
  | .ser => 0x03
  | .des => 0x04
  | .gentab => 0x05
  | .enc _ => 0x06
  | .encall => 0x07
  | .decode => 0x08
  | .wmagic => 0x09
  | .rmagic => 0x0A
  | .rewind => 0x0B
  | .close => 0x0C

/-- The SYM field of a command: the operand of ENC, 0 elsewhere (R122, R123). -/
def symOf : Instr → Nat
  | .enc sym => sym
  | .nop => 0
  | .clear => 0
  | .build => 0
  | .ser => 0
  | .des => 0
  | .gentab => 0
  | .encall => 0
  | .decode => 0
  | .wmagic => 0
  | .rmagic => 0
  | .rewind => 0
  | .close => 0

/-- The word of a command: RSVD = 0, SYM, OPCODE from the most significant end (R121, R123). -/
def encode (i : Instr) : Word :=
  (0#15 ++ BitVec.ofNat 9 (symOf i)) ++ BitVec.ofNat 8 (opcodeOf i)

/-- The 32-bit word whose low `nbits` bits are `w` and whose other bits are 0, numbered as spec/opcode_table.json numbers them. -/
def tableWord (nbits w : Nat) : Word := BitVec.ofNat 32 (w % 2 ^ nbits)

/-- The command the decoder reads from a word given in the numbering of spec/opcode_table.json. -/
def decodeTableWord (nbits w : Nat) : Option Instr := decode (tableWord nbits w)

end Sys2Proof
end

