-- ==== Sys2Proof/Machine/State.lean ====
section
/-! DEFINITION. The state of the block and of the agents around it (spec/10_state.md), and the state after reset (R330). -/

namespace Sys2Proof.Machine

/-- A node record (R45). -/
structure Node where
  /-- LEAF: 1 for a leaf, 0 for an internal node. -/
  leaf : Bool
  /-- SYM: the symbol of a leaf, 0 in an internal node. -/
  sym : Sym
  /-- WEIGHT. -/
  weight : Weight
  /-- LEFT: the index of the left child, 0 in a leaf. -/
  left : NodeIdx
  /-- RIGHT: the index of the right child, 0 in a leaf. -/
  right : NodeIdx
  deriving DecidableEq, Repr

/-- An entry of the CODE table (R48). -/
structure CodeEntry where
  /-- VALID: the symbol has a code. -/
  valid : Bool
  /-- LEN: the length of the code. -/
  len : BitVec 9
  /-- BITS: the number of the code (R9); bit LEN-1 is the first path bit. -/
  bits : BitVec 256
  deriving DecidableEq, Repr

/-- IN = (IN.bits, IN.pos) (R53, R90). -/
structure InPort where
  bits : BitString
  pos : Nat
  deriving DecidableEq, Repr

/-- OUT = (OUT.bits, OUT.closed) (R53, R93). -/
structure OutPort where
  bits : BitString
  closed : Bool
  deriving DecidableEq, Repr

/-- The environment's draws at one port call (R96), with what R91, R94, R95 and R331 leave to the environment. -/
inductive PortAnswer where
  /-- PortFail() is false. -/
  | succeeds
  /-- PortFail() is true; `k` is the further draw: how many bits a failed read skipped (R91) or a failed write
  appended (R94), each cut down to what there is; whether a failed close took effect (R95: it did when `k` is not 0). -/
  | fails (k : Nat)
  /-- The reset input is asserted before this call is made (R331). -/
  | resetFirst
  deriving DecidableEq, Repr

/-- The agent that moves next (R30, R89), or the reset input (R330). -/
inductive Turn where
  | host
  | core
  | reset
  deriving DecidableEq, Repr

/-- One action of the host: the accesses of R82, the stream actions of R98, and the two tests from which
R129 builds `wait` and `chk`. Command lines, `wfreq` and `chk` expand to these (R127 to R129). -/
inductive HostLine where
  /-- `rd <off>`. -/
  | rd (off : Offset)
  /-- `wr <off>, <v>`. -/
  | wr (off : Offset) (v : Word)
  /-- attach an input. -/
  | attach (bits : BitString)
  /-- take the output, and restart OUT where `restart` is true. -/
  | take (restart : Bool)
  /-- `wait`: read STATUS until BUSY reads 0. -/
  | wait
  /-- The last part of `chk`: stop the host program where bit 1 (ERR) of the word just read is 1. -/
  | stopIfErr
  deriving DecidableEq, Repr

/-- Everything the spec gives the machine (spec/10_state.md), and after it the model's own fields, which hold the
other agents' moves and the environment's draws. -/
@[ext]
structure State where
  /-- STATUS.BUSY (R36). -/
  busy : Bool
  /-- STATUS.ERR (R37). -/
  err : Bool
  /-- STATUS.TREE_VALID (R38). -/
  treeValid : Bool
  /-- STATUS.TABLE_VALID (R38). -/
  tableValid : Bool
  /-- STATUS.ERRCODE (R37, R300). -/
  errcode : BitVec 4
  /-- STATUS.DROP (R39). -/
  drop : Bool
  /-- ROOT (R41). -/
  root : NodeIdx
  /-- NODES (R42). -/
  nodes : BitVec 10
  /-- LEAVES (R43). -/
  leaves : BitVec 10
  /-- FREQ[0..255] (R40). -/
  freq : List Word
  /-- NODE[0..512] (R45). -/
  node : List Node
  /-- CODE[0..256] (R48). -/
  code : List CodeEntry
  /-- HEAP, the merge forest (R50). -/
  heap : List Nat
  /-- CUR, the current node of DECODE (R51). -/
  cur : NodeIdx
  /-- PENDING, the accepted command word (R52). -/
  pending : Option Word
  /-- IN (R53). -/
  inp : InPort
  /-- OUT (R53). -/
  out : OutPort
  /-- MODEL (log entry 3): the host lines still to be run, first one first. -/
  script : List HostLine
  /-- MODEL (log entry 4): who moves next, first one first. -/
  turns : List Turn
  /-- MODEL (log entry 5): the draws of the port calls to come, first one first; past its end every call succeeds. -/
  answers : List PortAnswer
  /-- MODEL (log entry 7): the word the last MemRead returned to the host. -/
  hostWord : Word
  /-- MODEL (log entry 7): what the last take read of OUT. -/
  hostOut : OutPort
  /-- MODEL (log entry 7): the code with which the host program stopped, FAIL(ERRCODE) of R129. -/
  hostFail : Option (BitVec 4)
  /-- MODEL (log entry 12): a host write has been dropped since the last command was accepted, which CLEAR asks (R157). -/
  busyDrop : Bool
  /-- MODEL (log entries 6 and 12): how many draws of R86 (c), (d) and R157 have been made; the constants without a body that
  stand for those draws are applied to it. -/
  draws : Nat
  deriving DecidableEq, Repr

/-- What stops the machine. The spec has no stuck behaviour (93_implementation_defined.md): each of these stands only
where a state breaks an invariant of the spec, which no step from a state that meets it does (log entry 8). -/
inductive Fault where
  /-- Raised by SER, GENTAB and DECODE in a state with TREE_VALID = 1 whose node store breaks R47 (an index at or above
  NODES, or a path longer than R236 allows). Safe: the model stops where the spec says nothing. -/
  | notATree
  /-- Raised past the bound that R158 derives for the loops of DES, ENCALL and DECODE; no state reaches it. Safe. -/
  | passedBound
  /-- Raised by the core's step in a state with BUSY = 1 and PENDING empty, which R36 and R150 exclude. Safe. -/
  | nothingPending
  deriving DecidableEq, Repr

/-- What the model has no move for. -/
inductive Refusal where
  /-- An instruction that has no meaning yet. No arm of `exec` answers so. Safe. -/
  | notModelled (mnemonic : String)
  /-- The host attaches IN or takes OUT while BUSY = 1: the model has no such move (R98, R336, U14). Safe. -/
  | hostStreamWhileBusy
  deriving DecidableEq, Repr

/-- A node record of zeros. -/
def Node.blank : Node := ⟨false, 0, 0, 0, 0⟩

/-- (VALID=0, LEN=0, BITS=0) (R48). -/
def CodeEntry.empty : CodeEntry := ⟨false, 0, 0⟩

/-- The machine right after reset (R330), with IN and OUT as log entry 2 gives them and nothing for the other agents to do. -/
def State.reset : State where
  busy := false
  err := false
  treeValid := false
  tableValid := false
  errcode := 0
  drop := false
  root := 0
  nodes := 0
  leaves := 0
  freq := List.replicate 256 0
  node := List.replicate 513 Node.blank
  code := List.replicate 257 CodeEntry.empty
  heap := []
  cur := 0
  pending := none
  inp := ⟨[], 0⟩
  out := ⟨[], false⟩
  script := []
  turns := []
  answers := []
  hostWord := 0
  hostOut := ⟨[], false⟩
  hostFail := none
  busyDrop := false
  draws := 0

end Sys2Proof.Machine
end

