-- ==== Sys2Proof/Machine/Operands.lean ====
section
/-! DEFINITION. The operand forms: bit strings and their numbers (R9), bytes as bits (R97), the symbol operand of ENC (R122). -/

namespace Sys2Proof.Machine

/-- `num(p)`: the number whose binary numeral, most significant digit first, is `p`; `num("") = 0` (R9). -/
def num (p : BitString) : Nat := p.foldl (fun a b => 2 * a + b.toNat) 0

/-- `bits_N(v)`: the N-bit string of `v mod 2^N`, most significant bit first (R9). -/
def bitsOf : Nat → Nat → BitString
  | 0, _ => []
  | n + 1, v => v.testBit n :: bitsOf n v

/-- A byte sequence as a bit string, bit 7 of each byte first (R97). -/
def bitsOfBytes (bs : List (BitVec 8)) : BitString := bs.flatMap fun b => bitsOf 8 b.toNat

/-- The first `n` whole bytes of a bit string, byte k being `num(b[8k .. 8k+7])` (R97). -/
def bytesFrom : Nat → BitString → List (BitVec 8)
  | 0, _ => []
  | n + 1, b => BitVec.ofNat 8 (num (b.take 8)) :: bytesFrom n (b.drop 8)

/-- The byte view of a bit string whose length is a multiple of 8 (R97). -/
def bytesOfBits (b : BitString) : List (BitVec 8) := bytesFrom (b.length / 8) b

/-- `zeros(n)`, the pad of a close (R95). -/
def zeros (n : Nat) : BitString := List.replicate n false

/-- `zext_40`: a count widened to a weight (R8, R171). -/
def zext40 (v : Word) : Weight := v.setWidth 40

/-- The symbol operand of ENC is no CODE index when it is above 256 (R122, R250). -/
def symOutOfRange (sym : Nat) : Bool := 256 < sym

/-- The CODE entry of a path: LEN = len(p), BITS = num(p) (R232). -/
def pathEntry (p : BitString) : CodeEntry := ⟨true, BitVec.ofNat 9 p.length, BitVec.ofNat 256 (num p)⟩

/-- `code(s) = bits_LEN(BITS)` of an entry (R253). -/
def CodeEntry.path (c : CodeEntry) : BitString := bitsOf c.len.toNat c.bits.toNat

end Sys2Proof.Machine
end

