-- ==== Sys2Proof/Machine/Flags.lean ====
section
/-! DEFINITION. STATUS: its word (R35), the error codes (R300, R302), and what the start and the end of a command write
(R150, R152, R154, R303). -/

namespace Sys2Proof.Machine

/-- The errors a command can raise (R300). -/
inductive ErrCode where
  | magic
  | eosTree
  | eosBody
  | rootLeaf
  | capacity
  | noTree
  | noTable
  | noCode
  | symRange
  | illegal
  | io
  deriving DecidableEq, Repr

/-- The 4-bit code of an error (R300). -/
def errNumber : ErrCode → BitVec 4
  | .magic => 1
  | .eosTree => 2
  | .eosBody => 3
  | .rootLeaf => 4
  | .capacity => 5
  | .noTree => 6
  | .noTable => 7
  | .noCode => 8
  | .symRange => 9
  | .illegal => 10
  | .io => 11

/-- The classes of errors (R300, R302). -/
inductive ErrClass where
  | formatError
  | usageError
  | ioError
  deriving DecidableEq, Repr

/-- The class of an error (R300, R302). -/
def errClass : ErrCode → ErrClass
  | .magic => .formatError
  | .eosTree => .formatError
  | .eosBody => .formatError
  | .rootLeaf => .formatError
  | .capacity => .formatError
  | .noTree => .usageError
  | .noTable => .usageError
  | .noCode => .usageError
  | .symRange => .usageError
  | .illegal => .usageError
  | .io => .ioError

/-- One bit of a word as a bit vector. -/
def bit (b : Bool) : BitVec 1 := BitVec.ofBool b

/-- The STATUS word: bits [31:9] 0, DROP, ERRCODE, TABLE_VALID, TREE_VALID, ERR, BUSY from the most significant end (R35). -/
def statusWord (s : State) : Word :=
  0#23 ++ bit s.drop ++ s.errcode ++ bit s.tableValid ++ bit s.treeValid ++ bit s.err ++ bit s.busy

/-- What a read of STATUS returns while BUSY = 1: BUSY = 1, the current DROP, the other bits from the draw `d` (R86 (c)). -/
def busyStatusWord (s : State) (d : Word) : Word :=
  d.extractLsb' 9 23 ++ bit s.drop ++ d.extractLsb' 1 7 ++ 1#1

/-- Acceptance of a command word (R150); no write has been dropped in the busy interval it opens (log entry 12). -/
def accept (w : Word) (s : State) : State := { s with pending := some w, busy := true, busyDrop := false }

/-- The start of every command: ERR and ERRCODE are cleared (R152). -/
def clearOutcome (s : State) : State := { s with err := false, errcode := 0 }

/-- `done`: successful completion (R154). -/
def done (s : State) : State := { s with busy := false }

/-- `raise e`: error completion, the block's only trap-like event (R303). Nothing is saved, no mode changes and no handler
runs; there is no return from it (R305). -/
def raiseError (e : ErrCode) (s : State) : State := { s with err := true, errcode := errNumber e, busy := false }

/-- A dropped write (R86 (a)). -/
def setDrop (s : State) : State := { s with drop := true, busyDrop := true }

end Sys2Proof.Machine
end

