-- ==== Sys2Proof/Machine/Ops.lean ====
section
/-! DEFINITION. The shared operations: how a command's pseudocode runs (R10), the port calls (R90 to R96), the internal
arrays (R88), reset (R330), and a command from its start to its completion (R151 to R154, R303). -/

namespace Sys2Proof.Machine

/-- How a piece of pseudocode ends: with a value, by `raise` (R303), cut by the reset input (R331), or stopped where the
spec says nothing (log entry 8). The state carried is what the piece left; nothing is undone (R10, R304). -/
inductive Flow (α : Type) where
  | ok (a : α) (s : State)
  | raised (e : ErrCode) (s : State)
  | abandoned (s : State)
  | stuck (f : Fault)
  deriving Repr

/-- One piece of pseudocode after another. -/
def Flow.bind {α β : Type} (x : Flow α) (f : α → State → Flow β) : Flow β :=
  match x with
  | .ok a s => f a s
  | .raised e s => .raised e s
  | .abandoned s => .abandoned s
  | .stuck r => .stuck r

/-- What readBits returns (R91). -/
inductive ReadResult where
  | val (v : Nat)
  | eos
  | ioFail
  deriving DecidableEq, Repr

/-- What writeBits, resetIn and closeOut return (R92, R94, R95). -/
inductive PortResult where
  | okay
  | ioFail
  deriving DecidableEq, Repr

/-- The next draw of the environment (R96); past the end of the list every call succeeds (log entry 5). -/
def nextAnswer (s : State) : PortAnswer := s.answers.headD .succeeds

/-- The draws after the next one. -/
def dropAnswer (s : State) : State := { s with answers := s.answers.tail }

/-- IN.pos is moved. -/
def moveIn (p : Nat) (s : State) : State := { s with inp := { s.inp with pos := p } }

/-- OUT.bits is extended. -/
def appendOut (b : BitString) (s : State) : State := { s with out := { s.out with bits := s.out.bits ++ b } }

/-- `readBits(n)` (R91). -/
def readBits (n : Nat) (s : State) : Flow ReadResult :=
  match nextAnswer s with
  | .resetFirst => .abandoned (dropAnswer s)
  | .fails k => .ok .ioFail (moveIn (s.inp.pos + min k (s.inp.bits.length - s.inp.pos)) (dropAnswer s))
  | .succeeds =>
    if s.inp.bits.length < s.inp.pos + n then .ok .eos (moveIn s.inp.bits.length (dropAnswer s))
    else .ok (.val (num ((s.inp.bits.drop s.inp.pos).take n))) (moveIn (s.inp.pos + n) (dropAnswer s))

/-- `resetIn()` (R92). -/
def resetIn (s : State) : Flow PortResult :=
  match nextAnswer s with
  | .resetFirst => .abandoned (dropAnswer s)
  | .fails _ => .ok .ioFail (dropAnswer s)
  | .succeeds => .ok .okay (moveIn 0 (dropAnswer s))

/-- `writeBits(n, v)` (R94). A closed port is decided before PortFail(), so it takes no draw. -/
def writeBits (n v : Nat) (s : State) : Flow PortResult :=
  if s.out.closed then .ok .ioFail s
  else
    match nextAnswer s with
    | .resetFirst => .abandoned (dropAnswer s)
    | .fails k => .ok .ioFail (appendOut ((bitsOf n v).take k) (dropAnswer s))
    | .succeeds => .ok .okay (appendOut (bitsOf n v) (dropAnswer s))

/-- OUT as a successful close leaves it: padded with 0 bits to a multiple of 8, and closed (R95). -/
def closedOut (o : OutPort) : OutPort := ⟨o.bits ++ zeros ((8 - o.bits.length % 8) % 8), true⟩

/-- OUT is closed. -/
def finishOut (s : State) : State := { s with out := closedOut s.out }

/-- `closeOut()` (R95). A closed port is decided before PortFail(), so it takes no draw. -/
def closeOut (s : State) : Flow PortResult :=
  if s.out.closed then .ok .okay s
  else
    match nextAnswer s with
    | .resetFirst => .abandoned (dropAnswer s)
    | .fails k => .ok .ioFail (if k = 0 then dropAnswer s else finishOut (dropAnswer s))
    | .succeeds => .ok .okay (finishOut (dropAnswer s))

/-- `if … = IOFAIL then raise E_IO`, the way every command treats a failed write, reset or close. -/
def orIoError (x : Flow PortResult) : Flow Unit :=
  x.bind fun r s =>
    match r with
    | .okay => .ok () s
    | .ioFail => .raised .io s

/-- A write, with E_IO where it fails. -/
def emitBits (n v : Nat) (s : State) : Flow Unit := orIoError (writeBits n v s)

/-- FREQ[s] (R40, R88). -/
def readFreq (i : Nat) (s : State) : Word := s.freq.getD i 0

/-- `FREQ[s] <- v` (R40, R85). -/
def writeFreq (i : Nat) (v : Word) (s : State) : State := { s with freq := s.freq.set i v }

/-- CODE[s] (R48, R88). -/
def readCode (i : Nat) (s : State) : CodeEntry := s.code.getD i CodeEntry.empty

/-- `CODE[s] <- c` (R48, R88). -/
def writeCode (i : Nat) (c : CodeEntry) (s : State) : State := { s with code := s.code.set i c }

/-- Every CODE entry at (VALID=0, LEN=0, BITS=0) (R48). -/
def emptyCode : List CodeEntry := List.replicate Config.nSym CodeEntry.empty

/-- The CODE table is cleared and TABLE_VALID <- 0 (R157, R170, R193, R230, R235). -/
def clearTable (s : State) : State := { s with code := emptyCode, tableValid := false }

/-- NODES, LEAVES and ROOT <- 0 (R157, R193, R197). -/
def clearTreeRegs (s : State) : State := { s with nodes := 0, leaves := 0, root := 0 }

/-- NODE[i], for an index below NODES: no rule reads another record (R45, R88). -/
def readNode (i : NodeIdx) (s : State) : Flow Node :=
  if i.toNat < s.nodes.toNat then
    match s.node[i.toNat]? with
    | some r => .ok r s
    | none => .stuck .notATree
  else .stuck .notATree

/-- `NODE[i] <- r`. -/
def writeNode (i : NodeIdx) (r : Node) (s : State) : State := { s with node := s.node.set i.toNat r }

/-- `NODE[i].LEFT <- l; NODE[i].RIGHT <- r` (R193). -/
def setChildren (i l r : NodeIdx) (s : State) : State :=
  { s with node := s.node.modify i.toNat fun n => { n with left := l, right := r } }

/-- A leaf record (R45). -/
def leafNode (sym : Sym) (w : Weight) : Node := ⟨true, sym, w, 0, 0⟩

/-- An internal record (R45). -/
def internalNode (w : Weight) (l r : NodeIdx) : Node := ⟨false, 0, w, l, r⟩

/-- The reset input (R330): the block at its reset values, IN and OUT untouched (R332); what the host and the
environment have still to do is not the block's and stays. -/
def coreReset (s : State) : State :=
  { State.reset with
    inp := s.inp, out := s.out, script := s.script, turns := s.turns, answers := s.answers,
    hostWord := s.hostWord, hostOut := s.hostOut, hostFail := s.hostFail, draws := s.draws }

/-- A command from its start to its completion: R152, then its rule's pseudocode to `done` (R154) or `raise` (R303), as one
atomic step (R151); a reset inside it imposes R330 on what it has done so far (R331). -/
def runCommand (body : State → Flow Unit) (s : State) : Host.Outcome State Fault Refusal :=
  match body (clearOutcome s) with
  | .ok _ t => .next (done t)
  | .raised e t => .next (raiseError e t)
  | .abandoned t => .next (coreReset t)
  | .stuck f => .fault f

/-- An illegal word: `raise E_ILLEGAL`, and no other state changes (R153, R301). -/
def illegalCommand (s : State) : Host.Outcome State Fault Refusal :=
  runCommand (fun t => .raised .illegal t) s

end Sys2Proof.Machine
end

