-- ==== Sys2Proof/Machine/Build.lean ====
section
/-! DEFINITION. BUILD (spec/41_tree_builder.md): the greedy merge, as a function of FREQ (R179). The list `store` holds the
records NODE[0..n-1] written so far, so `store.length` is the pseudocode's n, and `heap` is HEAP. -/

namespace Sys2Proof.Machine

/-- The byte leaves, in ascending symbol order, one for each nonzero count (R170, R171). -/
def byteLeaves (freq : List Word) : List Node :=
  (List.range Config.nFreq).filterMap fun s =>
    let f := freq.getD s 0
    if f ≠ 0 then some (leafNode (BitVec.ofNat 9 s) (zext40 f)) else none

/-- The leaves of the tree: the byte leaves, then PSEUDO_EOF with weight 1 (R171). -/
def buildLeaves (freq : List Word) : List Node :=
  byteLeaves freq ++ [leafNode (BitVec.ofNat 9 Config.pseudoEof) Config.eofWeight]

/-- NODE[j].WEIGHT. -/
def weightAt (store : List Node) (j : Nat) : Weight := (store.getD j Node.blank).weight

/-- The key (NODE[j].WEIGHT, j) is less than that of k, in lexicographic order (R8, R173). -/
def keyLess (store : List Node) (j k : Nat) : Bool :=
  weightAt store j < weightAt store k || (weightAt store j == weightAt store k && j < k)

/-- The index with the least key of the nonempty heap `j :: rest` (R173), by a linear search (R181). -/
def leastKey (store : List Node) (j : Nat) (rest : List Nat) : Nat :=
  rest.foldl (fun m k => if keyLess store k m then k else m) j

/-- `extractMin(HEAP)`: the least index and the heap without it (R173); `none` on an empty heap. -/
def extractMin (store : List Node) (heap : List Nat) : Option (Nat × List Nat) :=
  match heap with
  | [] => none
  | j :: rest =>
    let m := leastKey store j rest
    some (m, heap.erase m)

/-- The merge of a, extracted first, and b: a becomes LEFT, b becomes RIGHT, the weights are added (R174). -/
def mergedNode (store : List Node) (a b : Nat) : Node :=
  internalNode (weightAt store a + weightAt store b) (BitVec.ofNat 10 a) (BitVec.ofNat 10 b)

/-- The merge loop: while HEAP holds more than one index, two are extracted and their merge is inserted (R170, R175). The
first argument bounds the passes; a heap of L indices needs L - 1. -/
def mergeLoop : Nat → List Node → List Nat → List Node × List Nat
  | 0, store, heap => (store, heap)
  | fuel + 1, store, heap =>
    match extractMin store heap with
    | none => (store, heap)
    | some (a, heap₁) =>
      match extractMin store heap₁ with
      | none => (store, heap)
      | some (b, heap₂) => mergeLoop fuel (store ++ [mergedNode store a b]) (heap₂ ++ [store.length])

/-- The records and the final heap that FREQ gives (R170). -/
def buildTree (freq : List Word) : List Node × List Nat :=
  let leaves := buildLeaves freq
  mergeLoop leaves.length leaves (List.range leaves.length)

/-- `NODE[0..n-1]` are written; the records above keep what they held (R170). -/
def writeRecords (store : List Node) (s : State) : State := { s with node := store ++ s.node.drop store.length }

/-- The effect of BUILD (R170). -/
def buildEffect (s : State) : State :=
  let store := (buildTree s.freq).1
  let heap := (buildTree s.freq).2
  { clearTable (writeRecords store s) with
    heap := heap
    root := BitVec.ofNat 10 (heap.headD 0)
    nodes := BitVec.ofNat 10 store.length
    leaves := BitVec.ofNat 10 (buildLeaves s.freq).length
    treeValid := true }

/-- BUILD (R170). -/
def execBuild (s : State) : Host.Outcome State Fault Refusal := runCommand (fun t => .ok () (buildEffect t)) s

end Sys2Proof.Machine
end

