-- ==== Sys2Proof/Machine/CodeTable.lean ====
section
/-! DEFINITION. GENTAB (spec/43_code_table.md). -/

namespace Sys2Proof.Machine

/-- `gen(i, p)` (R230): depth first, left before right, `p` the path so far (R231). The first argument bounds the nesting:
257 calls (R236). -/
def genNode : Nat → NodeIdx → BitString → State → Flow Unit
  | 0, _, _, _ => .stuck .notATree
  | fuel + 1, i, p, s =>
    (readNode i s).bind fun r s =>
      if r.leaf then
        if symOutOfRange r.sym.toNat then .raised .symRange (clearTable s)
        else .ok () (writeCode r.sym.toNat (pathEntry p) s)
      else
        (genNode fuel r.left (p ++ [false]) s).bind fun _ s => genNode fuel r.right (p ++ [true]) s

/-- The pseudocode of GENTAB (R230). -/
def gentabBody (s : State) : Flow Unit :=
  if s.treeValid then
    (genNode Config.treeDepth s.root [] (clearTable s)).bind fun _ s => .ok () { s with tableValid := true }
  else .raised .noTree s

/-- GENTAB (R230). -/
def execGentab (s : State) : Host.Outcome State Fault Refusal := runCommand gentabBody s

end Sys2Proof.Machine
end

