-- ==== Sys2Proof/Machine/Control.lean ====
section
/-! DEFINITION. NOP and CLEAR (spec/40_control.md). -/

namespace Sys2Proof.Machine

/-- NOP (R156). -/
def execNop (s : State) : Host.Outcome State Fault Refusal := runCommand (fun t => .ok () t) s

/-- DROP after CLEAR: 0 where no write was dropped in its busy interval, and a draw otherwise (R157). -/
def dropAfterClear (s : State) : Bool := s.busyDrop && Config.clearDrop s.draws

/-- The effect of CLEAR (R157). -/
def clearAll (s : State) : State :=
  { clearTable (clearTreeRegs s) with
    freq := List.replicate Config.nFreq 0, treeValid := false, drop := dropAfterClear s,
    draws := if s.busyDrop then s.draws + 1 else s.draws }

/-- CLEAR (R157). -/
def execClear (s : State) : Host.Outcome State Fault Refusal := runCommand (fun t => .ok () (clearAll t)) s

end Sys2Proof.Machine
end

