-- ==== Sys2Proof/Machine/Decoder.lean ====
section
/-! DEFINITION. DECODE (spec/45_decoder.md). -/

namespace Sys2Proof.Machine

/-- CUR is moved. -/
def moveCur (i : NodeIdx) (s : State) : State := { s with cur := i }

/-- The loop of DECODE (R270, R272, R273), CUR being an internal node at each pass. The first argument bounds the reads (R158). -/
def decodeLoop : Nat → State → Flow Unit
  | 0, _ => .stuck .passedBound
  | fuel + 1, s =>
    (readBits 1 s).bind fun b s =>
      match b with
      | .ioFail => .raised .io s
      | .eos => .raised .eosBody s
      | .val b =>
        (readNode s.cur s).bind fun r s =>
          let s := moveCur (if b = 0 then r.left else r.right) s
          (readNode s.cur s).bind fun r s =>
            if r.leaf then
              if r.sym.toNat = Config.pseudoEof then .ok () s
              else (emitBits 8 (r.sym.toNat % 256) s).bind fun _ s => decodeLoop fuel (moveCur s.root s)
            else decodeLoop fuel s

/-- The most reads DECODE makes: N − p + 1 (R158). -/
def decodeReads (s : State) : Nat := s.inp.bits.length - s.inp.pos + 1

/-- The pseudocode of DECODE (R270): a root that is a leaf is decided before any read (R271). -/
def decodeBody (s : State) : Flow Unit :=
  if s.treeValid then
    let s := moveCur s.root s
    (readNode s.root s).bind fun r s =>
      if r.leaf then
        if r.sym.toNat = Config.pseudoEof then .ok () s else .raised .rootLeaf s
      else decodeLoop (decodeReads s) s
  else .raised .noTree s

/-- DECODE (R270). -/
def execDecode (s : State) : Host.Outcome State Fault Refusal := runCommand decodeBody s

end Sys2Proof.Machine
end

