-- ==== Sys2Proof/Machine/Encoder.lean ====
section
/-! DEFINITION. ENC and ENCALL (spec/44_encoder.md). -/

namespace Sys2Proof.Machine

/-- `emit(s)` (R250): the whole code in one write, and no port call for a zero-length code (R252). -/
def emitCode (sym : Nat) (s : State) : Flow Unit :=
  let c := readCode sym s
  if 0 < c.len.toNat then emitBits c.len.toNat c.bits.toNat s else .ok () s

/-- `if CODE[s].VALID = 0 then raise E_NO_CODE`, then `emit(s)` (R250, R251). -/
def lookupAndEmit (sym : Nat) (s : State) : Flow Unit :=
  if (readCode sym s).valid then emitCode sym s else .raised .noCode s

/-- The pseudocode of ENC (R250). -/
def encBody (sym : Nat) (s : State) : Flow Unit :=
  if s.tableValid then
    if symOutOfRange sym then .raised .symRange s else lookupAndEmit sym s
  else .raised .noTable s

/-- ENC (R250). -/
def execEnc (sym : Nat) (s : State) : Host.Outcome State Fault Refusal := runCommand (encBody sym) s

/-- The loop of ENCALL (R251). The first argument bounds the reads (R158). -/
def encLoop : Nat → State → Flow Unit
  | 0, _ => .stuck .passedBound
  | fuel + 1, s =>
    (readBits 8 s).bind fun r s =>
      match r with
      | .ioFail => .raised .io s
      | .eos => .ok () s
      | .val v => (lookupAndEmit v s).bind fun _ s => encLoop fuel s

/-- The most reads ENCALL makes: ⌊(N − p)/8⌋ + 1 (R158). -/
def encReads (s : State) : Nat := (s.inp.bits.length - s.inp.pos) / 8 + 1

/-- The pseudocode of ENCALL (R251). -/
def encallBody (s : State) : Flow Unit :=
  if s.tableValid then (encLoop (encReads s) s).bind fun _ s => lookupAndEmit Config.pseudoEof s
  else .raised .noTable s

/-- ENCALL (R251). -/
def execEncall (s : State) : Host.Outcome State Fault Refusal := runCommand encallBody s

end Sys2Proof.Machine
end

