-- ==== Sys2Proof/Machine/Stream.lean ====
section
/-! DEFINITION. REWIND and CLOSE (spec/46_stream_control.md). -/

namespace Sys2Proof.Machine

/-- REWIND (R290). -/
def execRewind (s : State) : Host.Outcome State Fault Refusal := runCommand (fun t => orIoError (resetIn t)) s

/-- CLOSE (R291). -/
def execClose (s : State) : Host.Outcome State Fault Refusal := runCommand (fun t => orIoError (closeOut t)) s

end Sys2Proof.Machine
end

