-- ==== Sys2Proof/Machine/TreeCodec.lean ====
section
/-! DEFINITION. SER, DES, WMAGIC and RMAGIC (spec/42_tree_codec.md). -/

namespace Sys2Proof.Machine

/-- `ser(i)` (R190). The first argument bounds the nesting: 257 calls (R190). -/
def serNode : Nat → NodeIdx → State → Flow Unit
  | 0, _, _ => .stuck .notATree
  | fuel + 1, i, s =>
    (readNode i s).bind fun r s =>
      if r.leaf then (emitBits 1 1 s).bind fun _ s => emitBits 9 r.sym.toNat s
      else
        (emitBits 1 0 s).bind fun _ s =>
          (serNode fuel r.left s).bind fun _ s => serNode fuel r.right s

/-- The pseudocode of SER (R190). -/
def serBody (s : State) : Flow Unit :=
  if s.treeValid then serNode Config.treeDepth s.root s else .raised .noTree s

/-- SER (R190). -/
def execSer (s : State) : Host.Outcome State Fault Refusal := runCommand serBody s

/-- `fail(e)` of DES (R193, R197). -/
def desFail {α : Type} (e : ErrCode) (s : State) : Flow α := .raised e (clearTreeRegs s)

/-- The leaf branch of `des()`: a 9-bit value makes NODE[i] a leaf of weight 0 (R193, R196). -/
def desLeaf (i : NodeIdx) (s : State) : Flow NodeIdx :=
  (readBits 9 s).bind fun v s =>
    match v with
    | .ioFail => desFail .io s
    | .eos => desFail .eosTree s
    | .val v =>
      let s := writeNode i (leafNode (BitVec.ofNat 9 v) 0) s
      .ok i { s with leaves := s.leaves + 1 }

/-- `des()` (R193): an index is allocated when a node's tag bit is read (R194), the 514th fails (R195). The first argument
bounds the nesting: every call but the last allocates a record before it nests, so 514 calls are enough. -/
def desNode : Nat → State → Flow NodeIdx
  | 0, _ => .stuck .passedBound
  | fuel + 1, s =>
    (readBits 1 s).bind fun t s =>
      match t with
      | .ioFail => desFail .io s
      | .eos => desFail .eosTree s
      | .val t =>
        if s.nodes.toNat = Config.nodeCap then desFail .capacity s
        else
          let i := s.nodes
          let s := { s with nodes := s.nodes + 1 }
          if t = 0 then
            (desNode fuel (writeNode i (internalNode 0 0 0) s)).bind fun l s =>
              (desNode fuel s).bind fun r s => .ok i (setChildren i l r s)
          else desLeaf i s

/-- What DES does before it reads (R193). -/
def desStart (s : State) : State := { clearTable (clearTreeRegs s) with treeValid := false }

/-- The pseudocode of DES (R193). -/
def desBody (s : State) : Flow Unit :=
  (desNode (Config.nodeCap + 1) (desStart s)).bind fun r s => .ok () { s with root := r, treeValid := true }

/-- DES (R193). -/
def execDes (s : State) : Host.Outcome State Fault Refusal := runCommand desBody s

/-- WMAGIC (R199). -/
def execWmagic (s : State) : Host.Outcome State Fault Refusal := runCommand (emitBits 32 Config.magic.toNat) s

/-- The pseudocode of RMAGIC (R200). -/
def rmagicBody (s : State) : Flow Unit :=
  (readBits 32 s).bind fun r s =>
    match r with
    | .ioFail => .raised .io s
    | .eos => .raised .magic s
    | .val v => if v ≠ Config.magic.toNat then .raised .magic s else .ok () s

/-- RMAGIC (R200). -/
def execRmagic (s : State) : Host.Outcome State Fault Refusal := runCommand rmagicBody s

end Sys2Proof.Machine
end

