-- ==== Sys2Proof/Machine/Dispatch.lean ====
section
/-! DEFINITION. The meaning of each command (R123, R153). -/

namespace Sys2Proof.Machine

def exec (i : Instr) (s : State) : Host.Outcome State Fault Refusal :=
  match i with
  | .nop => Sys2Proof.Machine.execNop s
  | .clear => Sys2Proof.Machine.execClear s
  | .build => Sys2Proof.Machine.execBuild s
  | .ser => Sys2Proof.Machine.execSer s
  | .des => Sys2Proof.Machine.execDes s
  | .gentab => Sys2Proof.Machine.execGentab s
  | .enc sym => Sys2Proof.Machine.execEnc sym s
  | .encall => Sys2Proof.Machine.execEncall s
  | .decode => Sys2Proof.Machine.execDecode s
  | .wmagic => Sys2Proof.Machine.execWmagic s
  | .rmagic => Sys2Proof.Machine.execRmagic s
  | .rewind => Sys2Proof.Machine.execRewind s
  | .close => Sys2Proof.Machine.execClose s

end Sys2Proof.Machine
end

