-- ==== Sys2Proof/Machine/Fetch.lean ====
section
/-! DEFINITION. How a command word comes to run: PENDING is decoded and dispatched (R151 to R153). -/

namespace Sys2Proof.Machine

/-- Decode and dispatch of a command word (R153). -/
def runWord (w : Word) (s : State) : Host.Outcome State Fault Refusal :=
  match decode w with
  | some i => exec i s
  | none => illegalCommand s

/-- The core's one step while BUSY = 1: it executes PENDING (R151). -/
def executePending (s : State) : Host.Outcome State Fault Refusal :=
  match s.pending with
  | some w => runWord w s
  | none => .fault .nothingPending

/-- The core's move: none while BUSY = 0 (R151, R154). -/
def coreMove (s : State) : Host.Outcome State Fault Refusal :=
  if s.busy then executePending s else .next s

end Sys2Proof.Machine
end

