-- ==== Sys2Proof/Machine/RegSpace.lean ====
section
/-! DEFINITION. The host register space (R33, R54, R82) and the host's accesses to it (R84 to R86). -/

namespace Sys2Proof.Machine

/-- What an offset names (R33, R82). -/
inductive Reg where
  | cmd
  | status
  | root
  | nodes
  | leaves
  | magic
  | freq (s : Nat)
  | codeLen (s : Nat)
  | codeBits (s w : Nat)
  | nodeWord (i k : Nat)
  | unmapped
  deriving DecidableEq, Repr

/-- The register an offset goes to; misaligned and unlisted offsets are unmapped (R33, R54, R82). -/
def regAt (off : Offset) : Reg :=
  let o := off.toNat
  if o % 4 ≠ 0 then .unmapped
  else if o = 0x0000 then .cmd
  else if o = 0x0004 then .status
  else if o = 0x0008 then .root
  else if o = 0x000C then .nodes
  else if o = 0x0010 then .leaves
  else if o = 0x0014 then .magic
  else if 0x0400 ≤ o ∧ o ≤ 0x07FC then .freq ((o - 0x0400) / 4)
  else if 0x0800 ≤ o ∧ o ≤ 0x0C00 then .codeLen ((o - 0x0800) / 4)
  else if 0x1000 ≤ o ∧ o ≤ 0x301C then .codeBits ((o - 0x1000) / 32) ((o - 0x1000) % 32 / 4)
  else if 0x4000 ≤ o ∧ o ≤ 0x600C then .nodeWord ((o - 0x4000) / 16) ((o - 0x4000) % 16 / 4)
  else .unmapped

/-- Bits [9:0] of a word whose other bits read 0 (R41 to R43). -/
def word10 (v : BitVec 10) : Word := v.setWidth 32

/-- CODELEN (R49). -/
def codeLenWord (c : CodeEntry) : Word := bit c.valid ++ 0#22 ++ c.len

/-- CODEBITS, word `w` (R49). -/
def codeBitsWord (c : CodeEntry) (w : Nat) : Word := c.bits.extractLsb' (32 * w) 32

/-- NODEWORD of a record, word `k` (R46). -/
def nodeRecordWord (r : Node) (k : Nat) : Word :=
  match k with
  | 0 => bit r.leaf ++ 0#22 ++ r.sym
  | 1 => 0#6 ++ r.right ++ 0#6 ++ r.left
  | 2 => r.weight.extractLsb' 0 32
  | 3 => 0#24 ++ r.weight.extractLsb' 32 8
  | _ => 0

/-- NODEWORD[i][k]: 0 for an index at or above NODES (R46). -/
def nodeWordAt (i k : Nat) (s : State) : Word :=
  if i < s.nodes.toNat then nodeRecordWord (s.node.getD i Node.blank) k else 0

/-- What a read returns while BUSY = 0 (R85). -/
def idleRead (r : Reg) (s : State) : Word :=
  match r with
  | .cmd => 0
  | .status => statusWord s
  | .root => word10 s.root
  | .nodes => word10 s.nodes
  | .leaves => word10 s.leaves
  | .magic => Config.magic
  | .freq i => readFreq i s
  | .codeLen i => codeLenWord (readCode i s)
  | .codeBits i w => codeBitsWord (readCode i s) w
  | .nodeWord i k => nodeWordAt i k s
  | .unmapped => 0

/-- Does a read of this register return a draw while BUSY = 1 (R86 (c) to (e))? -/
def drawnWhileBusy (r : Reg) : Bool :=
  match r with
  | .cmd => false
  | .status => true
  | .root => true
  | .nodes => true
  | .leaves => true
  | .magic => false
  | .freq _ => true
  | .codeLen _ => true
  | .codeBits _ _ => true
  | .nodeWord _ _ => true
  | .unmapped => false

/-- What a read returns while BUSY = 1, `d` being the draw (R86 (c) to (e)). -/
def busyRead (r : Reg) (d : Word) (s : State) : Word :=
  match r with
  | .status => busyStatusWord s d
  | .cmd => 0
  | .magic => Config.magic
  | .unmapped => 0
  | .root => d
  | .nodes => d
  | .leaves => d
  | .freq _ => d
  | .codeLen _ => d
  | .codeBits _ _ => d
  | .nodeWord _ _ => d

/-- The word `MemRead(off, 4)` returns (R82, R85, R86). -/
def memRead (off : Offset) (s : State) : Word :=
  if s.busy then busyRead (regAt off) (Config.busyRead s.draws) s else idleRead (regAt off) s

/-- The host's read: the word goes to the host, and nothing of the block changes (R84). A draw is counted, so that the next
one is another (log entry 6). -/
def hostRead (off : Offset) (s : State) : State :=
  { s with
    hostWord := memRead off s
    draws := if s.busy && drawnWhileBusy (regAt off) then s.draws + 1 else s.draws }

/-- `MemWrite(off, 4, v)`: CMD and FREQ take it while BUSY = 0 (R85) and drop it while BUSY = 1 (R86 (a)); every other
offset ignores it (R85, R86 (b)). -/
def memWrite (off : Offset) (v : Word) (s : State) : State :=
  match regAt off with
  | .cmd => if s.busy then setDrop s else accept v s
  | .freq i => if s.busy then setDrop s else writeFreq i v s
  | .status => s
  | .root => s
  | .nodes => s
  | .leaves => s
  | .magic => s
  | .codeLen _ => s
  | .codeBits _ _ => s
  | .nodeWord _ _ => s
  | .unmapped => s

/-- attach (R98). -/
def attachIn (b : BitString) (s : State) : State := { s with inp := ⟨b, 0⟩ }

/-- take (R98): OUT goes to the host, and starts again where the host asks for it. -/
def takeOut (restart : Bool) (s : State) : State :=
  { s with hostOut := s.out, out := if restart then ⟨[], false⟩ else s.out }

end Sys2Proof.Machine
end

