-- ==== Sys2Proof/Machine/HostProgram.lean ====
section
/-! DEFINITION. The host as an agent: its lines (R128), the pseudo-instructions (R129), the command lines (R127), and the
sequences COMPRESS and DECOMPRESS (R130, R131). -/

namespace Sys2Proof.Machine

/-- The host runs one line. -/
def hostLine (l : HostLine) (s : State) : Host.Outcome State Fault Refusal :=
  match l with
  | .rd off => .next (hostRead off s)
  | .wr off v => .next (memWrite off v s)
  | .attach b => if s.busy then .refused .hostStreamWhileBusy else .next (attachIn b s)
  | .take restart => if s.busy then .refused .hostStreamWhileBusy else .next (takeOut restart s)
  | .wait =>
    let t := hostRead 0x0004 s
    .next (if t.hostWord.getLsbD 0 then { t with script := .wait :: t.script } else t)
  | .stopIfErr =>
    .next (if s.hostWord.getLsbD 1 then { s with script := [], hostFail := some (s.hostWord.extractLsb' 4 4) } else s)

/-- The host's move: its next line; a host with no line left does nothing. -/
def hostMove (s : State) : Host.Outcome State Fault Refusal :=
  match s.script with
  | [] => .next s
  | l :: rest => hostLine l { s with script := rest }

/-- A command line assembles to one write of CMD (R127). -/
def commandLine (i : Instr) : HostLine := .wr 0x0000 (encode i)

/-- `chk` (R129). -/
def chk : List HostLine := [.wait, .rd 0x0004, .stopIfErr]

/-- `ENCEOF` (R129). -/
def encEof : HostLine := commandLine (.enc Config.pseudoEof)

/-- `wfreq <s>, <v>` (R128). -/
def wfreq (s : BitVec 8) (v : Word) : HostLine := .wr (BitVec.ofNat 16 (0x0400 + 4 * s.toNat)) v

/-- `attach <bytes>` (R128, R97). -/
def attachBytes (bs : List (BitVec 8)) : HostLine := .attach (bitsOfBytes bs)

/-- A command line and its `chk`. -/
def checked (i : Instr) : List HostLine := commandLine i :: chk

/-- `count_B(s)` (R130). -/
def countOf (bs : List (BitVec 8)) (s : BitVec 8) : Nat := bs.count s

/-- The `wfreq` lines of COMPRESS: one for each s with a count that is not 0 (R130). DESIGN CHOICE (log entry 18): the rule
gives these lines no order among themselves; the model issues them in ascending s. -/
def wfreqLines (bs : List (BitVec 8)) : List HostLine :=
  (List.range 256).filterMap fun s =>
    let n := countOf bs (BitVec.ofNat 8 s)
    if n ≠ 0 then some (wfreq (BitVec.ofNat 8 s) (BitVec.ofNat 32 n)) else none

/-- COMPRESS(B) (R130). -/
def compressLines (bs : List (BitVec 8)) : List HostLine :=
  [attachBytes bs] ++ checked .clear ++ wfreqLines bs ++ checked .build ++ checked .rewind ++ checked .wmagic ++
    checked .ser ++ checked .gentab ++ checked .encall ++ checked .close ++ [.take true]

/-- DECOMPRESS(C) (R131). -/
def decompressLines (bs : List (BitVec 8)) : List HostLine :=
  [attachBytes bs] ++ checked .rmagic ++ checked .des ++ checked .decode ++ checked .close ++ [.take true]

end Sys2Proof.Machine
end

