-- ==== Sys2Proof/Machine/Step.lean ====
section
/-! DEFINITION. One step of the block and its surroundings: one agent moves (R30, R89). -/

namespace Sys2Proof.Machine

/-- The agent that `turns` names moves; with no turn left the core moves while BUSY = 1, and the host otherwise (R151, R340). -/
def step (s : State) : Host.Outcome State Fault Refusal :=
  match s.turns with
  | [] => if s.busy then coreMove s else hostMove s
  | .core :: ts => coreMove { s with turns := ts }
  | .host :: ts => hostMove { s with turns := ts }
  | .reset :: ts => .next (coreReset { s with turns := ts })

/-- `s` with a command word accepted (R150) and the core to move next, so that the very next step runs it. -/
def State.withFetchWord (s : State) (nbits w : Nat) : State :=
  { accept (tableWord nbits w) s with turns := .core :: s.turns }

end Sys2Proof.Machine
end

