-- ==== Sys2Proof/Safety.lean ====
section
/-! DEFINITION. The terms the statements are made in: the tree a node store holds (R47), its serialized form (R191) and its
paths (R231), the invariants of the block, and the ports' good behaviour (R96). -/

namespace Sys2Proof.Machine

/-- A full binary tree with a symbol at each leaf: what a node store holds, without its indices and weights (R45, R198). -/
inductive Tree where
  | leaf (sym : Sym)
  | node (left right : Tree)
  deriving DecidableEq, Repr

/-- The tree below index `i`, if following LEFT and RIGHT meets indices below NODES only and no path has `n` edges or more. -/
def treeAt : Nat → State → NodeIdx → Option Tree
  | 0, _, _ => none
  | n + 1, s, i =>
    if i.toNat < s.nodes.toNat then
      match s.node[i.toNat]? with
      | none => none
      | some r =>
        if r.leaf then some (.leaf r.sym)
        else
          match treeAt n s r.left, treeAt n s r.right with
          | some l, some t => some (.node l t)
          | _, _ => none
    else none

/-- The tree held: the one below ROOT, no path longer than CODE_MAX (R236). -/
def heldTree (s : State) : Option Tree := treeAt Config.treeDepth s s.root

/-- The indices met in pre-order from index `i`, under the same conditions as `treeAt`. -/
def indicesAt : Nat → State → NodeIdx → Option (List Nat)
  | 0, _, _ => none
  | n + 1, s, i =>
    if i.toNat < s.nodes.toNat then
      match s.node[i.toNat]? with
      | none => none
      | some r =>
        if r.leaf then some [i.toNat]
        else
          match indicesAt n s r.left, indicesAt n s r.right with
          | some l, some t => some (i.toNat :: (l ++ t))
          | _, _ => none
    else none

/-- The number of leaves of a tree. -/
def Tree.leafCount : Tree → Nat
  | .leaf _ => 1
  | .node l r => l.leafCount + r.leafCount

/-- `T`, the serialized form (R191). -/
def Tree.bits : Tree → BitString
  | .leaf sym => true :: bitsOf 9 sym.toNat
  | .node l r => false :: (l.bits ++ r.bits)

/-- The leaf symbols in pre-order, each with its path, `p` being the path so far (R231). -/
def Tree.pathsFrom : Tree → BitString → List (Nat × BitString)
  | .leaf sym, p => [(sym.toNat, p)]
  | .node l r, p => l.pathsFrom (p ++ [false]) ++ r.pathsFrom (p ++ [true])

/-- The leaf symbols in pre-order, each with its path from the root (R231). -/
def Tree.paths (t : Tree) : List (Nat × BitString) := t.pathsFrom []

/-- The leaf symbols in pre-order. -/
def Tree.symbols (t : Tree) : List Nat := t.paths.map Prod.fst

/-- The path of the last leaf in pre-order that holds the symbol (R234); `none` where no leaf does. -/
def Tree.lastPath (t : Tree) (sym : Nat) : Option BitString :=
  (t.paths.reverse.find? fun e => e.1 == sym).map Prod.snd

/-- The CODE entry that R230 to R235 give a symbol of a tree. -/
def Tree.entry (t : Tree) (sym : Nat) : CodeEntry :=
  match t.lastPath sym with
  | some p => pathEntry p
  | none => CodeEntry.empty

/-- The number of tag bits among the first `n` bits of the serialized form (R191): one for each node reached. -/
def Tree.tagsIn : Tree → Nat → Nat
  | .leaf _, n => min n 1
  | .node l r, n => if n = 0 then 0 else 1 + l.tagsIn (n - 1) + r.tagsIn (n - 1 - l.bits.length)

/-- Is the tree a single leaf? -/
def Tree.isLeaf : Tree → Bool
  | .leaf _ => true
  | .node _ _ => false

/-- The records in use, NODE[0..NODES-1] (R42). -/
def usedRecords (s : State) : List Node := s.node.take s.nodes.toNat

/-- The internal arrays have the sizes of R40, R45 and R48: the canonical form of the block's memory (R80 (4)). -/
abbrev Memory.wf (s : State) : Prop := s.freq.length = 256 ∧ s.node.length = 513 ∧ s.code.length = 257

/-- The registers and the node store hold a tree (R47 (a) to (d)). -/
structure WellFormedTree (s : State) : Prop where
  /-- (a). -/
  nodes_pos : 1 ≤ s.nodes.toNat
  nodes_le : s.nodes.toNat ≤ 513
  root_lt : s.root.toNat < s.nodes.toNat
  /-- (b). -/
  children : ∀ r ∈ usedRecords s, r.leaf = false →
    r.left.toNat < s.nodes.toNat ∧ r.right.toNat < s.nodes.toNat ∧ r.left ≠ r.right
  /-- (c): every index below NODES is met exactly once; a path is no longer than the number of records. -/
  once : ∃ l, indicesAt Config.nodeCap s s.root = some l ∧ l.Perm (List.range s.nodes.toNat)
  /-- (d). -/
  leaves_count : s.leaves.toNat = (usedRecords s).countP (·.leaf)
  nodes_eq : s.nodes.toNat = 2 * s.leaves.toNat - 1

/-- R47 (e), which every tree made by BUILD has: symbols at most 256, distinct, and exactly one PSEUDO_EOF. -/
structure BuildSymbols (s : State) : Prop where
  sym_le : ∀ r ∈ usedRecords s, r.sym.toNat ≤ 256
  distinct : (((usedRecords s).filter (·.leaf)).map (·.sym)).Nodup
  one_eof : ((usedRecords s).filter (·.leaf)).countP (fun r => r.sym.toNat = Config.pseudoEof) = 1

/-- The order of the keys (WEIGHT, index) of R173. -/
def keyBefore (store : List Node) (j k : Nat) : Prop :=
  (weightAt store j).toNat < (weightAt store k).toNat ∨ ((weightAt store j).toNat = (weightAt store k).toNat ∧ j < k)

/-- Index `j` is in HEAP when the record at index `i` is to be written: it is lower, and no internal record below `i` has it
as a child (R172, R174). -/
def unmerged (store : List Node) (i j : Nat) : Prop :=
  j < i ∧ ∀ k < i, ∀ r, store[k]? = some r → r.leaf = false → r.left.toNat ≠ j ∧ r.right.toNat ≠ j

/-- Σ FREQ (R176). -/
def freqTotal (s : State) : Nat := (s.freq.map (·.toNat)).sum

/-- The number of s with FREQ[s] ≠ 0 (R172, R177). -/
def countedSymbols (s : State) : Nat := s.freq.countP (· ≠ 0)

/-- The CODE entries are as R48 has them: zero where not valid, LEN at most 256, no bit of BITS at or above LEN. -/
def CodeEntry.canonical (c : CodeEntry) : Prop :=
  (c.valid = false → c = CodeEntry.empty) ∧ c.len.toNat ≤ Config.codeMax ∧ c.bits.toNat < 2 ^ c.len.toNat

/-- What every state of the block keeps of its registers, arrays and ports. -/
structure RegInv (s : State) : Prop where
  /-- R40, R45, R48. -/
  memory : Memory.wf s
  /-- R37. -/
  err_iff : s.err = false ↔ s.errcode = 0
  /-- R300: codes 12 to 15 are never produced. -/
  code_le : s.errcode.toNat ≤ 11
  /-- R38. -/
  table_tree : s.tableValid = true → s.treeValid = true
  /-- R41 to R43, R157, R197. -/
  no_tree : s.treeValid = false → s.root = 0 ∧ s.nodes = 0 ∧ s.leaves = 0
  /-- R36, R150. -/
  pending : s.busy = true → s.pending ≠ none
  /-- R48. -/
  code : ∀ c ∈ s.code, c.canonical
  /-- R48: entries are valid after a successful GENTAB only. -/
  no_table : s.tableValid = false → s.code = emptyCode
  /-- R53. -/
  in_pos : s.inp.pos ≤ s.inp.bits.length
  /-- R97. -/
  out_closed : s.out.closed = true → s.out.bits.length % 8 = 0

/-- R38, R47: while TREE_VALID = 1 the registers and the node store hold a tree. -/
def TreeInv (s : State) : Prop := s.treeValid = true → WellFormedTree s

/-- R38: while TABLE_VALID = 1 the CODE table is the one of the tree held. -/
def TableInv (s : State) : Prop :=
  s.tableValid = true → ∃ t, heldTree s = some t ∧ ∀ sym ≤ 256, readCode sym s = t.entry sym

/-- What a run of the block keeps: the registers' invariant, the tree's and the table's. -/
structure Inv (s : State) : Prop where
  reg : RegInv s
  tree : TreeInv s
  table : TableInv s

/-- PortFail() is false at every call, and no reset is asserted inside a command (R96, R331). -/
def PortsSucceed (s : State) : Prop := ∀ a ∈ s.answers, a = .succeeds

/-- No reset is asserted inside a command (R331); calls may fail. -/
def NoResetInside (s : State) : Prop := .resetFirst ∉ s.answers

/-- A command that completed with success (R152, R154). -/
def succeeded (s : State) : State := { s with err := false, errcode := 0, busy := false }

/-- A command that completed with the error `e` (R303). -/
def failedWith (e : ErrCode) (s : State) : State := { s with err := true, errcode := errNumber e, busy := false }

/-- `k` port calls have drawn their answers (R96). -/
def afterCalls (k : Nat) (s : State) : State := { s with answers := s.answers.drop k }

/-- The bits of IN still to be read. -/
def remaining (s : State) : BitString := s.inp.bits.drop s.inp.pos

/-- The core is to move: BUSY = 1 and no other agent has the turn (R89). -/
def CoreToMove (s : State) : Prop := s.busy = true ∧ (s.turns = [] ∨ s.turns.head? = some .core)

/-- The host is to move. -/
def HostToMove (s : State) : Prop := (s.turns = [] ∧ s.busy = false) ∨ s.turns.head? = some .host

/-- The turn just given is used up. -/
def passTurn (s : State) : State := { s with turns := s.turns.tail }

/-- The commands that can raise an error, the column "raised by" of R300; E_ILLEGAL is raised for words that are no command. -/
def raisedBy (e : ErrCode) (i : Instr) : Prop :=
  match e with
  | .magic => i = .rmagic
  | .eosTree => i = .des
  | .eosBody => i = .decode
  | .rootLeaf => i = .decode
  | .capacity => i = .des
  | .noTree => i = .ser ∨ i = .gentab ∨ i = .decode
  | .noTable => (∃ sym, i = .enc sym) ∨ i = .encall
  | .noCode => (∃ sym, i = .enc sym) ∨ i = .encall
  | .symRange => (∃ sym, i = .enc sym) ∨ i = .gentab
  | .illegal => False
  | .io => i ≠ .nop ∧ i ≠ .clear ∧ i ≠ .build ∧ i ≠ .gentab

/-- The command makes a port call that draws an answer, whatever the answers are: the one its pseudocode reaches first
(R190, R193, R199, R200, R250, R251, R270, R290, R291). -/
def firstCallReached (i : Instr) (s : State) : Prop :=
  match i with
  | .nop => False
  | .clear => False
  | .build => False
  | .ser => s.treeValid = true ∧ (∃ t, heldTree s = some t) ∧ s.out.closed = false
  | .des => True
  | .gentab => False
  | .enc sym => s.tableValid = true ∧ sym ≤ 256 ∧ (readCode sym s).valid = true ∧ (readCode sym s).len ≠ 0 ∧
      s.out.closed = false
  | .encall => s.tableValid = true
  | .decode => s.treeValid = true ∧ ∃ t, heldTree s = some t ∧ t.isLeaf = false
  | .wmagic => s.out.closed = false
  | .rmagic => True
  | .rewind => True
  | .close => s.out.closed = false

/-- A sequence of commands, each run to its completion with ERR = 0; `none` where one is not. -/
def runAll : List Instr → State → Option State
  | [], s => some s
  | i :: is, s =>
    match exec i s with
    | .next t => if t.err then none else runAll is t
    | .fault _ => none
    | .refused _ => none

/-- The states differ at most in what no access and no rule can observe: records at or above NODES, HEAP and CUR
(R45, R46, R50, R51). -/
def SameBlock (s u : State) : Prop :=
  u = { s with node := u.node, heap := u.heap, cur := u.cur } ∧ u.node.length = s.node.length ∧
    ∀ i < s.nodes.toNat, u.node[i]? = s.node[i]?

/-- The code of a symbol in the table held: `bits_LEN(BITS)` (R253). -/
def codeOf (s : State) (sym : Nat) : BitString := (readCode sym s).path

end Sys2Proof.Machine
end

