-- ==== Sys2Proof/Certificates/Slice0/Obligations.lean ====
section
/-! DEFINITION. The statements for the provers. -/

open Sys2Proof Sys2Proof.Machine

/-! ### Command words (spec/30_encoding.md) -/

/-- The encoder and the decoder agree on every word: each well-formed command comes back from its word, with its operand,
and each word that selects a command is that command's only word (R121 to R123). -/
def Obligations.CommandWordsRoundTrip : Prop :=
  (∀ i : Instr, i.wellFormed = true → decode (encode i) = some i) ∧
    ∀ (w : Word) (i : Instr), decode w = some i → i.wellFormed = true ∧ encode i = w

/-- R124: which words select a command, which command and operand each selects, which words are ILLEGAL, and that an illegal
word ends with E_ILLEGAL and changes nothing else. -/
def Obligations.DecodeReadsTheFields : Prop :=
  ∀ w : Word,
    (∀ i : Instr, decode w = some i ↔
      rsvdField w = 0 ∧ opcodeField w ≤ 0x0C ∧ (opcodeField w ≠ 0x06 → symField w = 0) ∧
        opcodeOf i = opcodeField w ∧ symOf i = symField w) ∧
    (decode w = none ↔ rsvdField w ≠ 0 ∨ 0x0C < opcodeField w ∨ (opcodeField w ≠ 0x06 ∧ symField w ≠ 0)) ∧
    (decode w = none → ∀ s : State, runWord w s = .next { s with err := true, errcode := 10, busy := false })

/-- Words written out from the table of R123 and the examples of R127 decode to the commands they stand for; words of R125 do
not. -/
def Obligations.SampleWordsDecode : Prop :=
  decode 0x00000000 = some .nop ∧ decode 0x00000002 = some .build ∧ decode 0x00000005 = some .gentab ∧
    decode 0x00006106 = some (.enc 0x61) ∧ decode 0x00010006 = some (.enc 256) ∧ decode 0x0001FF06 = some (.enc 511) ∧
    decode 0x0000000A = some .rmagic ∧ decode 0x0000000C = some .close ∧ decode 0x0000000D = none ∧
    decode 0x00000102 = none ∧ decode 0x00020000 = none ∧ decode 0x80000002 = none

/-! ### From an accepted word to its execution (spec/40_control.md) -/

/-- R153: the core's step decodes PENDING; a word that selects a command runs that command, with its operand, and an illegal
word ends with E_ILLEGAL and changes no other state. The turn that was the core's is used up (log entry 4). -/
def Obligations.PendingCommandRuns : Prop :=
  ∀ (s : State) (w : Word), CoreToMove s → s.pending = some w →
    (∀ i : Instr, decode w = some i → step s = exec i (passTurn s)) ∧
      (decode w = none → step s = .next { passTurn s with err := true, errcode := 10, busy := false })

/-- A word placed by withFetchWord is the next thing the machine runs (the model's own function, log entry 10). -/
def Obligations.PlacedWordRunsNext : Prop :=
  ∀ (s : State) (nbits w : Nat) (i : Instr), decodeTableWord nbits w = some i →
    step (s.withFetchWord nbits w) = exec i { s with pending := some (tableWord nbits w), busy := true, busyDrop := false }

/-- While BUSY = 0 the core has no step (R151, R154). That a turn given to it then passes, and changes nothing else, is the
model's choice (log entry 4). -/
def Obligations.IdleCoreHasNoStep : Prop :=
  ∀ s : State, s.busy = false → s.turns.head? = some .core → step s = .next (passTurn s)

/-- R150: the host's write of CMD is accepted while BUSY = 0, and only PENDING and BUSY change; while BUSY = 1 it is dropped.
`script`, `turns` and `busyDrop` are the model's own fields (log entries 3, 4 and 12). -/
def Obligations.CommandIsAcceptedOrDropped : Prop :=
  ∀ (s : State) (w : Word) (rest : List HostLine), HostToMove s → s.script = .wr 0x0000 w :: rest →
    (s.busy = false →
      step s = .next { passTurn s with script := rest, pending := some w, busy := true, busyDrop := false }) ∧
    (s.busy = true → step s = .next { passTurn s with script := rest, drop := true, busyDrop := true })

/-- Every command completes, whatever IN holds and whatever PortFail answers, and leaves BUSY = 0; so does the core's step on
any accepted word (R158). The invariant rules out the states that no run reaches. -/
def Obligations.EveryCommandCompletes : Prop :=
  ∀ s : State, Inv s →
    (∀ i : Instr, ∃ t, exec i s = .next t ∧ t.busy = false) ∧
      (CoreToMove s → ∃ t, step s = .next t ∧ t.busy = false)

/-- Every error that a command leaves is one that the table of R300 lets that command raise, with the table's number. -/
def Obligations.ErrorsComeFromTheirCommands : Prop :=
  (errNumber .magic = 1 ∧ errNumber .eosTree = 2 ∧ errNumber .eosBody = 3 ∧ errNumber .rootLeaf = 4 ∧
    errNumber .capacity = 5 ∧ errNumber .noTree = 6 ∧ errNumber .noTable = 7 ∧ errNumber .noCode = 8 ∧
    errNumber .symRange = 9 ∧ errNumber .illegal = 10 ∧ errNumber .io = 11) ∧
  ∀ (i : Instr) (s t : State), exec i s = .next t → t.err = true → ∃ e, raisedBy e i ∧ t.errcode = errNumber e

/-- R302: FormatError is codes 1 to 5. -/
def Obligations.FormatErrorsAreOneToFive : Prop :=
  ∀ e : ErrCode, errClass e = .formatError ↔ 1 ≤ (errNumber e).toNat ∧ (errNumber e).toNat ≤ 5

/-- The preconditions, in the order R306 (2) and the commands' own rules give: no tree, no table, a symbol above 256, a symbol
without a code. Nothing but ERR, ERRCODE and BUSY changes. -/
def Obligations.PreconditionsAreCheckedInOrder : Prop :=
  ∀ s : State,
    (s.treeValid = false →
      exec .ser s = .next (failedWith .noTree s) ∧ exec .gentab s = .next (failedWith .noTree s) ∧
        exec .decode s = .next (failedWith .noTree s)) ∧
    (s.tableValid = false →
      exec .encall s = .next (failedWith .noTable s) ∧ ∀ sym, exec (.enc sym) s = .next (failedWith .noTable s)) ∧
    (s.tableValid = true →
      (∀ sym, 256 < sym → exec (.enc sym) s = .next (failedWith .symRange s)) ∧
        ∀ sym ≤ 256, (readCode sym s).valid = false → exec (.enc sym) s = .next (failedWith .noCode s))

/-! ### The host register space (spec/10_state.md, spec/20_memory.md) -/

/-- Host writes while BUSY = 0 (R85): CMD accepts, FREQ[i] takes the word, every other offset ignores it. -/
def Obligations.IdleWritesReachCmdAndFreq : Prop :=
  ∀ (s : State) (off : Offset) (v : Word), s.busy = false →
    (off = 0x0000 → memWrite off v s = { s with pending := some v, busy := true, busyDrop := false }) ∧
    (∀ i < 256, off.toNat = 0x0400 + 4 * i → memWrite off v s = { s with freq := s.freq.set i v }) ∧
    (off ≠ 0x0000 → (∀ i < 256, off.toNat ≠ 0x0400 + 4 * i) → memWrite off v s = s)

/-- Host accesses while BUSY = 1 (R86): writes of CMD and FREQ are dropped, other writes ignored; STATUS reads BUSY = 1 and
the current DROP, its other bits a draw; ROOT, NODES, LEAVES, FREQ, CODELEN, CODEBITS and NODEWORD read a draw; MAGIC and CMD
read as ever (unmapped offsets: UnmappedOffsets). The model takes a draw from `Config.busyRead` at its own counter `draws`, a
fresh one for each such read (log entry 6); `busyDrop` is its own field too (log entry 12). -/
def Obligations.BusyAccesses : Prop :=
  ∀ (s : State) (off : Offset) (v : Word), s.busy = true →
    (off = 0x0000 ∨ (∃ i < 256, off.toNat = 0x0400 + 4 * i) →
      memWrite off v s = { s with drop := true, busyDrop := true }) ∧
    (off ≠ 0x0000 → (∀ i < 256, off.toNat ≠ 0x0400 + 4 * i) → memWrite off v s = s) ∧
    (memRead 0x0004 s).getLsbD 0 = true ∧ (memRead 0x0004 s).getLsbD 8 = s.drop ∧
    (memRead 0x0004 s).extractLsb' 1 7 = (Config.busyRead s.draws).extractLsb' 1 7 ∧
    (memRead 0x0004 s).extractLsb' 9 23 = (Config.busyRead s.draws).extractLsb' 9 23 ∧
    (hostRead 0x0004 s).draws = s.draws + 1 ∧
    (off = 0x0008 ∨ off = 0x000C ∨ off = 0x0010 ∨ (∃ i < 256, off.toNat = 0x0400 + 4 * i) ∨
        (∃ sym ≤ 256, off.toNat = 0x0800 + 4 * sym) ∨ (∃ sym ≤ 256, ∃ w ≤ 7, off.toNat = 0x1000 + 32 * sym + 4 * w) ∨
        (∃ i ≤ 512, ∃ k ≤ 3, off.toNat = 0x4000 + 16 * i + 4 * k) →
      memRead off s = Config.busyRead s.draws ∧ (hostRead off s).draws = s.draws + 1) ∧
    memRead 0x0014 s = Config.magic ∧ memRead 0x0000 s = 0

/-- R84: no read has a side effect. `hostWord` and `draws` are the model's own fields: the word the host received, and the
count of draws (log entries 6 and 7). -/
def Obligations.ReadsHaveNoSideEffect : Prop :=
  ∀ (s : State) (off : Offset),
    ∃ n, hostLine (.rd off) s = .next { s with hostWord := memRead off s, draws := n } ∧ (s.busy = false → n = s.draws)

/-- What STATUS, ROOT, NODES, LEAVES, MAGIC and CMD read while BUSY = 0, bit by bit (R34, R35, R41 to R44). -/
def Obligations.RegistersRead : Prop :=
  ∀ s : State, s.busy = false →
    (memRead 0x0004 s).getLsbD 0 = false ∧ (memRead 0x0004 s).getLsbD 1 = s.err ∧
    (memRead 0x0004 s).getLsbD 2 = s.treeValid ∧ (memRead 0x0004 s).getLsbD 3 = s.tableValid ∧
    (memRead 0x0004 s).extractLsb' 4 4 = s.errcode ∧ (memRead 0x0004 s).getLsbD 8 = s.drop ∧
    (memRead 0x0004 s).extractLsb' 9 23 = 0 ∧
    (memRead 0x0008 s).extractLsb' 0 10 = s.root ∧ (memRead 0x0008 s).extractLsb' 10 22 = 0 ∧
    (memRead 0x000C s).extractLsb' 0 10 = s.nodes ∧ (memRead 0x000C s).extractLsb' 10 22 = 0 ∧
    (memRead 0x0010 s).extractLsb' 0 10 = s.leaves ∧ (memRead 0x0010 s).extractLsb' 10 22 = 0 ∧
    memRead 0x0014 s = Config.magic ∧ Config.magic ≠ 0 ∧ memRead 0x0000 s = 0

/-- R46: the node window. -/
def Obligations.NodeWindow : Prop :=
  ∀ (s : State) (i k : Nat) (off : Offset), i ≤ 512 → k ≤ 3 → off.toNat = 0x4000 + 16 * i + 4 * k →
    (s.busy = false → s.nodes.toNat ≤ i → memRead off s = 0) ∧
    (∀ r, s.busy = false → i < s.nodes.toNat → s.node[i]? = some r →
      (k = 0 → (memRead off s).getLsbD 31 = r.leaf ∧ (memRead off s).extractLsb' 0 9 = r.sym ∧
        (memRead off s).extractLsb' 9 22 = 0) ∧
      (k = 1 → (memRead off s).extractLsb' 0 10 = r.left ∧ (memRead off s).extractLsb' 16 10 = r.right ∧
        (memRead off s).extractLsb' 10 6 = 0 ∧ (memRead off s).extractLsb' 26 6 = 0) ∧
      (k = 2 → memRead off s = r.weight.extractLsb' 0 32) ∧
      (k = 3 → (memRead off s).extractLsb' 0 8 = r.weight.extractLsb' 32 8 ∧ (memRead off s).extractLsb' 8 24 = 0)) ∧
    ∀ v, memWrite off v s = s

/-- R49: the two windows onto the CODE table. -/
def Obligations.CodeWindows : Prop :=
  ∀ (s : State) (sym : Nat) (e : CodeEntry) (off : Offset), sym ≤ 256 → s.code[sym]? = some e →
    (off.toNat = 0x0800 + 4 * sym →
      (s.busy = false → (memRead off s).getLsbD 31 = e.valid ∧ (memRead off s).extractLsb' 0 9 = e.len ∧
        (memRead off s).extractLsb' 9 22 = 0) ∧
      ∀ v, memWrite off v s = s) ∧
    (∀ w ≤ 7, off.toNat = 0x1000 + 32 * sym + 4 * w →
      (s.busy = false → memRead off s = e.bits.extractLsb' (32 * w) 32) ∧ ∀ v, memWrite off v s = s)

/-- Every bit of a FREQ entry reads back as written, and the other entries keep what they held (R40). -/
def Obligations.FreqReadsBack : Prop :=
  ∀ (s : State) (i : Nat) (off : Offset) (v : Word), s.busy = false → s.freq.length = 256 → i < 256 →
    off.toNat = 0x0400 + 4 * i →
    memRead off (memWrite off v s) = v ∧
      ∀ (j : Nat) (off' : Offset), j < 256 → j ≠ i → off'.toNat = 0x0400 + 4 * j →
        memRead off' (memWrite off v s) = memRead off' s

/-- R54: unmapped and misaligned offsets read 0 and ignore writes, whatever BUSY is. -/
def Obligations.UnmappedOffsets : Prop :=
  ∀ (s : State) (off : Offset) (v : Word),
    off.toNat % 4 ≠ 0 ∨ (0x0018 ≤ off.toNat ∧ off.toNat ≤ 0x03FC) ∨ (0x0C04 ≤ off.toNat ∧ off.toNat ≤ 0x0FFC) ∨
      (0x3020 ≤ off.toNat ∧ off.toNat ≤ 0x3FFC) ∨ (0x6010 ≤ off.toNat ∧ off.toNat ≤ 0xFFFC) →
    memRead off s = 0 ∧ memWrite off v s = s

/-! ### Reset (spec/70_reset_and_hazards.md) -/

/-- The reset input, in any state: the reset values of R330, and IN, OUT and MAGIC as they were (R332). The last three clauses
are the model's choice and no rule's: that the reset uses up its own turn only, and that the host's script and the answers to
come stay (log entry 4). -/
def Obligations.ResetClearsTheBlock : Prop :=
  ∀ s : State, s.turns.head? = some .reset →
    ∃ t, step s = .next t ∧
      t.busy = false ∧ t.err = false ∧ t.treeValid = false ∧ t.tableValid = false ∧ t.errcode = 0 ∧ t.drop = false ∧
      statusWord t = 0 ∧ t.pending = none ∧ t.freq = List.replicate 256 0 ∧ t.nodes = 0 ∧ t.leaves = 0 ∧ t.root = 0 ∧
      t.code = List.replicate 257 CodeEntry.empty ∧ t.inp = s.inp ∧ t.out = s.out ∧ memRead 0x0014 t = Config.magic ∧
      t.turns = s.turns.tail ∧ t.script = s.script ∧ t.answers = s.answers

/-- The reset column of R33: after a reset every offset reads 0 but MAGIC's, and so it does in the model's first state. -/
def Obligations.EveryWordReadsZeroAfterReset : Prop :=
  ∀ (s : State) (off : Offset),
    memRead off (coreReset s) = (if off = 0x0014 then Config.magic else 0) ∧
      memRead off State.reset = (if off = 0x0014 then Config.magic else 0)

/-- A reset asserted before any port call of a command abandons it (R331). Where a command makes a call after the answers
`pre`, whatever that call's answer `a` is, a reset in the place of `a` leaves the state of R330 over what the earlier calls
did: over the same IN and OUT as where that call fails and does nothing. And each command, in the states in which its first call
is reached, is abandoned before that call: no error is recorded, IN and OUT stand. Where in the list of answers the reset stands
is the model's form of the draw (log entry 5). -/
def Obligations.ResetAbandonsTheCommand : Prop :=
  (∀ (i : Instr) (s t : State) (pre post : List PortAnswer) (a : PortAnswer),
    exec i { s with answers := pre ++ a :: post } = .next t → t.answers.length ≤ post.length →
    ∃ u, exec i { s with answers := pre ++ .fails 0 :: post } = .next u ∧ u.err = true ∧ u.errcode = 11 ∧
      u.answers = post ∧ exec i { s with answers := pre ++ .resetFirst :: post } = .next (coreReset u)) ∧
  ∀ (i : Instr) (s : State) (as : List PortAnswer), firstCallReached i s → s.answers = .resetFirst :: as →
    exec i s = .next (coreReset { s with answers := as })

/-! ### NOP and CLEAR (spec/40_control.md) -/

/-- R156: NOP clears ERR and ERRCODE and changes nothing else; its word is 0. -/
def Obligations.NopClearsTheOutcome : Prop :=
  decode 0x00000000 = some .nop ∧ ∀ s : State, exec .nop s = .next { s with err := false, errcode := 0, busy := false }

/-- CLEAR (R157): what it empties, and that it leaves the rest. DROP is 0 where no write was dropped during its own busy
interval, and a draw otherwise (log entry 12). -/
def Obligations.ClearEmptiesTheTables : Prop :=
  ∀ s : State, ∃ t, exec .clear s = .next t ∧
    t = { s with
      freq := List.replicate 256 0, nodes := 0, leaves := 0, root := 0, treeValid := false
      code := List.replicate 257 CodeEntry.empty, tableValid := false, drop := t.drop, draws := t.draws
      err := false, errcode := 0, busy := false } ∧
    (s.busyDrop = false → t.drop = false ∧ t.draws = s.draws)

/-! ### BUILD (spec/41_tree_builder.md) -/

/-- BUILD succeeds in every state: it makes a tree that satisfies R47 (a) to (e), clears the CODE table, and leaves the rest
(R170, R178). -/
def Obligations.BuildMakesATree : Prop :=
  ∀ s : State, Memory.wf s → ∃ t, exec .build s = .next t ∧
    t = { s with
      node := t.node, nodes := t.nodes, leaves := t.leaves, root := t.root, heap := t.heap, treeValid := true
      code := List.replicate 257 CodeEntry.empty, tableValid := false, err := false, errcode := 0, busy := false } ∧
    WellFormedTree t ∧ BuildSymbols t ∧ Memory.wf t

/-- R171 and R177: the leaves, their order, symbols and weights, and their number; with the layout that R178 derives. -/
def Obligations.BuildLaysOutTheLeaves : Prop :=
  ∀ s : State, Memory.wf s → ∃ t : State, exec .build s = .next t ∧
    t.leaves.toNat = countedSymbols s + 1 ∧ t.nodes.toNat = 2 * countedSymbols s + 1 ∧
    t.root.toNat = 2 * countedSymbols s ∧
    (∀ k x : Nat, ((List.range 256).filter fun x => s.freq.getD x 0 ≠ 0)[k]? = some x →
      t.node[k]? = some (leafNode (BitVec.ofNat 9 x) ((s.freq.getD x 0).setWidth 40))) ∧
    t.node[countedSymbols s]? = some (leafNode 256 1) ∧
    ∀ (i : Nat) (r : Node), (usedRecords t)[i]? = some r →
      (r.leaf = true ↔ i < countedSymbols s + 1) ∧ (r.leaf = false → r.left.toNat < i ∧ r.right.toNat < i)

/-- R173 and R174: each internal record was made from the two indices with the least keys among those not merged before it,
the lesser one on the left, with the exact sum of their weights and SYM = 0. -/
def Obligations.BuildMergesTheTwoLeast : Prop :=
  ∀ s : State, Memory.wf s → ∃ t, exec .build s = .next t ∧
    ∀ (i : Nat) (r : Node), (usedRecords t)[i]? = some r → r.leaf = false →
      unmerged (usedRecords t) i r.left.toNat ∧ unmerged (usedRecords t) i r.right.toNat ∧
      keyBefore (usedRecords t) r.left.toNat r.right.toNat ∧
      (∀ j, unmerged (usedRecords t) i j → j = r.left.toNat ∨ keyBefore (usedRecords t) r.left.toNat j) ∧
      (∀ j, unmerged (usedRecords t) i j → j = r.left.toNat ∨ j = r.right.toNat ∨
        keyBefore (usedRecords t) r.right.toNat j) ∧
      r.weight.toNat =
        (weightAt (usedRecords t) r.left.toNat).toNat + (weightAt (usedRecords t) r.right.toNat).toNat ∧
      r.sym = 0

/-- The weights are exact: the root weighs 1 + Σ FREQ, which the 40 bits hold; no record weighs more, and none weighs 0
(R176). -/
def Obligations.BuildWeightsAreExact : Prop :=
  ∀ s : State, Memory.wf s → ∃ t, exec .build s = .next t ∧
    (weightAt (usedRecords t) t.root.toNat).toNat = 1 + freqTotal s ∧ 1 + freqTotal s < 2 ^ 40 ∧
    ∀ r ∈ usedRecords t, 0 < r.weight.toNat ∧ r.weight.toNat ≤ 1 + freqTotal s

/-- R179: BUILD is a function of FREQ alone. The node store is its records in use: no other holds a value (R45). -/
def Obligations.BuildDependsOnFreqAlone : Prop :=
  ∀ s u : State, Memory.wf s → Memory.wf u → u.freq = s.freq →
    ∃ t v, exec .build s = .next t ∧ exec .build u = .next v ∧
      usedRecords v = usedRecords t ∧ v.root = t.root ∧ v.nodes = t.nodes ∧ v.leaves = t.leaves

/-! ### SER, DES and the magic header (spec/42_tree_codec.md) -/

/-- R191: SER appends exactly T(ROOT) to OUT.bits, where no port call fails; nothing else changes but the answers it drew
(log entry 5). -/
def Obligations.SerWritesTheTree : Prop :=
  ∀ s : State, s.treeValid = true → WellFormedTree s → PortsSucceed s → s.out.closed = false →
    ∃ tr k, heldTree s = some tr ∧
      exec .ser s = .next (succeeded (afterCalls k { s with out := ⟨s.out.bits ++ tr.bits, false⟩ }))

/-- R192: the length of the serialized form. -/
def Obligations.SerializedLength : Prop :=
  ∀ (s : State) (tr : Sys2Proof.Machine.Tree), WellFormedTree s → heldTree s = some tr →
    tr.leafCount = s.leaves.toNat ∧ tr.bits.length = 10 * s.leaves.toNat + (s.leaves.toNat - 1) ∧
      tr.bits.length = 11 * s.leaves.toNat - 1 ∧ 10 ≤ tr.bits.length ∧ tr.bits.length ≤ 2826

/-- DES reads a serialized tree of at most 257 leaves and holds it; IN.pos is left just after it, and nothing else changes
(R193, R196). -/
def Obligations.DesReadsATree : Prop :=
  ∀ (s : State) (tr : Sys2Proof.Machine.Tree) (rest : BitString), Memory.wf s →
    remaining s = tr.bits ++ rest → tr.leafCount ≤ 257 →
    PortsSucceed s → ∃ t k, exec .des s = .next t ∧
      t = { afterCalls k s with
        inp := ⟨s.inp.bits, s.inp.pos + tr.bits.length⟩, node := t.node, nodes := t.nodes, leaves := t.leaves
        root := 0, code := List.replicate 257 CodeEntry.empty, treeValid := true, tableValid := false
        err := false, errcode := 0, busy := false } ∧
      heldTree t = some tr ∧ WellFormedTree t

/-- R194: a tree that DES has read is numbered in pre-order and weighs nothing. -/
def Obligations.DesNumbersInPreOrder : Prop :=
  ∀ s t : State, Memory.wf s → exec .des s = .next t → t.treeValid = true →
    t.root = 0 ∧ indicesAt Config.nodeCap t t.root = some (List.range t.nodes.toNat) ∧
      ∀ (i : Nat) (r : Node), (usedRecords t)[i]? = some r →
        r.weight = 0 ∧ (r.leaf = false → i < r.left.toNat ∧ i < r.right.toNat)

/-- R198: SER and DES are inverse to each other, (a) and (b). -/
def Obligations.SerAndDesAreInverse : Prop :=
  (∀ (s v : State) (S : BitString), s.treeValid = true → WellFormedTree s → PortsSucceed s → s.out.closed = false →
    exec .ser s = .next v → v.out.bits = s.out.bits ++ S →
    ∀ (u : State) (X : BitString), Memory.wf u → PortsSucceed u → u.inp = ⟨S ++ X, 0⟩ →
      ∃ t, exec .des u = .next t ∧ t.err = false ∧ t.treeValid = true ∧ t.inp = ⟨S ++ X, S.length⟩ ∧
        heldTree t = heldTree s ∧ (∀ r ∈ usedRecords t, r.weight = 0) ∧
        indicesAt Config.nodeCap t t.root = some (List.range t.nodes.toNat)) ∧
  ∀ u t : State, Memory.wf u → exec .des u = .next t → t.treeValid = true → PortsSucceed t → t.out.closed = false →
    ∃ v, exec .ser t = .next v ∧ v.err = false ∧
      v.out.bits = t.out.bits ++ (remaining u).take (t.inp.pos - u.inp.pos)

/-- A DES that fails leaves no tree and no table, has moved IN.pos forward at most, and changes neither OUT nor FREQ (R197).
Where IN ends inside a serialized tree, at most 513 of whose nodes were reached, and no call fails, it ends with E_EOS_TREE,
with IN.pos at the end and nothing else changed but the node store and the answers drawn (R193). -/
def Obligations.DesFailureLeavesNoTree : Prop :=
  (∀ s t : State, s.inp.pos ≤ s.inp.bits.length → exec .des s = .next t → t.err = true →
    t.nodes = 0 ∧ t.leaves = 0 ∧ t.root = 0 ∧ t.treeValid = false ∧ t.code = List.replicate 257 CodeEntry.empty ∧
      t.tableValid = false ∧ t.inp.bits = s.inp.bits ∧ s.inp.pos ≤ t.inp.pos ∧ t.inp.pos ≤ s.inp.bits.length ∧
      t.out = s.out ∧ t.freq = s.freq ∧ (t.errcode = 2 ∨ t.errcode = 5 ∨ t.errcode = 11)) ∧
  ∀ (s : State) (tr : Sys2Proof.Machine.Tree), Memory.wf s → PortsSucceed s → remaining s <+: tr.bits →
    remaining s ≠ tr.bits → tr.tagsIn (remaining s).length ≤ 513 →
    ∃ k store, exec .des s = .next (failedWith .eosTree { afterCalls k s with
      inp := ⟨s.inp.bits, s.inp.bits.length⟩, node := store, nodes := 0, leaves := 0, root := 0, treeValid := false
      code := List.replicate 257 CodeEntry.empty, tableValid := false })

/-- A serialized tree of more than 257 leaves, so of more than 513 nodes, ends DES with E_CAPACITY, before the tree is read to
its end; and so does any part of it, from its front, that holds a 514th tag bit: IN.pos is left just after that bit (R195). -/
def Obligations.DesRefusesOversizeTrees : Prop :=
  (∀ (s : State) (tr : Sys2Proof.Machine.Tree) (rest : BitString), Memory.wf s →
    remaining s = tr.bits ++ rest → 257 < tr.leafCount →
    PortsSucceed s → ∃ t, exec .des s = .next t ∧ t.err = true ∧ t.errcode = 5 ∧ t.treeValid = false ∧
      t.nodes = 0 ∧ t.leaves = 0 ∧ t.root = 0 ∧ s.inp.pos < t.inp.pos ∧ t.inp.pos < s.inp.pos + tr.bits.length) ∧
  ∀ (s : State) (tr : Sys2Proof.Machine.Tree) (q rest : BitString), Memory.wf s → PortsSucceed s →
    remaining s = q ++ rest → q <+: tr.bits → 513 < tr.tagsIn q.length →
    ∃ k store n, n < q.length ∧ tr.tagsIn n = 513 ∧ tr.tagsIn (n + 1) = 514 ∧
      exec .des s = .next (failedWith .capacity { afterCalls k s with
        inp := ⟨s.inp.bits, s.inp.pos + n + 1⟩, node := store, nodes := 0, leaves := 0, root := 0, treeValid := false
        code := List.replicate 257 CodeEntry.empty, tableValid := false })

/-- WMAGIC writes the 32 bits of MAGIC; RMAGIC accepts exactly the streams whose next 32 bits are those of MAGIC, and moves
past the bits it read, or to the end of a short stream. No port call fails (R199, R200). -/
def Obligations.MagicHeader : Prop :=
  ∀ s : State, PortsSucceed s →
    (s.out.closed = false → exec .wmagic s =
      .next (succeeded (afterCalls 1 { s with out := ⟨s.out.bits ++ bitsOf 32 Config.magic.toNat, false⟩ }))) ∧
    (32 ≤ (remaining s).length → (remaining s).take 32 = bitsOf 32 Config.magic.toNat → exec .rmagic s =
      .next (succeeded (afterCalls 1 { s with inp := ⟨s.inp.bits, s.inp.pos + 32⟩ }))) ∧
    (32 ≤ (remaining s).length → (remaining s).take 32 ≠ bitsOf 32 Config.magic.toNat → exec .rmagic s =
      .next (failedWith .magic (afterCalls 1 { s with inp := ⟨s.inp.bits, s.inp.pos + 32⟩ }))) ∧
    ((remaining s).length < 32 → exec .rmagic s =
      .next (failedWith .magic (afterCalls 1 { s with inp := ⟨s.inp.bits, s.inp.bits.length⟩ })))

/-! ### GENTAB (spec/43_code_table.md) -/

/-- GENTAB stores for each symbol the path of its last leaf in pre-order, length and number, and an empty entry for a symbol
that no leaf holds; it changes nothing else (R230 to R234). -/
def Obligations.GentabRecordsThePaths : Prop :=
  ∀ (s : State) (tr : Sys2Proof.Machine.Tree), s.treeValid = true → heldTree s = some tr → (∀ x ∈ tr.symbols, x ≤ 256) →
    exec .gentab s = .next (succeeded { s with code := (List.range 257).map tr.entry, tableValid := true })

/-- R235: a leaf symbol above 256 clears the whole table and raises E_SYM_RANGE. -/
def Obligations.GentabRefusesSymbolsAbove256 : Prop :=
  ∀ (s : State) (tr : Sys2Proof.Machine.Tree), s.treeValid = true → heldTree s = some tr → (∃ x ∈ tr.symbols, 256 < x) →
    exec .gentab s =
      .next (failedWith .symRange { s with code := List.replicate 257 CodeEntry.empty, tableValid := false })

/-- R237: after GENTAB has succeeded on a tree with distinct leaf symbols, no valid code is a prefix of another. -/
def Obligations.CodesArePrefixFree : Prop :=
  ∀ (s t : State) (tr : Sys2Proof.Machine.Tree), s.treeValid = true → heldTree s = some tr → tr.symbols.Nodup →
    exec .gentab s = .next t → t.err = false →
    ∀ a ≤ 256, ∀ b ≤ 256, a ≠ b → (readCode a t).valid = true → (readCode b t).valid = true →
      ¬ codeOf t a <+: codeOf t b

/-- R238: as many valid entries as leaves, none of length 0, and Σ 2^(-LEN) = 1 (both sides times 2^256); after BUILD the
valid entries are those of the counted symbols and of PSEUDO_EOF. -/
def Obligations.CodesAreComplete : Prop :=
  (∀ (s t : State) (tr : Sys2Proof.Machine.Tree), s.treeValid = true → heldTree s = some tr → tr.symbols.Nodup → 2 ≤ tr.leafCount →
    exec .gentab s = .next t → t.err = false →
    t.code.countP (·.valid) = tr.leafCount ∧ (∀ e ∈ t.code, e.valid = true → 1 ≤ e.len.toNat) ∧
      ((t.code.filter (·.valid)).map fun e => 2 ^ (256 - e.len.toNat)).sum = 2 ^ 256) ∧
  ∀ s u : State, Memory.wf s → exec .build s = .next u →
    ∃ t, exec .gentab u = .next t ∧ t.err = false ∧
      ∀ sym ≤ 256, (readCode sym t).valid = true ↔ sym = 256 ∨ s.freq.getD sym 0 ≠ 0

/-! ### ENC and ENCALL (spec/44_encoder.md) -/

/-- ENC appends the code of its symbol, in one write; a code of length 0 makes no port call, draws no answer, and succeeds on a
closed port (R250, R252). -/
def Obligations.EncEmitsTheCode : Prop :=
  ∀ (s : State) (sym : Nat), s.tableValid = true → sym ≤ 256 → (readCode sym s).valid = true →
    ((readCode sym s).len = 0 → exec (.enc sym) s = .next (succeeded s)) ∧
    ((readCode sym s).len ≠ 0 → s.out.closed = false → PortsSucceed s →
      exec (.enc sym) s =
        .next (succeeded (afterCalls 1 { s with out := ⟨s.out.bits ++ codeOf s sym, false⟩ })))

/-- R253: ENCALL appends the codes of the remaining bytes, in their order, and then the code of PSEUDO_EOF, whenever it
succeeds; and where every byte and PSEUDO_EOF have codes and no call fails, it does succeed. A tail of fewer than 8 bits is
consumed and not encoded (R251). OUT may be closed where there is nothing to write (R252). -/
def Obligations.EncallEncodesTheInput : Prop :=
  (∀ (s t : State) (bs : List (BitVec 8)), s.inp.pos ≤ s.inp.bits.length → remaining s = bitsOfBytes bs →
    NoResetInside s → exec .encall s = .next t → t.err = false →
    t.out.bits = s.out.bits ++ (bs.flatMap fun b => codeOf s b.toNat) ++ codeOf s 256) ∧
  ∀ (s : State) (bs : List (BitVec 8)) (tail : BitString), s.tableValid = true → s.inp.pos ≤ s.inp.bits.length →
    remaining s = bitsOfBytes bs ++ tail → tail.length < 8 → (∀ b ∈ bs, (readCode b.toNat s).valid = true) →
    (readCode 256 s).valid = true → PortsSucceed s → (s.out.closed = false ∨ (bs = [] ∧ (readCode 256 s).len = 0)) →
    ∃ k, exec .encall s = .next (succeeded (afterCalls k { s with
      inp := ⟨s.inp.bits, s.inp.bits.length⟩
      out := ⟨s.out.bits ++ (bs.flatMap fun b => codeOf s b.toNat) ++ codeOf s 256, s.out.closed⟩ }))

/-- A byte without a code ends ENCALL with E_NO_CODE; the codes written before it stay in OUT, and the byte is consumed. So
does PSEUDO_EOF without a code, after the last whole byte: the codes of all bytes stay in OUT, and IN is consumed, with a tail of
fewer than 8 bits (R251, R304). OUT may be closed where no code has a bit to write (R252). -/
def Obligations.EncallKeepsItsOutputOnError : Prop :=
  (∀ (s : State) (bs : List (BitVec 8)) (b : BitVec 8) (rest : BitString), s.tableValid = true →
    remaining s = bitsOfBytes bs ++ (bitsOf 8 b.toNat ++ rest) → (∀ c ∈ bs, (readCode c.toNat s).valid = true) →
    (readCode b.toNat s).valid = false → PortsSucceed s →
    (s.out.closed = false ∨ ∀ c ∈ bs, (readCode c.toNat s).len = 0) →
    ∃ k, exec .encall s = .next (failedWith .noCode (afterCalls k { s with
      inp := ⟨s.inp.bits, s.inp.pos + 8 * (bs.length + 1)⟩
      out := ⟨s.out.bits ++ (bs.flatMap fun c => codeOf s c.toNat), s.out.closed⟩ }))) ∧
  ∀ (s : State) (bs : List (BitVec 8)) (tail : BitString), s.tableValid = true →
    remaining s = bitsOfBytes bs ++ tail → tail.length < 8 → (∀ c ∈ bs, (readCode c.toNat s).valid = true) →
    (readCode 256 s).valid = false → PortsSucceed s →
    (s.out.closed = false ∨ ∀ c ∈ bs, (readCode c.toNat s).len = 0) →
    ∃ k, exec .encall s = .next (failedWith .noCode (afterCalls k { s with
      inp := ⟨s.inp.bits, s.inp.bits.length⟩
      out := ⟨s.out.bits ++ (bs.flatMap fun c => codeOf s c.toNat), s.out.closed⟩ }))

/-! ### DECODE (spec/45_decoder.md) -/

/-- DECODE walks the codes of symbols other than PSEUDO_EOF, writing the low 8 bits of each, and halts after the code of
PSEUDO_EOF with the bits behind it unread. CUR, which nothing observes, is left somewhere (R272, R273, R276). -/
def Obligations.DecodeWritesTheSymbols : Prop :=
  ∀ (s : State) (tr : Sys2Proof.Machine.Tree) (es : List (Nat × BitString)) (q rest : BitString), s.treeValid = true →
    heldTree s = some tr → tr.isLeaf = false → (∀ e ∈ es, e ∈ tr.paths ∧ e.1 ≠ 256) → (256, q) ∈ tr.paths →
    remaining s = es.flatMap Prod.snd ++ (q ++ rest) → PortsSucceed s → (s.out.closed = false ∨ es = []) →
    ∃ k c, exec .decode s = .next (succeeded (afterCalls k { s with
      inp := ⟨s.inp.bits, s.inp.pos + (es.flatMap Prod.snd).length + q.length⟩
      out := ⟨s.out.bits ++ es.flatMap fun e => bitsOf 8 (e.1 % 256), s.out.closed⟩, cur := c }))

/-- R271: a root that is a leaf is decided before any read: PSEUDO_EOF succeeds, any other symbol raises E_ROOT_LEAF. -/
def Obligations.DecodeOfALeafRoot : Prop :=
  ∀ (s : State) (x : Sym), s.treeValid = true → heldTree s = some (.leaf x) →
    (x.toNat = 256 → exec .decode s = .next (succeeded { s with cur := s.root })) ∧
      (x.toNat ≠ 256 → exec .decode s = .next (failedWith .rootLeaf { s with cur := s.root }))

/-- R274: where IN runs out, at the start of a code or inside one, DECODE raises E_EOS_BODY with IN.pos at the end; the bytes
written before stay. -/
def Obligations.DecodeMeetsTheEnd : Prop :=
  ∀ (s : State) (tr : Sys2Proof.Machine.Tree) (es : List (Nat × BitString)) (q : BitString) (e : Nat × BitString), s.treeValid = true →
    heldTree s = some tr → tr.isLeaf = false → (∀ f ∈ es, f ∈ tr.paths ∧ f.1 ≠ 256) → e ∈ tr.paths → q <+: e.2 →
    q ≠ e.2 → s.inp.pos ≤ s.inp.bits.length → remaining s = es.flatMap Prod.snd ++ q → PortsSucceed s →
    (s.out.closed = false ∨ es = []) →
    ∃ k c, exec .decode s = .next (failedWith .eosBody (afterCalls k { s with
      inp := ⟨s.inp.bits, s.inp.bits.length⟩
      out := ⟨s.out.bits ++ es.flatMap fun f => bitsOf 8 (f.1 % 256), s.out.closed⟩, cur := c }))

/-- The round trip of R275, as the commands that COMPRESS and DECOMPRESS issue after the host has written the counts and
attached the stream: every command succeeds and the bytes come back. The host's own lines are not part of it. -/
def Obligations.CompressThenDecompress : Prop :=
  ∀ (s : State) (X : List (BitVec 8)) (p : Nat), Memory.wf s → PortsSucceed s →
    (∀ x < 256, (s.freq.getD x 0).toNat = X.count (BitVec.ofNat 8 x)) → s.inp = ⟨bitsOfBytes X, p⟩ →
    s.out = ⟨[], false⟩ →
    ∃ t, runAll [.build, .rewind, .wmagic, .ser, .gentab, .encall, .close] s = some t ∧
      ∀ u : State, Memory.wf u → PortsSucceed u → u.inp = ⟨t.out.bits, 0⟩ → u.out = ⟨[], false⟩ →
        ∃ v, runAll [.rmagic, .des, .decode, .close] u = some v ∧ v.out.bits = bitsOfBytes X

/-! ### REWIND, CLOSE and the ports (spec/46_stream_control.md, spec/20_memory.md) -/

/-- REWIND and CLOSE, where their call does not fail and where it does; CLOSE on a closed port succeeds and makes no change
(R290, R291, R92, R95). Which of the two outcomes of a failed close an answer stands for is its number, 0 or not, the model's
choice (log entry 5); that CLOSE on a closed port draws no answer is DEDUCED from the order of R95's lines (log entry 16). -/
def Obligations.RewindAndClose : Prop :=
  ∀ (s : State) (as : List PortAnswer),
    (PortsSucceed s → exec .rewind s = .next (succeeded (afterCalls 1 { s with inp := ⟨s.inp.bits, 0⟩ }))) ∧
    (∀ k, s.answers = .fails k :: as → exec .rewind s = .next (failedWith .io { s with answers := as })) ∧
    (s.out.closed = true → exec .close s = .next (succeeded s)) ∧
    (s.out.closed = false → PortsSucceed s → exec .close s = .next (succeeded (afterCalls 1 { s with
      out := ⟨s.out.bits ++ zeros ((8 - s.out.bits.length % 8) % 8), true⟩ }))) ∧
    (s.out.closed = false → s.answers = .fails 0 :: as → exec .close s = .next (failedWith .io { s with answers := as })) ∧
    (∀ k, s.out.closed = false → s.answers = .fails (k + 1) :: as →
      exec .close s = .next (failedWith .io { s with
        answers := as, out := ⟨s.out.bits ++ zeros ((8 - s.out.bits.length % 8) % 8), true⟩ }))

/-- The draws of a failed call are those the spec allows, and each of them can be drawn: a failed read leaves IN.pos anywhere
from where it was to the end of IN (R91), a failed write appends any front part of its bits (R94). A failed call ends its
command with E_IO, whichever command and whichever of its calls, and no later call is made; and each command makes its first call
in the states in which it is reached, even a read that would have met the end of IN (R306 (3)). How an answer names the draw is
the model's choice (log entry 5). -/
def Obligations.FailedCallsDrawWhatTheyMay : Prop :=
  (∀ (s : State) (n v : Nat) (as : List PortAnswer), s.inp.pos ≤ s.inp.bits.length →
    (∀ p, s.inp.pos ≤ p → p ≤ s.inp.bits.length →
      ∃ k, readBits n { s with answers := .fails k :: as } =
        .ok .ioFail { s with answers := as, inp := ⟨s.inp.bits, p⟩ }) ∧
    (∀ k, ∃ p, s.inp.pos ≤ p ∧ p ≤ s.inp.bits.length ∧
      readBits n { s with answers := .fails k :: as } =
        .ok .ioFail { s with answers := as, inp := ⟨s.inp.bits, p⟩ }) ∧
    (s.out.closed = false →
      (∀ b, b <+: bitsOf n v → ∃ k, writeBits n v { s with answers := .fails k :: as } =
        .ok .ioFail { s with answers := as, out := ⟨s.out.bits ++ b, false⟩ }) ∧
      ∀ k, ∃ b, b <+: bitsOf n v ∧ writeBits n v { s with answers := .fails k :: as } =
        .ok .ioFail { s with answers := as, out := ⟨s.out.bits ++ b, false⟩ })) ∧
  (∀ (i : Instr) (s t : State) (pre post : List PortAnswer) (k : Nat),
    exec i { s with answers := pre ++ .fails k :: post } = .next t → t.answers.length ≤ post.length →
    t.err = true ∧ t.errcode = 11 ∧ t.answers = post) ∧
  ∀ (i : Instr) (s : State) (k : Nat) (as : List PortAnswer), firstCallReached i s → s.answers = .fails k :: as →
    ∃ t, exec i s = .next t ∧ t.err = true ∧ t.errcode = 11 ∧ t.answers = as

/-- A closed OUT never changes by a command, and every command that comes to write bits to it fails with E_IO at that write:
WMAGIC, SER and ENC at once, ENCALL at the first byte whose code has a bit (or at the code of PSEUDO_EOF), DECODE at the first
byte it has decoded, with what was read consumed (R94, R252, R291, R338 (e)). That such a write draws no answer is DEDUCED from
the order of R94's lines (log entry 16). -/
def Obligations.ClosedOutputRefusesWrites : Prop :=
  ∀ s : State, s.out.closed = true →
    (∀ i t, exec i s = .next t → t.out = s.out) ∧ exec .wmagic s = .next (failedWith .io s) ∧
    (∀ tr, s.treeValid = true → heldTree s = some tr → exec .ser s = .next (failedWith .io s)) ∧
    (∀ sym ≤ 256, s.tableValid = true → (readCode sym s).valid = true → (readCode sym s).len ≠ 0 →
      exec (.enc sym) s = .next (failedWith .io s)) ∧
    (∀ (bs : List (BitVec 8)) (b : BitVec 8) (rest : BitString), s.tableValid = true → PortsSucceed s →
      remaining s = bitsOfBytes bs ++ (bitsOf 8 b.toNat ++ rest) →
      (∀ c ∈ bs, (readCode c.toNat s).valid = true ∧ (readCode c.toNat s).len = 0) →
      (readCode b.toNat s).valid = true → (readCode b.toNat s).len ≠ 0 →
      ∃ k, exec .encall s = .next (failedWith .io (afterCalls k { s with
        inp := ⟨s.inp.bits, s.inp.pos + 8 * (bs.length + 1)⟩ }))) ∧
    (∀ (bs : List (BitVec 8)) (tail : BitString), s.tableValid = true → PortsSucceed s →
      remaining s = bitsOfBytes bs ++ tail → tail.length < 8 →
      (∀ c ∈ bs, (readCode c.toNat s).valid = true ∧ (readCode c.toNat s).len = 0) →
      (readCode 256 s).valid = true → (readCode 256 s).len ≠ 0 →
      ∃ k, exec .encall s = .next (failedWith .io (afterCalls k { s with inp := ⟨s.inp.bits, s.inp.bits.length⟩ }))) ∧
    ∀ (tr : Sys2Proof.Machine.Tree) (e : Nat × BitString) (rest : BitString), s.treeValid = true → PortsSucceed s →
      heldTree s = some tr → tr.isLeaf = false → e ∈ tr.paths → e.1 ≠ 256 → remaining s = e.2 ++ rest →
      ∃ k c, exec .decode s = .next (failedWith .io (afterCalls k { s with
        inp := ⟨s.inp.bits, s.inp.pos + e.2.length⟩, cur := c }))

/-- What the commands do to the ports, whatever the answers are, even cut by a reset: IN.bits stands, OUT.bits only grows, only
CLOSE closes OUT; the commands that do not read leave IN, those that do not write leave OUT (R30, R99, R304, R332). -/
def Obligations.PortsChangeOnlyAsStated : Prop :=
  ∀ (i : Instr) (s t : State), exec i s = .next t →
    t.inp.bits = s.inp.bits ∧ s.out.bits <+: t.out.bits ∧ (i ≠ .close → t.out.closed = s.out.closed) ∧
    (i ≠ .des → i ≠ .encall → i ≠ .decode → i ≠ .rmagic → i ≠ .rewind → t.inp = s.inp) ∧
    (i = .nop ∨ i = .clear ∨ i = .build ∨ i = .des ∨ i = .gentab ∨ i = .rmagic ∨ i = .rewind → t.out = s.out)

/-- R98: the host's stream actions. While BUSY = 1 the model has no such move, and refuses it by name (U14); no host access
moves IN.pos. That the host's actions are lines, and that what a take read goes into the model's own `hostOut`, are the model's
choices (log entries 3 and 7). -/
def Obligations.HostStreamActions : Prop :=
  ∀ s : State,
    (s.busy = false →
      (∀ b, hostLine (.attach b) s = .next { s with inp := ⟨b, 0⟩ }) ∧
      hostLine (.take false) s = .next { s with hostOut := s.out } ∧
      hostLine (.take true) s = .next { s with hostOut := s.out, out := ⟨[], false⟩ }) ∧
    (s.busy = true →
      (∀ b, hostLine (.attach b) s = .refused .hostStreamWhileBusy) ∧
      ∀ r, hostLine (.take r) s = .refused .hostStreamWhileBusy) ∧
    ∀ off v, (memWrite off v s).inp = s.inp ∧ (memWrite off v s).out = s.out ∧ (hostRead off s).inp = s.inp

/-- `wait` reads STATUS until BUSY reads 0, and the last part of `chk` stops the host program with ERRCODE where ERR is 1
(R129). The host's fields are the model's own (log entries 3 and 7). -/
def Obligations.WaitAndCheck : Prop :=
  ∀ (s : State) (rest : List HostLine), HostToMove s →
    (s.script = .wait :: rest → s.busy = false →
      step s = .next { passTurn s with script := rest, hostWord := statusWord s }) ∧
    (s.script = .wait :: rest → s.busy = true →
      ∃ w : Word, w.getLsbD 0 = true ∧ step s = .next { passTurn s with hostWord := w, draws := s.draws + 1 }) ∧
    (s.script = .stopIfErr :: rest → s.hostWord.getLsbD 1 = true →
      step s = .next { passTurn s with script := [], hostFail := some (s.hostWord.extractLsb' 4 4) }) ∧
    (s.script = .stopIfErr :: rest → s.hostWord.getLsbD 1 = false → step s = .next { passTurn s with script := rest })

/-! ### The whole machine -/

/-- The model's first state meets the invariant. -/
def Obligations.ResetMeetsTheInvariant : Prop := Inv State.reset

/-- Every step, of whichever agent, keeps the sizes of the arrays, ERR = 0 exactly when ERRCODE = 0, the codes 12 to 15 out of
ERRCODE, TABLE_VALID = 1 only with TREE_VALID = 1, the tree registers at 0 without a tree, PENDING present while BUSY = 1, the
CODE entries in the form of R48, IN.pos inside IN, and a closed OUT a whole number of bytes (R36 to R43, R48, R53, R97, R300). -/
def Obligations.RegistersKeepTheirInvariant : Prop :=
  ∀ s t : State, RegInv s → step s = .next t → RegInv t

/-- Every step keeps what TREE_VALID and TABLE_VALID promise: a tree that satisfies R47 (a) to (d), and a CODE table made from
that tree (R38, R47). -/
def Obligations.TreeAndTableKeepTheirPromise : Prop :=
  ∀ s t : State, Inv s → step s = .next t → TreeInv t ∧ TableInv t

/-- No command but CLEAR changes FREQ or DROP (R39, R180), none changes PENDING, and none changes what the host holds. That
PENDING keeps its word at completion is DEDUCED (log entry 13); the host's fields and the turns are the model's own (log entries 3,
4 and 7), and so is the count of draws (log entries 6 and 12). -/
def Obligations.CommandsKeepCountsAndHost : Prop :=
  ∀ (i : Instr) (s t : State), exec i s = .next t → NoResetInside s →
    t.pending = s.pending ∧ (i ≠ .clear → t.freq = s.freq ∧ t.drop = s.drop ∧ t.draws = s.draws) ∧
      t.script = s.script ∧ t.turns = s.turns ∧ t.hostWord = s.hostWord ∧ t.hostOut = s.hostOut ∧ t.hostFail = s.hostFail

/-- The frame of the commands that only read the tree and the table: every field stands but ERR, ERRCODE, BUSY, the ports, the
answers drawn, and CUR for DECODE alone (R190, R199, R200, R250, R251, R270, R290, R291). -/
def Obligations.StreamCommandsKeepTreeAndTable : Prop :=
  ∀ (i : Instr) (s t : State),
    i = .ser ∨ (∃ sym, i = .enc sym) ∨ i = .encall ∨ i = .decode ∨ i = .wmagic ∨ i = .rmagic ∨ i = .rewind ∨ i = .close →
    exec i s = .next t → NoResetInside s →
    t = { s with err := t.err, errcode := t.errcode, busy := false, cur := t.cur, inp := t.inp, out := t.out,
                 answers := t.answers } ∧
      (i ≠ .decode → t.cur = s.cur)

/-- What is unobservable stays unobservable: two states that differ only in records at or above NODES, in HEAP and in CUR give
the host the same words, and a step of either ends alike (R45, R46, R50, R51). -/
def Obligations.HiddenStateIsUnobservable : Prop :=
  ∀ s u : State, SameBlock s u →
    (∀ off, memRead off u = memRead off s) ∧
      ∀ t, step s = .next t → ∃ v, step u = .next v ∧ SameBlock t v
end

