-- ==== Sys2Proof/Laws/Bits.lean ====
section
/-! SUPPORT. Bit strings and their numbers (R9): lengths, bounds, and that the two conversions undo each other. -/

namespace Sys2Proof.Machine

@[simp] theorem num_nil : num [] = 0 := rfl

theorem num_foldl (p : BitString) (a : Nat) :
    p.foldl (fun a b => 2 * a + b.toNat) a = a * 2 ^ p.length + num p := by
  induction p generalizing a with
  | nil => simp [num]
  | cons b p ih =>
    simp only [num, List.foldl_cons, List.length_cons]
    rw [ih, ih (2 * 0 + b.toNat)]
    ring

theorem num_cons (b : Bool) (p : BitString) : num (b :: p) = b.toNat * 2 ^ p.length + num p := by
  have h := num_foldl p (2 * 0 + b.toNat)
  simpa [num] using h

theorem num_append (p q : BitString) : num (p ++ q) = num p * 2 ^ q.length + num q := by
  simp only [num, List.foldl_append]
  rw [num_foldl q]
  rfl

theorem num_lt (p : BitString) : num p < 2 ^ p.length := by
  induction p with
  | nil => simp
  | cons b p ih =>
    rw [num_cons, List.length_cons, Nat.pow_succ]
    cases b <;> simp <;> omega

@[simp] theorem bitsOf_length (n v : Nat) : (bitsOf n v).length = n := by
  induction n with
  | zero => rfl
  | succ n ih => simp [bitsOf, ih]

/-- `num(bits_N(v)) = v mod 2^N` (R9). -/
theorem num_bitsOf (n v : Nat) : num (bitsOf n v) = v % 2 ^ n := by
  induction n with
  | zero => simp [bitsOf, Nat.mod_one]
  | succ n ih =>
    rw [bitsOf, num_cons, ih, bitsOf_length, Nat.mod_pow_succ, Nat.testBit_eq_decide_div_mod_eq]
    rcases Nat.mod_two_eq_zero_or_one (v / 2 ^ n) with h | h <;> simp [h, Nat.add_comm]

theorem bitsOf_congr (n : Nat) {v w : Nat} (h : ∀ i < n, v.testBit i = w.testBit i) : bitsOf n v = bitsOf n w := by
  induction n with
  | zero => rfl
  | succ n ih => simp only [bitsOf, h n (by omega), ih fun i hi => h i (by omega)]

/-- Only the low `n` bits of a value are written (R94). -/
theorem bitsOf_mod (n v : Nat) : bitsOf n (v % 2 ^ n) = bitsOf n v :=
  bitsOf_congr n fun i hi => by simp [Nat.testBit_mod_two_pow, hi]

theorem bitsOf_num_append (p : BitString) (k : Nat) : bitsOf p.length (k * 2 ^ p.length + num p) = p := by
  induction p generalizing k with
  | nil => rfl
  | cons b p ih =>
    have hlt := num_lt p
    have hk : k * 2 ^ (p.length + 1) + num (b :: p) = (2 * k + b.toNat) * 2 ^ p.length + num p := by
      rw [num_cons]; ring
    rw [List.length_cons, hk, bitsOf, ih]
    congr 1
    rw [Nat.testBit_eq_decide_div_mod_eq, Nat.add_comm, Nat.add_mul_div_right _ _ (Nat.two_pow_pos _),
      Nat.div_eq_of_lt hlt]
    cases b <;> simp [Nat.add_mod]

/-- `bits_N(num(p)) = p` where N = len(p): writing a path's number writes the path (R232). -/
theorem bitsOf_num (p : BitString) : bitsOf p.length (num p) = p := by
  simpa using bitsOf_num_append p 0

/-- The path of the entry that stores a path (R232). -/
theorem pathEntry_path (p : BitString) (h : p.length ≤ 256) : (pathEntry p).path = p := by
  have hn : num p < 2 ^ 256 := lt_of_lt_of_le (num_lt p) (Nat.pow_le_pow_right (by decide) h)
  have hl : p.length % 512 = p.length := Nat.mod_eq_of_lt (by omega)
  simp only [CodeEntry.path, pathEntry, BitVec.toNat_ofNat]
  rw [Nat.mod_eq_of_lt hn, show 2 ^ 9 = 512 from rfl, hl, bitsOf_num]

theorem pathEntry_canonical (p : BitString) (h : p.length ≤ 256) : (pathEntry p).canonical := by
  have hn : num p < 2 ^ 256 := lt_of_lt_of_le (num_lt p) (Nat.pow_le_pow_right (by decide) h)
  refine ⟨by simp [pathEntry], ?_, ?_⟩
  · simp only [pathEntry, BitVec.toNat_ofNat, Config.codeMax]; omega
  · simp only [pathEntry, BitVec.toNat_ofNat]
    rw [Nat.mod_eq_of_lt hn, Nat.mod_eq_of_lt (by omega)]
    exact num_lt p

theorem empty_canonical : CodeEntry.empty.canonical := by
  refine ⟨fun _ => rfl, ?_, ?_⟩ <;> simp [CodeEntry.empty]

@[simp] theorem zeros_length (n : Nat) : (zeros n).length = n := by simp [zeros]

/-- A byte read back from its bits (R97). -/
theorem byte_of_bits (b : BitVec 8) : BitVec.ofNat 8 (num (bitsOf 8 b.toNat)) = b := by
  rw [num_bitsOf]
  apply BitVec.eq_of_toNat_eq
  simp only [BitVec.toNat_ofNat]
  omega

/-- After a close the length of OUT.bits is a multiple of 8 (R97). -/
theorem closedOut_length (o : OutPort) : (closedOut o).bits.length % 8 = 0 := by
  simp only [closedOut, List.length_append, zeros_length]
  omega

/-- A byte sequence has 8 bits a byte (R97). -/
@[simp] theorem bitsOfBytes_length (bs : List (BitVec 8)) : (bitsOfBytes bs).length = 8 * bs.length := by
  induction bs with
  | nil => rfl
  | cons b bs ih =>
    simp only [bitsOfBytes, List.flatMap_cons, List.length_append, bitsOf_length, List.length_cons] at ih ⊢
    omega

end Sys2Proof.Machine
end

