-- ==== Sys2Proof/Laws/State.lean ====
section
/-! SUPPORT. What each update of the state leaves in each field, one lemma per field per update, true by rfl. -/

namespace Sys2Proof.Machine

@[simp] theorem accept_busy (w : Word) (s : State) : (accept w s).busy = true := rfl
@[simp] theorem accept_err (w : Word) (s : State) : (accept w s).err = s.err := rfl
@[simp] theorem accept_treeValid (w : Word) (s : State) : (accept w s).treeValid = s.treeValid := rfl
@[simp] theorem accept_tableValid (w : Word) (s : State) : (accept w s).tableValid = s.tableValid := rfl
@[simp] theorem accept_errcode (w : Word) (s : State) : (accept w s).errcode = s.errcode := rfl
@[simp] theorem accept_drop (w : Word) (s : State) : (accept w s).drop = s.drop := rfl
@[simp] theorem accept_root (w : Word) (s : State) : (accept w s).root = s.root := rfl
@[simp] theorem accept_nodes (w : Word) (s : State) : (accept w s).nodes = s.nodes := rfl
@[simp] theorem accept_leaves (w : Word) (s : State) : (accept w s).leaves = s.leaves := rfl
@[simp] theorem accept_freq (w : Word) (s : State) : (accept w s).freq = s.freq := rfl
@[simp] theorem accept_node (w : Word) (s : State) : (accept w s).node = s.node := rfl
@[simp] theorem accept_code (w : Word) (s : State) : (accept w s).code = s.code := rfl
@[simp] theorem accept_heap (w : Word) (s : State) : (accept w s).heap = s.heap := rfl
@[simp] theorem accept_cur (w : Word) (s : State) : (accept w s).cur = s.cur := rfl
@[simp] theorem accept_pending (w : Word) (s : State) : (accept w s).pending = some w := rfl
@[simp] theorem accept_inp (w : Word) (s : State) : (accept w s).inp = s.inp := rfl
@[simp] theorem accept_out (w : Word) (s : State) : (accept w s).out = s.out := rfl
@[simp] theorem accept_script (w : Word) (s : State) : (accept w s).script = s.script := rfl
@[simp] theorem accept_turns (w : Word) (s : State) : (accept w s).turns = s.turns := rfl
@[simp] theorem accept_answers (w : Word) (s : State) : (accept w s).answers = s.answers := rfl
@[simp] theorem accept_hostWord (w : Word) (s : State) : (accept w s).hostWord = s.hostWord := rfl
@[simp] theorem accept_hostOut (w : Word) (s : State) : (accept w s).hostOut = s.hostOut := rfl
@[simp] theorem accept_hostFail (w : Word) (s : State) : (accept w s).hostFail = s.hostFail := rfl
@[simp] theorem accept_busyDrop (w : Word) (s : State) : (accept w s).busyDrop = false := rfl
@[simp] theorem accept_draws (w : Word) (s : State) : (accept w s).draws = s.draws := rfl

@[simp] theorem clearOutcome_busy (s : State) : (clearOutcome s).busy = s.busy := rfl
@[simp] theorem clearOutcome_err (s : State) : (clearOutcome s).err = false := rfl
@[simp] theorem clearOutcome_treeValid (s : State) : (clearOutcome s).treeValid = s.treeValid := rfl
@[simp] theorem clearOutcome_tableValid (s : State) : (clearOutcome s).tableValid = s.tableValid := rfl
@[simp] theorem clearOutcome_errcode (s : State) : (clearOutcome s).errcode = 0 := rfl
@[simp] theorem clearOutcome_drop (s : State) : (clearOutcome s).drop = s.drop := rfl
@[simp] theorem clearOutcome_root (s : State) : (clearOutcome s).root = s.root := rfl
@[simp] theorem clearOutcome_nodes (s : State) : (clearOutcome s).nodes = s.nodes := rfl
@[simp] theorem clearOutcome_leaves (s : State) : (clearOutcome s).leaves = s.leaves := rfl
@[simp] theorem clearOutcome_freq (s : State) : (clearOutcome s).freq = s.freq := rfl
@[simp] theorem clearOutcome_node (s : State) : (clearOutcome s).node = s.node := rfl
@[simp] theorem clearOutcome_code (s : State) : (clearOutcome s).code = s.code := rfl
@[simp] theorem clearOutcome_heap (s : State) : (clearOutcome s).heap = s.heap := rfl
@[simp] theorem clearOutcome_cur (s : State) : (clearOutcome s).cur = s.cur := rfl
@[simp] theorem clearOutcome_pending (s : State) : (clearOutcome s).pending = s.pending := rfl
@[simp] theorem clearOutcome_inp (s : State) : (clearOutcome s).inp = s.inp := rfl
@[simp] theorem clearOutcome_out (s : State) : (clearOutcome s).out = s.out := rfl
@[simp] theorem clearOutcome_script (s : State) : (clearOutcome s).script = s.script := rfl
@[simp] theorem clearOutcome_turns (s : State) : (clearOutcome s).turns = s.turns := rfl
@[simp] theorem clearOutcome_answers (s : State) : (clearOutcome s).answers = s.answers := rfl
@[simp] theorem clearOutcome_hostWord (s : State) : (clearOutcome s).hostWord = s.hostWord := rfl
@[simp] theorem clearOutcome_hostOut (s : State) : (clearOutcome s).hostOut = s.hostOut := rfl
@[simp] theorem clearOutcome_hostFail (s : State) : (clearOutcome s).hostFail = s.hostFail := rfl
@[simp] theorem clearOutcome_busyDrop (s : State) : (clearOutcome s).busyDrop = s.busyDrop := rfl
@[simp] theorem clearOutcome_draws (s : State) : (clearOutcome s).draws = s.draws := rfl

@[simp] theorem done_busy (s : State) : (done s).busy = false := rfl
@[simp] theorem done_err (s : State) : (done s).err = s.err := rfl
@[simp] theorem done_treeValid (s : State) : (done s).treeValid = s.treeValid := rfl
@[simp] theorem done_tableValid (s : State) : (done s).tableValid = s.tableValid := rfl
@[simp] theorem done_errcode (s : State) : (done s).errcode = s.errcode := rfl
@[simp] theorem done_drop (s : State) : (done s).drop = s.drop := rfl
@[simp] theorem done_root (s : State) : (done s).root = s.root := rfl
@[simp] theorem done_nodes (s : State) : (done s).nodes = s.nodes := rfl
@[simp] theorem done_leaves (s : State) : (done s).leaves = s.leaves := rfl
@[simp] theorem done_freq (s : State) : (done s).freq = s.freq := rfl
@[simp] theorem done_node (s : State) : (done s).node = s.node := rfl
@[simp] theorem done_code (s : State) : (done s).code = s.code := rfl
@[simp] theorem done_heap (s : State) : (done s).heap = s.heap := rfl
@[simp] theorem done_cur (s : State) : (done s).cur = s.cur := rfl
@[simp] theorem done_pending (s : State) : (done s).pending = s.pending := rfl
@[simp] theorem done_inp (s : State) : (done s).inp = s.inp := rfl
@[simp] theorem done_out (s : State) : (done s).out = s.out := rfl
@[simp] theorem done_script (s : State) : (done s).script = s.script := rfl
@[simp] theorem done_turns (s : State) : (done s).turns = s.turns := rfl
@[simp] theorem done_answers (s : State) : (done s).answers = s.answers := rfl
@[simp] theorem done_hostWord (s : State) : (done s).hostWord = s.hostWord := rfl
@[simp] theorem done_hostOut (s : State) : (done s).hostOut = s.hostOut := rfl
@[simp] theorem done_hostFail (s : State) : (done s).hostFail = s.hostFail := rfl
@[simp] theorem done_busyDrop (s : State) : (done s).busyDrop = s.busyDrop := rfl
@[simp] theorem done_draws (s : State) : (done s).draws = s.draws := rfl

@[simp] theorem raiseError_busy (e : ErrCode) (s : State) : (raiseError e s).busy = false := rfl
@[simp] theorem raiseError_err (e : ErrCode) (s : State) : (raiseError e s).err = true := rfl
@[simp] theorem raiseError_treeValid (e : ErrCode) (s : State) : (raiseError e s).treeValid = s.treeValid := rfl
@[simp] theorem raiseError_tableValid (e : ErrCode) (s : State) : (raiseError e s).tableValid = s.tableValid := rfl
@[simp] theorem raiseError_errcode (e : ErrCode) (s : State) : (raiseError e s).errcode = errNumber e := rfl
@[simp] theorem raiseError_drop (e : ErrCode) (s : State) : (raiseError e s).drop = s.drop := rfl
@[simp] theorem raiseError_root (e : ErrCode) (s : State) : (raiseError e s).root = s.root := rfl
@[simp] theorem raiseError_nodes (e : ErrCode) (s : State) : (raiseError e s).nodes = s.nodes := rfl
@[simp] theorem raiseError_leaves (e : ErrCode) (s : State) : (raiseError e s).leaves = s.leaves := rfl
@[simp] theorem raiseError_freq (e : ErrCode) (s : State) : (raiseError e s).freq = s.freq := rfl
@[simp] theorem raiseError_node (e : ErrCode) (s : State) : (raiseError e s).node = s.node := rfl
@[simp] theorem raiseError_code (e : ErrCode) (s : State) : (raiseError e s).code = s.code := rfl
@[simp] theorem raiseError_heap (e : ErrCode) (s : State) : (raiseError e s).heap = s.heap := rfl
@[simp] theorem raiseError_cur (e : ErrCode) (s : State) : (raiseError e s).cur = s.cur := rfl
@[simp] theorem raiseError_pending (e : ErrCode) (s : State) : (raiseError e s).pending = s.pending := rfl
@[simp] theorem raiseError_inp (e : ErrCode) (s : State) : (raiseError e s).inp = s.inp := rfl
@[simp] theorem raiseError_out (e : ErrCode) (s : State) : (raiseError e s).out = s.out := rfl
@[simp] theorem raiseError_script (e : ErrCode) (s : State) : (raiseError e s).script = s.script := rfl
@[simp] theorem raiseError_turns (e : ErrCode) (s : State) : (raiseError e s).turns = s.turns := rfl
@[simp] theorem raiseError_answers (e : ErrCode) (s : State) : (raiseError e s).answers = s.answers := rfl
@[simp] theorem raiseError_hostWord (e : ErrCode) (s : State) : (raiseError e s).hostWord = s.hostWord := rfl
@[simp] theorem raiseError_hostOut (e : ErrCode) (s : State) : (raiseError e s).hostOut = s.hostOut := rfl
@[simp] theorem raiseError_hostFail (e : ErrCode) (s : State) : (raiseError e s).hostFail = s.hostFail := rfl
@[simp] theorem raiseError_busyDrop (e : ErrCode) (s : State) : (raiseError e s).busyDrop = s.busyDrop := rfl
@[simp] theorem raiseError_draws (e : ErrCode) (s : State) : (raiseError e s).draws = s.draws := rfl

@[simp] theorem setDrop_busy (s : State) : (setDrop s).busy = s.busy := rfl
@[simp] theorem setDrop_err (s : State) : (setDrop s).err = s.err := rfl
@[simp] theorem setDrop_treeValid (s : State) : (setDrop s).treeValid = s.treeValid := rfl
@[simp] theorem setDrop_tableValid (s : State) : (setDrop s).tableValid = s.tableValid := rfl
@[simp] theorem setDrop_errcode (s : State) : (setDrop s).errcode = s.errcode := rfl
@[simp] theorem setDrop_drop (s : State) : (setDrop s).drop = true := rfl
@[simp] theorem setDrop_root (s : State) : (setDrop s).root = s.root := rfl
@[simp] theorem setDrop_nodes (s : State) : (setDrop s).nodes = s.nodes := rfl
@[simp] theorem setDrop_leaves (s : State) : (setDrop s).leaves = s.leaves := rfl
@[simp] theorem setDrop_freq (s : State) : (setDrop s).freq = s.freq := rfl
@[simp] theorem setDrop_node (s : State) : (setDrop s).node = s.node := rfl
@[simp] theorem setDrop_code (s : State) : (setDrop s).code = s.code := rfl
@[simp] theorem setDrop_heap (s : State) : (setDrop s).heap = s.heap := rfl
@[simp] theorem setDrop_cur (s : State) : (setDrop s).cur = s.cur := rfl
@[simp] theorem setDrop_pending (s : State) : (setDrop s).pending = s.pending := rfl
@[simp] theorem setDrop_inp (s : State) : (setDrop s).inp = s.inp := rfl
@[simp] theorem setDrop_out (s : State) : (setDrop s).out = s.out := rfl
@[simp] theorem setDrop_script (s : State) : (setDrop s).script = s.script := rfl
@[simp] theorem setDrop_turns (s : State) : (setDrop s).turns = s.turns := rfl
@[simp] theorem setDrop_answers (s : State) : (setDrop s).answers = s.answers := rfl
@[simp] theorem setDrop_hostWord (s : State) : (setDrop s).hostWord = s.hostWord := rfl
@[simp] theorem setDrop_hostOut (s : State) : (setDrop s).hostOut = s.hostOut := rfl
@[simp] theorem setDrop_hostFail (s : State) : (setDrop s).hostFail = s.hostFail := rfl
@[simp] theorem setDrop_busyDrop (s : State) : (setDrop s).busyDrop = true := rfl
@[simp] theorem setDrop_draws (s : State) : (setDrop s).draws = s.draws := rfl

@[simp] theorem dropAnswer_busy (s : State) : (dropAnswer s).busy = s.busy := rfl
@[simp] theorem dropAnswer_err (s : State) : (dropAnswer s).err = s.err := rfl
@[simp] theorem dropAnswer_treeValid (s : State) : (dropAnswer s).treeValid = s.treeValid := rfl
@[simp] theorem dropAnswer_tableValid (s : State) : (dropAnswer s).tableValid = s.tableValid := rfl
@[simp] theorem dropAnswer_errcode (s : State) : (dropAnswer s).errcode = s.errcode := rfl
@[simp] theorem dropAnswer_drop (s : State) : (dropAnswer s).drop = s.drop := rfl
@[simp] theorem dropAnswer_root (s : State) : (dropAnswer s).root = s.root := rfl
@[simp] theorem dropAnswer_nodes (s : State) : (dropAnswer s).nodes = s.nodes := rfl
@[simp] theorem dropAnswer_leaves (s : State) : (dropAnswer s).leaves = s.leaves := rfl
@[simp] theorem dropAnswer_freq (s : State) : (dropAnswer s).freq = s.freq := rfl
@[simp] theorem dropAnswer_node (s : State) : (dropAnswer s).node = s.node := rfl
@[simp] theorem dropAnswer_code (s : State) : (dropAnswer s).code = s.code := rfl
@[simp] theorem dropAnswer_heap (s : State) : (dropAnswer s).heap = s.heap := rfl
@[simp] theorem dropAnswer_cur (s : State) : (dropAnswer s).cur = s.cur := rfl
@[simp] theorem dropAnswer_pending (s : State) : (dropAnswer s).pending = s.pending := rfl
@[simp] theorem dropAnswer_inp (s : State) : (dropAnswer s).inp = s.inp := rfl
@[simp] theorem dropAnswer_out (s : State) : (dropAnswer s).out = s.out := rfl
@[simp] theorem dropAnswer_script (s : State) : (dropAnswer s).script = s.script := rfl
@[simp] theorem dropAnswer_turns (s : State) : (dropAnswer s).turns = s.turns := rfl
@[simp] theorem dropAnswer_answers (s : State) : (dropAnswer s).answers = s.answers.tail := rfl
@[simp] theorem dropAnswer_hostWord (s : State) : (dropAnswer s).hostWord = s.hostWord := rfl
@[simp] theorem dropAnswer_hostOut (s : State) : (dropAnswer s).hostOut = s.hostOut := rfl
@[simp] theorem dropAnswer_hostFail (s : State) : (dropAnswer s).hostFail = s.hostFail := rfl
@[simp] theorem dropAnswer_busyDrop (s : State) : (dropAnswer s).busyDrop = s.busyDrop := rfl
@[simp] theorem dropAnswer_draws (s : State) : (dropAnswer s).draws = s.draws := rfl

@[simp] theorem moveIn_busy (p : Nat) (s : State) : (moveIn p s).busy = s.busy := rfl
@[simp] theorem moveIn_err (p : Nat) (s : State) : (moveIn p s).err = s.err := rfl
@[simp] theorem moveIn_treeValid (p : Nat) (s : State) : (moveIn p s).treeValid = s.treeValid := rfl
@[simp] theorem moveIn_tableValid (p : Nat) (s : State) : (moveIn p s).tableValid = s.tableValid := rfl
@[simp] theorem moveIn_errcode (p : Nat) (s : State) : (moveIn p s).errcode = s.errcode := rfl
@[simp] theorem moveIn_drop (p : Nat) (s : State) : (moveIn p s).drop = s.drop := rfl
@[simp] theorem moveIn_root (p : Nat) (s : State) : (moveIn p s).root = s.root := rfl
@[simp] theorem moveIn_nodes (p : Nat) (s : State) : (moveIn p s).nodes = s.nodes := rfl
@[simp] theorem moveIn_leaves (p : Nat) (s : State) : (moveIn p s).leaves = s.leaves := rfl
@[simp] theorem moveIn_freq (p : Nat) (s : State) : (moveIn p s).freq = s.freq := rfl
@[simp] theorem moveIn_node (p : Nat) (s : State) : (moveIn p s).node = s.node := rfl
@[simp] theorem moveIn_code (p : Nat) (s : State) : (moveIn p s).code = s.code := rfl
@[simp] theorem moveIn_heap (p : Nat) (s : State) : (moveIn p s).heap = s.heap := rfl
@[simp] theorem moveIn_cur (p : Nat) (s : State) : (moveIn p s).cur = s.cur := rfl
@[simp] theorem moveIn_pending (p : Nat) (s : State) : (moveIn p s).pending = s.pending := rfl
@[simp] theorem moveIn_inp (p : Nat) (s : State) : (moveIn p s).inp = { s.inp with pos := p } := rfl
@[simp] theorem moveIn_out (p : Nat) (s : State) : (moveIn p s).out = s.out := rfl
@[simp] theorem moveIn_script (p : Nat) (s : State) : (moveIn p s).script = s.script := rfl
@[simp] theorem moveIn_turns (p : Nat) (s : State) : (moveIn p s).turns = s.turns := rfl
@[simp] theorem moveIn_answers (p : Nat) (s : State) : (moveIn p s).answers = s.answers := rfl
@[simp] theorem moveIn_hostWord (p : Nat) (s : State) : (moveIn p s).hostWord = s.hostWord := rfl
@[simp] theorem moveIn_hostOut (p : Nat) (s : State) : (moveIn p s).hostOut = s.hostOut := rfl
@[simp] theorem moveIn_hostFail (p : Nat) (s : State) : (moveIn p s).hostFail = s.hostFail := rfl
@[simp] theorem moveIn_busyDrop (p : Nat) (s : State) : (moveIn p s).busyDrop = s.busyDrop := rfl
@[simp] theorem moveIn_draws (p : Nat) (s : State) : (moveIn p s).draws = s.draws := rfl

@[simp] theorem appendOut_busy (b : BitString) (s : State) : (appendOut b s).busy = s.busy := rfl
@[simp] theorem appendOut_err (b : BitString) (s : State) : (appendOut b s).err = s.err := rfl
@[simp] theorem appendOut_treeValid (b : BitString) (s : State) : (appendOut b s).treeValid = s.treeValid := rfl
@[simp] theorem appendOut_tableValid (b : BitString) (s : State) : (appendOut b s).tableValid = s.tableValid := rfl
@[simp] theorem appendOut_errcode (b : BitString) (s : State) : (appendOut b s).errcode = s.errcode := rfl
@[simp] theorem appendOut_drop (b : BitString) (s : State) : (appendOut b s).drop = s.drop := rfl
@[simp] theorem appendOut_root (b : BitString) (s : State) : (appendOut b s).root = s.root := rfl
@[simp] theorem appendOut_nodes (b : BitString) (s : State) : (appendOut b s).nodes = s.nodes := rfl
@[simp] theorem appendOut_leaves (b : BitString) (s : State) : (appendOut b s).leaves = s.leaves := rfl
@[simp] theorem appendOut_freq (b : BitString) (s : State) : (appendOut b s).freq = s.freq := rfl
@[simp] theorem appendOut_node (b : BitString) (s : State) : (appendOut b s).node = s.node := rfl
@[simp] theorem appendOut_code (b : BitString) (s : State) : (appendOut b s).code = s.code := rfl
@[simp] theorem appendOut_heap (b : BitString) (s : State) : (appendOut b s).heap = s.heap := rfl
@[simp] theorem appendOut_cur (b : BitString) (s : State) : (appendOut b s).cur = s.cur := rfl
@[simp] theorem appendOut_pending (b : BitString) (s : State) : (appendOut b s).pending = s.pending := rfl
@[simp] theorem appendOut_inp (b : BitString) (s : State) : (appendOut b s).inp = s.inp := rfl
@[simp] theorem appendOut_out (b : BitString) (s : State) : (appendOut b s).out = { s.out with bits := s.out.bits ++ b } := rfl
@[simp] theorem appendOut_script (b : BitString) (s : State) : (appendOut b s).script = s.script := rfl
@[simp] theorem appendOut_turns (b : BitString) (s : State) : (appendOut b s).turns = s.turns := rfl
@[simp] theorem appendOut_answers (b : BitString) (s : State) : (appendOut b s).answers = s.answers := rfl
@[simp] theorem appendOut_hostWord (b : BitString) (s : State) : (appendOut b s).hostWord = s.hostWord := rfl
@[simp] theorem appendOut_hostOut (b : BitString) (s : State) : (appendOut b s).hostOut = s.hostOut := rfl
@[simp] theorem appendOut_hostFail (b : BitString) (s : State) : (appendOut b s).hostFail = s.hostFail := rfl
@[simp] theorem appendOut_busyDrop (b : BitString) (s : State) : (appendOut b s).busyDrop = s.busyDrop := rfl
@[simp] theorem appendOut_draws (b : BitString) (s : State) : (appendOut b s).draws = s.draws := rfl

@[simp] theorem finishOut_busy (s : State) : (finishOut s).busy = s.busy := rfl
@[simp] theorem finishOut_err (s : State) : (finishOut s).err = s.err := rfl
@[simp] theorem finishOut_treeValid (s : State) : (finishOut s).treeValid = s.treeValid := rfl
@[simp] theorem finishOut_tableValid (s : State) : (finishOut s).tableValid = s.tableValid := rfl
@[simp] theorem finishOut_errcode (s : State) : (finishOut s).errcode = s.errcode := rfl
@[simp] theorem finishOut_drop (s : State) : (finishOut s).drop = s.drop := rfl
@[simp] theorem finishOut_root (s : State) : (finishOut s).root = s.root := rfl
@[simp] theorem finishOut_nodes (s : State) : (finishOut s).nodes = s.nodes := rfl
@[simp] theorem finishOut_leaves (s : State) : (finishOut s).leaves = s.leaves := rfl
@[simp] theorem finishOut_freq (s : State) : (finishOut s).freq = s.freq := rfl
@[simp] theorem finishOut_node (s : State) : (finishOut s).node = s.node := rfl
@[simp] theorem finishOut_code (s : State) : (finishOut s).code = s.code := rfl
@[simp] theorem finishOut_heap (s : State) : (finishOut s).heap = s.heap := rfl
@[simp] theorem finishOut_cur (s : State) : (finishOut s).cur = s.cur := rfl
@[simp] theorem finishOut_pending (s : State) : (finishOut s).pending = s.pending := rfl
@[simp] theorem finishOut_inp (s : State) : (finishOut s).inp = s.inp := rfl
@[simp] theorem finishOut_out (s : State) : (finishOut s).out = closedOut s.out := rfl
@[simp] theorem finishOut_script (s : State) : (finishOut s).script = s.script := rfl
@[simp] theorem finishOut_turns (s : State) : (finishOut s).turns = s.turns := rfl
@[simp] theorem finishOut_answers (s : State) : (finishOut s).answers = s.answers := rfl
@[simp] theorem finishOut_hostWord (s : State) : (finishOut s).hostWord = s.hostWord := rfl
@[simp] theorem finishOut_hostOut (s : State) : (finishOut s).hostOut = s.hostOut := rfl
@[simp] theorem finishOut_hostFail (s : State) : (finishOut s).hostFail = s.hostFail := rfl
@[simp] theorem finishOut_busyDrop (s : State) : (finishOut s).busyDrop = s.busyDrop := rfl
@[simp] theorem finishOut_draws (s : State) : (finishOut s).draws = s.draws := rfl

@[simp] theorem writeFreq_busy (i : Nat) (v : Word) (s : State) : (writeFreq i v s).busy = s.busy := rfl
@[simp] theorem writeFreq_err (i : Nat) (v : Word) (s : State) : (writeFreq i v s).err = s.err := rfl
@[simp] theorem writeFreq_treeValid (i : Nat) (v : Word) (s : State) : (writeFreq i v s).treeValid = s.treeValid := rfl
@[simp] theorem writeFreq_tableValid (i : Nat) (v : Word) (s : State) : (writeFreq i v s).tableValid = s.tableValid := rfl
@[simp] theorem writeFreq_errcode (i : Nat) (v : Word) (s : State) : (writeFreq i v s).errcode = s.errcode := rfl
@[simp] theorem writeFreq_drop (i : Nat) (v : Word) (s : State) : (writeFreq i v s).drop = s.drop := rfl
@[simp] theorem writeFreq_root (i : Nat) (v : Word) (s : State) : (writeFreq i v s).root = s.root := rfl
@[simp] theorem writeFreq_nodes (i : Nat) (v : Word) (s : State) : (writeFreq i v s).nodes = s.nodes := rfl
@[simp] theorem writeFreq_leaves (i : Nat) (v : Word) (s : State) : (writeFreq i v s).leaves = s.leaves := rfl
@[simp] theorem writeFreq_freq (i : Nat) (v : Word) (s : State) : (writeFreq i v s).freq = s.freq.set i v := rfl
@[simp] theorem writeFreq_node (i : Nat) (v : Word) (s : State) : (writeFreq i v s).node = s.node := rfl
@[simp] theorem writeFreq_code (i : Nat) (v : Word) (s : State) : (writeFreq i v s).code = s.code := rfl
@[simp] theorem writeFreq_heap (i : Nat) (v : Word) (s : State) : (writeFreq i v s).heap = s.heap := rfl
@[simp] theorem writeFreq_cur (i : Nat) (v : Word) (s : State) : (writeFreq i v s).cur = s.cur := rfl
@[simp] theorem writeFreq_pending (i : Nat) (v : Word) (s : State) : (writeFreq i v s).pending = s.pending := rfl
@[simp] theorem writeFreq_inp (i : Nat) (v : Word) (s : State) : (writeFreq i v s).inp = s.inp := rfl
@[simp] theorem writeFreq_out (i : Nat) (v : Word) (s : State) : (writeFreq i v s).out = s.out := rfl
@[simp] theorem writeFreq_script (i : Nat) (v : Word) (s : State) : (writeFreq i v s).script = s.script := rfl
@[simp] theorem writeFreq_turns (i : Nat) (v : Word) (s : State) : (writeFreq i v s).turns = s.turns := rfl
@[simp] theorem writeFreq_answers (i : Nat) (v : Word) (s : State) : (writeFreq i v s).answers = s.answers := rfl
@[simp] theorem writeFreq_hostWord (i : Nat) (v : Word) (s : State) : (writeFreq i v s).hostWord = s.hostWord := rfl
@[simp] theorem writeFreq_hostOut (i : Nat) (v : Word) (s : State) : (writeFreq i v s).hostOut = s.hostOut := rfl
@[simp] theorem writeFreq_hostFail (i : Nat) (v : Word) (s : State) : (writeFreq i v s).hostFail = s.hostFail := rfl
@[simp] theorem writeFreq_busyDrop (i : Nat) (v : Word) (s : State) : (writeFreq i v s).busyDrop = s.busyDrop := rfl
@[simp] theorem writeFreq_draws (i : Nat) (v : Word) (s : State) : (writeFreq i v s).draws = s.draws := rfl

@[simp] theorem writeCode_busy (i : Nat) (c : CodeEntry) (s : State) : (writeCode i c s).busy = s.busy := rfl
@[simp] theorem writeCode_err (i : Nat) (c : CodeEntry) (s : State) : (writeCode i c s).err = s.err := rfl
@[simp] theorem writeCode_treeValid (i : Nat) (c : CodeEntry) (s : State) : (writeCode i c s).treeValid = s.treeValid := rfl
@[simp] theorem writeCode_tableValid (i : Nat) (c : CodeEntry) (s : State) : (writeCode i c s).tableValid = s.tableValid := rfl
@[simp] theorem writeCode_errcode (i : Nat) (c : CodeEntry) (s : State) : (writeCode i c s).errcode = s.errcode := rfl
@[simp] theorem writeCode_drop (i : Nat) (c : CodeEntry) (s : State) : (writeCode i c s).drop = s.drop := rfl
@[simp] theorem writeCode_root (i : Nat) (c : CodeEntry) (s : State) : (writeCode i c s).root = s.root := rfl
@[simp] theorem writeCode_nodes (i : Nat) (c : CodeEntry) (s : State) : (writeCode i c s).nodes = s.nodes := rfl
@[simp] theorem writeCode_leaves (i : Nat) (c : CodeEntry) (s : State) : (writeCode i c s).leaves = s.leaves := rfl
@[simp] theorem writeCode_freq (i : Nat) (c : CodeEntry) (s : State) : (writeCode i c s).freq = s.freq := rfl
@[simp] theorem writeCode_node (i : Nat) (c : CodeEntry) (s : State) : (writeCode i c s).node = s.node := rfl
@[simp] theorem writeCode_code (i : Nat) (c : CodeEntry) (s : State) : (writeCode i c s).code = s.code.set i c := rfl
@[simp] theorem writeCode_heap (i : Nat) (c : CodeEntry) (s : State) : (writeCode i c s).heap = s.heap := rfl
@[simp] theorem writeCode_cur (i : Nat) (c : CodeEntry) (s : State) : (writeCode i c s).cur = s.cur := rfl
@[simp] theorem writeCode_pending (i : Nat) (c : CodeEntry) (s : State) : (writeCode i c s).pending = s.pending := rfl
@[simp] theorem writeCode_inp (i : Nat) (c : CodeEntry) (s : State) : (writeCode i c s).inp = s.inp := rfl
@[simp] theorem writeCode_out (i : Nat) (c : CodeEntry) (s : State) : (writeCode i c s).out = s.out := rfl
@[simp] theorem writeCode_script (i : Nat) (c : CodeEntry) (s : State) : (writeCode i c s).script = s.script := rfl
@[simp] theorem writeCode_turns (i : Nat) (c : CodeEntry) (s : State) : (writeCode i c s).turns = s.turns := rfl
@[simp] theorem writeCode_answers (i : Nat) (c : CodeEntry) (s : State) : (writeCode i c s).answers = s.answers := rfl
@[simp] theorem writeCode_hostWord (i : Nat) (c : CodeEntry) (s : State) : (writeCode i c s).hostWord = s.hostWord := rfl
@[simp] theorem writeCode_hostOut (i : Nat) (c : CodeEntry) (s : State) : (writeCode i c s).hostOut = s.hostOut := rfl
@[simp] theorem writeCode_hostFail (i : Nat) (c : CodeEntry) (s : State) : (writeCode i c s).hostFail = s.hostFail := rfl
@[simp] theorem writeCode_busyDrop (i : Nat) (c : CodeEntry) (s : State) : (writeCode i c s).busyDrop = s.busyDrop := rfl
@[simp] theorem writeCode_draws (i : Nat) (c : CodeEntry) (s : State) : (writeCode i c s).draws = s.draws := rfl

@[simp] theorem clearTable_busy (s : State) : (clearTable s).busy = s.busy := rfl
@[simp] theorem clearTable_err (s : State) : (clearTable s).err = s.err := rfl
@[simp] theorem clearTable_treeValid (s : State) : (clearTable s).treeValid = s.treeValid := rfl
@[simp] theorem clearTable_tableValid (s : State) : (clearTable s).tableValid = false := rfl
@[simp] theorem clearTable_errcode (s : State) : (clearTable s).errcode = s.errcode := rfl
@[simp] theorem clearTable_drop (s : State) : (clearTable s).drop = s.drop := rfl
@[simp] theorem clearTable_root (s : State) : (clearTable s).root = s.root := rfl
@[simp] theorem clearTable_nodes (s : State) : (clearTable s).nodes = s.nodes := rfl
@[simp] theorem clearTable_leaves (s : State) : (clearTable s).leaves = s.leaves := rfl
@[simp] theorem clearTable_freq (s : State) : (clearTable s).freq = s.freq := rfl
@[simp] theorem clearTable_node (s : State) : (clearTable s).node = s.node := rfl
@[simp] theorem clearTable_code (s : State) : (clearTable s).code = emptyCode := rfl
@[simp] theorem clearTable_heap (s : State) : (clearTable s).heap = s.heap := rfl
@[simp] theorem clearTable_cur (s : State) : (clearTable s).cur = s.cur := rfl
@[simp] theorem clearTable_pending (s : State) : (clearTable s).pending = s.pending := rfl
@[simp] theorem clearTable_inp (s : State) : (clearTable s).inp = s.inp := rfl
@[simp] theorem clearTable_out (s : State) : (clearTable s).out = s.out := rfl
@[simp] theorem clearTable_script (s : State) : (clearTable s).script = s.script := rfl
@[simp] theorem clearTable_turns (s : State) : (clearTable s).turns = s.turns := rfl
@[simp] theorem clearTable_answers (s : State) : (clearTable s).answers = s.answers := rfl
@[simp] theorem clearTable_hostWord (s : State) : (clearTable s).hostWord = s.hostWord := rfl
@[simp] theorem clearTable_hostOut (s : State) : (clearTable s).hostOut = s.hostOut := rfl
@[simp] theorem clearTable_hostFail (s : State) : (clearTable s).hostFail = s.hostFail := rfl
@[simp] theorem clearTable_busyDrop (s : State) : (clearTable s).busyDrop = s.busyDrop := rfl
@[simp] theorem clearTable_draws (s : State) : (clearTable s).draws = s.draws := rfl

@[simp] theorem clearTreeRegs_busy (s : State) : (clearTreeRegs s).busy = s.busy := rfl
@[simp] theorem clearTreeRegs_err (s : State) : (clearTreeRegs s).err = s.err := rfl
@[simp] theorem clearTreeRegs_treeValid (s : State) : (clearTreeRegs s).treeValid = s.treeValid := rfl
@[simp] theorem clearTreeRegs_tableValid (s : State) : (clearTreeRegs s).tableValid = s.tableValid := rfl
@[simp] theorem clearTreeRegs_errcode (s : State) : (clearTreeRegs s).errcode = s.errcode := rfl
@[simp] theorem clearTreeRegs_drop (s : State) : (clearTreeRegs s).drop = s.drop := rfl
@[simp] theorem clearTreeRegs_root (s : State) : (clearTreeRegs s).root = 0 := rfl
@[simp] theorem clearTreeRegs_nodes (s : State) : (clearTreeRegs s).nodes = 0 := rfl
@[simp] theorem clearTreeRegs_leaves (s : State) : (clearTreeRegs s).leaves = 0 := rfl
@[simp] theorem clearTreeRegs_freq (s : State) : (clearTreeRegs s).freq = s.freq := rfl
@[simp] theorem clearTreeRegs_node (s : State) : (clearTreeRegs s).node = s.node := rfl
@[simp] theorem clearTreeRegs_code (s : State) : (clearTreeRegs s).code = s.code := rfl
@[simp] theorem clearTreeRegs_heap (s : State) : (clearTreeRegs s).heap = s.heap := rfl
@[simp] theorem clearTreeRegs_cur (s : State) : (clearTreeRegs s).cur = s.cur := rfl
@[simp] theorem clearTreeRegs_pending (s : State) : (clearTreeRegs s).pending = s.pending := rfl
@[simp] theorem clearTreeRegs_inp (s : State) : (clearTreeRegs s).inp = s.inp := rfl
@[simp] theorem clearTreeRegs_out (s : State) : (clearTreeRegs s).out = s.out := rfl
@[simp] theorem clearTreeRegs_script (s : State) : (clearTreeRegs s).script = s.script := rfl
@[simp] theorem clearTreeRegs_turns (s : State) : (clearTreeRegs s).turns = s.turns := rfl
@[simp] theorem clearTreeRegs_answers (s : State) : (clearTreeRegs s).answers = s.answers := rfl
@[simp] theorem clearTreeRegs_hostWord (s : State) : (clearTreeRegs s).hostWord = s.hostWord := rfl
@[simp] theorem clearTreeRegs_hostOut (s : State) : (clearTreeRegs s).hostOut = s.hostOut := rfl
@[simp] theorem clearTreeRegs_hostFail (s : State) : (clearTreeRegs s).hostFail = s.hostFail := rfl
@[simp] theorem clearTreeRegs_busyDrop (s : State) : (clearTreeRegs s).busyDrop = s.busyDrop := rfl
@[simp] theorem clearTreeRegs_draws (s : State) : (clearTreeRegs s).draws = s.draws := rfl

@[simp] theorem writeNode_busy (i : NodeIdx) (r : Node) (s : State) : (writeNode i r s).busy = s.busy := rfl
@[simp] theorem writeNode_err (i : NodeIdx) (r : Node) (s : State) : (writeNode i r s).err = s.err := rfl
@[simp] theorem writeNode_treeValid (i : NodeIdx) (r : Node) (s : State) : (writeNode i r s).treeValid = s.treeValid := rfl
@[simp] theorem writeNode_tableValid (i : NodeIdx) (r : Node) (s : State) : (writeNode i r s).tableValid = s.tableValid := rfl
@[simp] theorem writeNode_errcode (i : NodeIdx) (r : Node) (s : State) : (writeNode i r s).errcode = s.errcode := rfl
@[simp] theorem writeNode_drop (i : NodeIdx) (r : Node) (s : State) : (writeNode i r s).drop = s.drop := rfl
@[simp] theorem writeNode_root (i : NodeIdx) (r : Node) (s : State) : (writeNode i r s).root = s.root := rfl
@[simp] theorem writeNode_nodes (i : NodeIdx) (r : Node) (s : State) : (writeNode i r s).nodes = s.nodes := rfl
@[simp] theorem writeNode_leaves (i : NodeIdx) (r : Node) (s : State) : (writeNode i r s).leaves = s.leaves := rfl
@[simp] theorem writeNode_freq (i : NodeIdx) (r : Node) (s : State) : (writeNode i r s).freq = s.freq := rfl
@[simp] theorem writeNode_node (i : NodeIdx) (r : Node) (s : State) : (writeNode i r s).node = s.node.set i.toNat r := rfl
@[simp] theorem writeNode_code (i : NodeIdx) (r : Node) (s : State) : (writeNode i r s).code = s.code := rfl
@[simp] theorem writeNode_heap (i : NodeIdx) (r : Node) (s : State) : (writeNode i r s).heap = s.heap := rfl
@[simp] theorem writeNode_cur (i : NodeIdx) (r : Node) (s : State) : (writeNode i r s).cur = s.cur := rfl
@[simp] theorem writeNode_pending (i : NodeIdx) (r : Node) (s : State) : (writeNode i r s).pending = s.pending := rfl
@[simp] theorem writeNode_inp (i : NodeIdx) (r : Node) (s : State) : (writeNode i r s).inp = s.inp := rfl
@[simp] theorem writeNode_out (i : NodeIdx) (r : Node) (s : State) : (writeNode i r s).out = s.out := rfl
@[simp] theorem writeNode_script (i : NodeIdx) (r : Node) (s : State) : (writeNode i r s).script = s.script := rfl
@[simp] theorem writeNode_turns (i : NodeIdx) (r : Node) (s : State) : (writeNode i r s).turns = s.turns := rfl
@[simp] theorem writeNode_answers (i : NodeIdx) (r : Node) (s : State) : (writeNode i r s).answers = s.answers := rfl
@[simp] theorem writeNode_hostWord (i : NodeIdx) (r : Node) (s : State) : (writeNode i r s).hostWord = s.hostWord := rfl
@[simp] theorem writeNode_hostOut (i : NodeIdx) (r : Node) (s : State) : (writeNode i r s).hostOut = s.hostOut := rfl
@[simp] theorem writeNode_hostFail (i : NodeIdx) (r : Node) (s : State) : (writeNode i r s).hostFail = s.hostFail := rfl
@[simp] theorem writeNode_busyDrop (i : NodeIdx) (r : Node) (s : State) : (writeNode i r s).busyDrop = s.busyDrop := rfl
@[simp] theorem writeNode_draws (i : NodeIdx) (r : Node) (s : State) : (writeNode i r s).draws = s.draws := rfl

@[simp] theorem setChildren_busy (i l r : NodeIdx) (s : State) : (setChildren i l r s).busy = s.busy := rfl
@[simp] theorem setChildren_err (i l r : NodeIdx) (s : State) : (setChildren i l r s).err = s.err := rfl
@[simp] theorem setChildren_treeValid (i l r : NodeIdx) (s : State) : (setChildren i l r s).treeValid = s.treeValid := rfl
@[simp] theorem setChildren_tableValid (i l r : NodeIdx) (s : State) : (setChildren i l r s).tableValid = s.tableValid := rfl
@[simp] theorem setChildren_errcode (i l r : NodeIdx) (s : State) : (setChildren i l r s).errcode = s.errcode := rfl
@[simp] theorem setChildren_drop (i l r : NodeIdx) (s : State) : (setChildren i l r s).drop = s.drop := rfl
@[simp] theorem setChildren_root (i l r : NodeIdx) (s : State) : (setChildren i l r s).root = s.root := rfl
@[simp] theorem setChildren_nodes (i l r : NodeIdx) (s : State) : (setChildren i l r s).nodes = s.nodes := rfl
@[simp] theorem setChildren_leaves (i l r : NodeIdx) (s : State) : (setChildren i l r s).leaves = s.leaves := rfl
@[simp] theorem setChildren_freq (i l r : NodeIdx) (s : State) : (setChildren i l r s).freq = s.freq := rfl
@[simp] theorem setChildren_node (i l r : NodeIdx) (s : State) : (setChildren i l r s).node = s.node.modify i.toNat fun n => { n with left := l, right := r } := rfl
@[simp] theorem setChildren_code (i l r : NodeIdx) (s : State) : (setChildren i l r s).code = s.code := rfl
@[simp] theorem setChildren_heap (i l r : NodeIdx) (s : State) : (setChildren i l r s).heap = s.heap := rfl
@[simp] theorem setChildren_cur (i l r : NodeIdx) (s : State) : (setChildren i l r s).cur = s.cur := rfl
@[simp] theorem setChildren_pending (i l r : NodeIdx) (s : State) : (setChildren i l r s).pending = s.pending := rfl
@[simp] theorem setChildren_inp (i l r : NodeIdx) (s : State) : (setChildren i l r s).inp = s.inp := rfl
@[simp] theorem setChildren_out (i l r : NodeIdx) (s : State) : (setChildren i l r s).out = s.out := rfl
@[simp] theorem setChildren_script (i l r : NodeIdx) (s : State) : (setChildren i l r s).script = s.script := rfl
@[simp] theorem setChildren_turns (i l r : NodeIdx) (s : State) : (setChildren i l r s).turns = s.turns := rfl
@[simp] theorem setChildren_answers (i l r : NodeIdx) (s : State) : (setChildren i l r s).answers = s.answers := rfl
@[simp] theorem setChildren_hostWord (i l r : NodeIdx) (s : State) : (setChildren i l r s).hostWord = s.hostWord := rfl
@[simp] theorem setChildren_hostOut (i l r : NodeIdx) (s : State) : (setChildren i l r s).hostOut = s.hostOut := rfl
@[simp] theorem setChildren_hostFail (i l r : NodeIdx) (s : State) : (setChildren i l r s).hostFail = s.hostFail := rfl
@[simp] theorem setChildren_busyDrop (i l r : NodeIdx) (s : State) : (setChildren i l r s).busyDrop = s.busyDrop := rfl
@[simp] theorem setChildren_draws (i l r : NodeIdx) (s : State) : (setChildren i l r s).draws = s.draws := rfl

@[simp] theorem moveCur_busy (i : NodeIdx) (s : State) : (moveCur i s).busy = s.busy := rfl
@[simp] theorem moveCur_err (i : NodeIdx) (s : State) : (moveCur i s).err = s.err := rfl
@[simp] theorem moveCur_treeValid (i : NodeIdx) (s : State) : (moveCur i s).treeValid = s.treeValid := rfl
@[simp] theorem moveCur_tableValid (i : NodeIdx) (s : State) : (moveCur i s).tableValid = s.tableValid := rfl
@[simp] theorem moveCur_errcode (i : NodeIdx) (s : State) : (moveCur i s).errcode = s.errcode := rfl
@[simp] theorem moveCur_drop (i : NodeIdx) (s : State) : (moveCur i s).drop = s.drop := rfl
@[simp] theorem moveCur_root (i : NodeIdx) (s : State) : (moveCur i s).root = s.root := rfl
@[simp] theorem moveCur_nodes (i : NodeIdx) (s : State) : (moveCur i s).nodes = s.nodes := rfl
@[simp] theorem moveCur_leaves (i : NodeIdx) (s : State) : (moveCur i s).leaves = s.leaves := rfl
@[simp] theorem moveCur_freq (i : NodeIdx) (s : State) : (moveCur i s).freq = s.freq := rfl
@[simp] theorem moveCur_node (i : NodeIdx) (s : State) : (moveCur i s).node = s.node := rfl
@[simp] theorem moveCur_code (i : NodeIdx) (s : State) : (moveCur i s).code = s.code := rfl
@[simp] theorem moveCur_heap (i : NodeIdx) (s : State) : (moveCur i s).heap = s.heap := rfl
@[simp] theorem moveCur_cur (i : NodeIdx) (s : State) : (moveCur i s).cur = i := rfl
@[simp] theorem moveCur_pending (i : NodeIdx) (s : State) : (moveCur i s).pending = s.pending := rfl
@[simp] theorem moveCur_inp (i : NodeIdx) (s : State) : (moveCur i s).inp = s.inp := rfl
@[simp] theorem moveCur_out (i : NodeIdx) (s : State) : (moveCur i s).out = s.out := rfl
@[simp] theorem moveCur_script (i : NodeIdx) (s : State) : (moveCur i s).script = s.script := rfl
@[simp] theorem moveCur_turns (i : NodeIdx) (s : State) : (moveCur i s).turns = s.turns := rfl
@[simp] theorem moveCur_answers (i : NodeIdx) (s : State) : (moveCur i s).answers = s.answers := rfl
@[simp] theorem moveCur_hostWord (i : NodeIdx) (s : State) : (moveCur i s).hostWord = s.hostWord := rfl
@[simp] theorem moveCur_hostOut (i : NodeIdx) (s : State) : (moveCur i s).hostOut = s.hostOut := rfl
@[simp] theorem moveCur_hostFail (i : NodeIdx) (s : State) : (moveCur i s).hostFail = s.hostFail := rfl
@[simp] theorem moveCur_busyDrop (i : NodeIdx) (s : State) : (moveCur i s).busyDrop = s.busyDrop := rfl
@[simp] theorem moveCur_draws (i : NodeIdx) (s : State) : (moveCur i s).draws = s.draws := rfl

@[simp] theorem afterCalls_busy (k : Nat) (s : State) : (afterCalls k s).busy = s.busy := rfl
@[simp] theorem afterCalls_err (k : Nat) (s : State) : (afterCalls k s).err = s.err := rfl
@[simp] theorem afterCalls_treeValid (k : Nat) (s : State) : (afterCalls k s).treeValid = s.treeValid := rfl
@[simp] theorem afterCalls_tableValid (k : Nat) (s : State) : (afterCalls k s).tableValid = s.tableValid := rfl
@[simp] theorem afterCalls_errcode (k : Nat) (s : State) : (afterCalls k s).errcode = s.errcode := rfl
@[simp] theorem afterCalls_drop (k : Nat) (s : State) : (afterCalls k s).drop = s.drop := rfl
@[simp] theorem afterCalls_root (k : Nat) (s : State) : (afterCalls k s).root = s.root := rfl
@[simp] theorem afterCalls_nodes (k : Nat) (s : State) : (afterCalls k s).nodes = s.nodes := rfl
@[simp] theorem afterCalls_leaves (k : Nat) (s : State) : (afterCalls k s).leaves = s.leaves := rfl
@[simp] theorem afterCalls_freq (k : Nat) (s : State) : (afterCalls k s).freq = s.freq := rfl
@[simp] theorem afterCalls_node (k : Nat) (s : State) : (afterCalls k s).node = s.node := rfl
@[simp] theorem afterCalls_code (k : Nat) (s : State) : (afterCalls k s).code = s.code := rfl
@[simp] theorem afterCalls_heap (k : Nat) (s : State) : (afterCalls k s).heap = s.heap := rfl
@[simp] theorem afterCalls_cur (k : Nat) (s : State) : (afterCalls k s).cur = s.cur := rfl
@[simp] theorem afterCalls_pending (k : Nat) (s : State) : (afterCalls k s).pending = s.pending := rfl
@[simp] theorem afterCalls_inp (k : Nat) (s : State) : (afterCalls k s).inp = s.inp := rfl
@[simp] theorem afterCalls_out (k : Nat) (s : State) : (afterCalls k s).out = s.out := rfl
@[simp] theorem afterCalls_script (k : Nat) (s : State) : (afterCalls k s).script = s.script := rfl
@[simp] theorem afterCalls_turns (k : Nat) (s : State) : (afterCalls k s).turns = s.turns := rfl
@[simp] theorem afterCalls_answers (k : Nat) (s : State) : (afterCalls k s).answers = s.answers.drop k := rfl
@[simp] theorem afterCalls_hostWord (k : Nat) (s : State) : (afterCalls k s).hostWord = s.hostWord := rfl
@[simp] theorem afterCalls_hostOut (k : Nat) (s : State) : (afterCalls k s).hostOut = s.hostOut := rfl
@[simp] theorem afterCalls_hostFail (k : Nat) (s : State) : (afterCalls k s).hostFail = s.hostFail := rfl
@[simp] theorem afterCalls_busyDrop (k : Nat) (s : State) : (afterCalls k s).busyDrop = s.busyDrop := rfl
@[simp] theorem afterCalls_draws (k : Nat) (s : State) : (afterCalls k s).draws = s.draws := rfl

@[simp] theorem clearAll_busy (s : State) : (clearAll s).busy = s.busy := rfl
@[simp] theorem clearAll_err (s : State) : (clearAll s).err = s.err := rfl
@[simp] theorem clearAll_treeValid (s : State) : (clearAll s).treeValid = false := rfl
@[simp] theorem clearAll_tableValid (s : State) : (clearAll s).tableValid = false := rfl
@[simp] theorem clearAll_errcode (s : State) : (clearAll s).errcode = s.errcode := rfl
@[simp] theorem clearAll_drop (s : State) : (clearAll s).drop = dropAfterClear s := rfl
@[simp] theorem clearAll_root (s : State) : (clearAll s).root = 0 := rfl
@[simp] theorem clearAll_nodes (s : State) : (clearAll s).nodes = 0 := rfl
@[simp] theorem clearAll_leaves (s : State) : (clearAll s).leaves = 0 := rfl
@[simp] theorem clearAll_freq (s : State) : (clearAll s).freq = List.replicate Config.nFreq 0 := rfl
@[simp] theorem clearAll_node (s : State) : (clearAll s).node = s.node := rfl
@[simp] theorem clearAll_code (s : State) : (clearAll s).code = emptyCode := rfl
@[simp] theorem clearAll_heap (s : State) : (clearAll s).heap = s.heap := rfl
@[simp] theorem clearAll_cur (s : State) : (clearAll s).cur = s.cur := rfl
@[simp] theorem clearAll_pending (s : State) : (clearAll s).pending = s.pending := rfl
@[simp] theorem clearAll_inp (s : State) : (clearAll s).inp = s.inp := rfl
@[simp] theorem clearAll_out (s : State) : (clearAll s).out = s.out := rfl
@[simp] theorem clearAll_script (s : State) : (clearAll s).script = s.script := rfl
@[simp] theorem clearAll_turns (s : State) : (clearAll s).turns = s.turns := rfl
@[simp] theorem clearAll_answers (s : State) : (clearAll s).answers = s.answers := rfl
@[simp] theorem clearAll_hostWord (s : State) : (clearAll s).hostWord = s.hostWord := rfl
@[simp] theorem clearAll_hostOut (s : State) : (clearAll s).hostOut = s.hostOut := rfl
@[simp] theorem clearAll_hostFail (s : State) : (clearAll s).hostFail = s.hostFail := rfl
@[simp] theorem clearAll_busyDrop (s : State) : (clearAll s).busyDrop = s.busyDrop := rfl
@[simp] theorem clearAll_draws (s : State) : (clearAll s).draws = if s.busyDrop then s.draws + 1 else s.draws := rfl

@[simp] theorem desStart_busy (s : State) : (desStart s).busy = s.busy := rfl
@[simp] theorem desStart_err (s : State) : (desStart s).err = s.err := rfl
@[simp] theorem desStart_treeValid (s : State) : (desStart s).treeValid = false := rfl
@[simp] theorem desStart_tableValid (s : State) : (desStart s).tableValid = false := rfl
@[simp] theorem desStart_errcode (s : State) : (desStart s).errcode = s.errcode := rfl
@[simp] theorem desStart_drop (s : State) : (desStart s).drop = s.drop := rfl
@[simp] theorem desStart_root (s : State) : (desStart s).root = 0 := rfl
@[simp] theorem desStart_nodes (s : State) : (desStart s).nodes = 0 := rfl
@[simp] theorem desStart_leaves (s : State) : (desStart s).leaves = 0 := rfl
@[simp] theorem desStart_freq (s : State) : (desStart s).freq = s.freq := rfl
@[simp] theorem desStart_node (s : State) : (desStart s).node = s.node := rfl
@[simp] theorem desStart_code (s : State) : (desStart s).code = emptyCode := rfl
@[simp] theorem desStart_heap (s : State) : (desStart s).heap = s.heap := rfl
@[simp] theorem desStart_cur (s : State) : (desStart s).cur = s.cur := rfl
@[simp] theorem desStart_pending (s : State) : (desStart s).pending = s.pending := rfl
@[simp] theorem desStart_inp (s : State) : (desStart s).inp = s.inp := rfl
@[simp] theorem desStart_out (s : State) : (desStart s).out = s.out := rfl
@[simp] theorem desStart_script (s : State) : (desStart s).script = s.script := rfl
@[simp] theorem desStart_turns (s : State) : (desStart s).turns = s.turns := rfl
@[simp] theorem desStart_answers (s : State) : (desStart s).answers = s.answers := rfl
@[simp] theorem desStart_hostWord (s : State) : (desStart s).hostWord = s.hostWord := rfl
@[simp] theorem desStart_hostOut (s : State) : (desStart s).hostOut = s.hostOut := rfl
@[simp] theorem desStart_hostFail (s : State) : (desStart s).hostFail = s.hostFail := rfl
@[simp] theorem desStart_busyDrop (s : State) : (desStart s).busyDrop = s.busyDrop := rfl
@[simp] theorem desStart_draws (s : State) : (desStart s).draws = s.draws := rfl

@[simp] theorem writeRecords_busy (store : List Node) (s : State) : (writeRecords store s).busy = s.busy := rfl
@[simp] theorem writeRecords_err (store : List Node) (s : State) : (writeRecords store s).err = s.err := rfl
@[simp] theorem writeRecords_treeValid (store : List Node) (s : State) : (writeRecords store s).treeValid = s.treeValid := rfl
@[simp] theorem writeRecords_tableValid (store : List Node) (s : State) : (writeRecords store s).tableValid = s.tableValid := rfl
@[simp] theorem writeRecords_errcode (store : List Node) (s : State) : (writeRecords store s).errcode = s.errcode := rfl
@[simp] theorem writeRecords_drop (store : List Node) (s : State) : (writeRecords store s).drop = s.drop := rfl
@[simp] theorem writeRecords_root (store : List Node) (s : State) : (writeRecords store s).root = s.root := rfl
@[simp] theorem writeRecords_nodes (store : List Node) (s : State) : (writeRecords store s).nodes = s.nodes := rfl
@[simp] theorem writeRecords_leaves (store : List Node) (s : State) : (writeRecords store s).leaves = s.leaves := rfl
@[simp] theorem writeRecords_freq (store : List Node) (s : State) : (writeRecords store s).freq = s.freq := rfl
@[simp] theorem writeRecords_node (store : List Node) (s : State) : (writeRecords store s).node = store ++ s.node.drop store.length := rfl
@[simp] theorem writeRecords_code (store : List Node) (s : State) : (writeRecords store s).code = s.code := rfl
@[simp] theorem writeRecords_heap (store : List Node) (s : State) : (writeRecords store s).heap = s.heap := rfl
@[simp] theorem writeRecords_cur (store : List Node) (s : State) : (writeRecords store s).cur = s.cur := rfl
@[simp] theorem writeRecords_pending (store : List Node) (s : State) : (writeRecords store s).pending = s.pending := rfl
@[simp] theorem writeRecords_inp (store : List Node) (s : State) : (writeRecords store s).inp = s.inp := rfl
@[simp] theorem writeRecords_out (store : List Node) (s : State) : (writeRecords store s).out = s.out := rfl
@[simp] theorem writeRecords_script (store : List Node) (s : State) : (writeRecords store s).script = s.script := rfl
@[simp] theorem writeRecords_turns (store : List Node) (s : State) : (writeRecords store s).turns = s.turns := rfl
@[simp] theorem writeRecords_answers (store : List Node) (s : State) : (writeRecords store s).answers = s.answers := rfl
@[simp] theorem writeRecords_hostWord (store : List Node) (s : State) : (writeRecords store s).hostWord = s.hostWord := rfl
@[simp] theorem writeRecords_hostOut (store : List Node) (s : State) : (writeRecords store s).hostOut = s.hostOut := rfl
@[simp] theorem writeRecords_hostFail (store : List Node) (s : State) : (writeRecords store s).hostFail = s.hostFail := rfl
@[simp] theorem writeRecords_busyDrop (store : List Node) (s : State) : (writeRecords store s).busyDrop = s.busyDrop := rfl
@[simp] theorem writeRecords_draws (store : List Node) (s : State) : (writeRecords store s).draws = s.draws := rfl

@[simp] theorem takeOut_busy (r : Bool) (s : State) : (takeOut r s).busy = s.busy := rfl
@[simp] theorem takeOut_err (r : Bool) (s : State) : (takeOut r s).err = s.err := rfl
@[simp] theorem takeOut_treeValid (r : Bool) (s : State) : (takeOut r s).treeValid = s.treeValid := rfl
@[simp] theorem takeOut_tableValid (r : Bool) (s : State) : (takeOut r s).tableValid = s.tableValid := rfl
@[simp] theorem takeOut_errcode (r : Bool) (s : State) : (takeOut r s).errcode = s.errcode := rfl
@[simp] theorem takeOut_drop (r : Bool) (s : State) : (takeOut r s).drop = s.drop := rfl
@[simp] theorem takeOut_root (r : Bool) (s : State) : (takeOut r s).root = s.root := rfl
@[simp] theorem takeOut_nodes (r : Bool) (s : State) : (takeOut r s).nodes = s.nodes := rfl
@[simp] theorem takeOut_leaves (r : Bool) (s : State) : (takeOut r s).leaves = s.leaves := rfl
@[simp] theorem takeOut_freq (r : Bool) (s : State) : (takeOut r s).freq = s.freq := rfl
@[simp] theorem takeOut_node (r : Bool) (s : State) : (takeOut r s).node = s.node := rfl
@[simp] theorem takeOut_code (r : Bool) (s : State) : (takeOut r s).code = s.code := rfl
@[simp] theorem takeOut_heap (r : Bool) (s : State) : (takeOut r s).heap = s.heap := rfl
@[simp] theorem takeOut_cur (r : Bool) (s : State) : (takeOut r s).cur = s.cur := rfl
@[simp] theorem takeOut_pending (r : Bool) (s : State) : (takeOut r s).pending = s.pending := rfl
@[simp] theorem takeOut_inp (r : Bool) (s : State) : (takeOut r s).inp = s.inp := rfl
@[simp] theorem takeOut_out (r : Bool) (s : State) : (takeOut r s).out = if r then ⟨[], false⟩ else s.out := rfl
@[simp] theorem takeOut_script (r : Bool) (s : State) : (takeOut r s).script = s.script := rfl
@[simp] theorem takeOut_turns (r : Bool) (s : State) : (takeOut r s).turns = s.turns := rfl
@[simp] theorem takeOut_answers (r : Bool) (s : State) : (takeOut r s).answers = s.answers := rfl
@[simp] theorem takeOut_hostWord (r : Bool) (s : State) : (takeOut r s).hostWord = s.hostWord := rfl
@[simp] theorem takeOut_hostOut (r : Bool) (s : State) : (takeOut r s).hostOut = s.out := rfl
@[simp] theorem takeOut_hostFail (r : Bool) (s : State) : (takeOut r s).hostFail = s.hostFail := rfl
@[simp] theorem takeOut_busyDrop (r : Bool) (s : State) : (takeOut r s).busyDrop = s.busyDrop := rfl
@[simp] theorem takeOut_draws (r : Bool) (s : State) : (takeOut r s).draws = s.draws := rfl

@[simp] theorem hostRead_busy (off : Offset) (s : State) : (hostRead off s).busy = s.busy := rfl
@[simp] theorem hostRead_err (off : Offset) (s : State) : (hostRead off s).err = s.err := rfl
@[simp] theorem hostRead_treeValid (off : Offset) (s : State) : (hostRead off s).treeValid = s.treeValid := rfl
@[simp] theorem hostRead_tableValid (off : Offset) (s : State) : (hostRead off s).tableValid = s.tableValid := rfl
@[simp] theorem hostRead_errcode (off : Offset) (s : State) : (hostRead off s).errcode = s.errcode := rfl
@[simp] theorem hostRead_drop (off : Offset) (s : State) : (hostRead off s).drop = s.drop := rfl
@[simp] theorem hostRead_root (off : Offset) (s : State) : (hostRead off s).root = s.root := rfl
@[simp] theorem hostRead_nodes (off : Offset) (s : State) : (hostRead off s).nodes = s.nodes := rfl
@[simp] theorem hostRead_leaves (off : Offset) (s : State) : (hostRead off s).leaves = s.leaves := rfl
@[simp] theorem hostRead_freq (off : Offset) (s : State) : (hostRead off s).freq = s.freq := rfl
@[simp] theorem hostRead_node (off : Offset) (s : State) : (hostRead off s).node = s.node := rfl
@[simp] theorem hostRead_code (off : Offset) (s : State) : (hostRead off s).code = s.code := rfl
@[simp] theorem hostRead_heap (off : Offset) (s : State) : (hostRead off s).heap = s.heap := rfl
@[simp] theorem hostRead_cur (off : Offset) (s : State) : (hostRead off s).cur = s.cur := rfl
@[simp] theorem hostRead_pending (off : Offset) (s : State) : (hostRead off s).pending = s.pending := rfl
@[simp] theorem hostRead_inp (off : Offset) (s : State) : (hostRead off s).inp = s.inp := rfl
@[simp] theorem hostRead_out (off : Offset) (s : State) : (hostRead off s).out = s.out := rfl
@[simp] theorem hostRead_script (off : Offset) (s : State) : (hostRead off s).script = s.script := rfl
@[simp] theorem hostRead_turns (off : Offset) (s : State) : (hostRead off s).turns = s.turns := rfl
@[simp] theorem hostRead_answers (off : Offset) (s : State) : (hostRead off s).answers = s.answers := rfl
@[simp] theorem hostRead_hostWord (off : Offset) (s : State) : (hostRead off s).hostWord = memRead off s := rfl
@[simp] theorem hostRead_hostOut (off : Offset) (s : State) : (hostRead off s).hostOut = s.hostOut := rfl
@[simp] theorem hostRead_hostFail (off : Offset) (s : State) : (hostRead off s).hostFail = s.hostFail := rfl
@[simp] theorem hostRead_busyDrop (off : Offset) (s : State) : (hostRead off s).busyDrop = s.busyDrop := rfl
@[simp] theorem hostRead_draws (off : Offset) (s : State) : (hostRead off s).draws = if s.busy && drawnWhileBusy (regAt off) then s.draws + 1 else s.draws := rfl

@[simp] theorem passTurn_busy (s : State) : (passTurn s).busy = s.busy := rfl
@[simp] theorem passTurn_err (s : State) : (passTurn s).err = s.err := rfl
@[simp] theorem passTurn_treeValid (s : State) : (passTurn s).treeValid = s.treeValid := rfl
@[simp] theorem passTurn_tableValid (s : State) : (passTurn s).tableValid = s.tableValid := rfl
@[simp] theorem passTurn_errcode (s : State) : (passTurn s).errcode = s.errcode := rfl
@[simp] theorem passTurn_drop (s : State) : (passTurn s).drop = s.drop := rfl
@[simp] theorem passTurn_root (s : State) : (passTurn s).root = s.root := rfl
@[simp] theorem passTurn_nodes (s : State) : (passTurn s).nodes = s.nodes := rfl
@[simp] theorem passTurn_leaves (s : State) : (passTurn s).leaves = s.leaves := rfl
@[simp] theorem passTurn_freq (s : State) : (passTurn s).freq = s.freq := rfl
@[simp] theorem passTurn_node (s : State) : (passTurn s).node = s.node := rfl
@[simp] theorem passTurn_code (s : State) : (passTurn s).code = s.code := rfl
@[simp] theorem passTurn_heap (s : State) : (passTurn s).heap = s.heap := rfl
@[simp] theorem passTurn_cur (s : State) : (passTurn s).cur = s.cur := rfl
@[simp] theorem passTurn_pending (s : State) : (passTurn s).pending = s.pending := rfl
@[simp] theorem passTurn_inp (s : State) : (passTurn s).inp = s.inp := rfl
@[simp] theorem passTurn_out (s : State) : (passTurn s).out = s.out := rfl
@[simp] theorem passTurn_script (s : State) : (passTurn s).script = s.script := rfl
@[simp] theorem passTurn_turns (s : State) : (passTurn s).turns = s.turns.tail := rfl
@[simp] theorem passTurn_answers (s : State) : (passTurn s).answers = s.answers := rfl
@[simp] theorem passTurn_hostWord (s : State) : (passTurn s).hostWord = s.hostWord := rfl
@[simp] theorem passTurn_hostOut (s : State) : (passTurn s).hostOut = s.hostOut := rfl
@[simp] theorem passTurn_hostFail (s : State) : (passTurn s).hostFail = s.hostFail := rfl
@[simp] theorem passTurn_busyDrop (s : State) : (passTurn s).busyDrop = s.busyDrop := rfl
@[simp] theorem passTurn_draws (s : State) : (passTurn s).draws = s.draws := rfl

@[simp] theorem succeeded_busy (s : State) : (succeeded s).busy = false := rfl
@[simp] theorem succeeded_err (s : State) : (succeeded s).err = false := rfl
@[simp] theorem succeeded_treeValid (s : State) : (succeeded s).treeValid = s.treeValid := rfl
@[simp] theorem succeeded_tableValid (s : State) : (succeeded s).tableValid = s.tableValid := rfl
@[simp] theorem succeeded_errcode (s : State) : (succeeded s).errcode = 0 := rfl
@[simp] theorem succeeded_drop (s : State) : (succeeded s).drop = s.drop := rfl
@[simp] theorem succeeded_root (s : State) : (succeeded s).root = s.root := rfl
@[simp] theorem succeeded_nodes (s : State) : (succeeded s).nodes = s.nodes := rfl
@[simp] theorem succeeded_leaves (s : State) : (succeeded s).leaves = s.leaves := rfl
@[simp] theorem succeeded_freq (s : State) : (succeeded s).freq = s.freq := rfl
@[simp] theorem succeeded_node (s : State) : (succeeded s).node = s.node := rfl
@[simp] theorem succeeded_code (s : State) : (succeeded s).code = s.code := rfl
@[simp] theorem succeeded_heap (s : State) : (succeeded s).heap = s.heap := rfl
@[simp] theorem succeeded_cur (s : State) : (succeeded s).cur = s.cur := rfl
@[simp] theorem succeeded_pending (s : State) : (succeeded s).pending = s.pending := rfl
@[simp] theorem succeeded_inp (s : State) : (succeeded s).inp = s.inp := rfl
@[simp] theorem succeeded_out (s : State) : (succeeded s).out = s.out := rfl
@[simp] theorem succeeded_script (s : State) : (succeeded s).script = s.script := rfl
@[simp] theorem succeeded_turns (s : State) : (succeeded s).turns = s.turns := rfl
@[simp] theorem succeeded_answers (s : State) : (succeeded s).answers = s.answers := rfl
@[simp] theorem succeeded_hostWord (s : State) : (succeeded s).hostWord = s.hostWord := rfl
@[simp] theorem succeeded_hostOut (s : State) : (succeeded s).hostOut = s.hostOut := rfl
@[simp] theorem succeeded_hostFail (s : State) : (succeeded s).hostFail = s.hostFail := rfl
@[simp] theorem succeeded_busyDrop (s : State) : (succeeded s).busyDrop = s.busyDrop := rfl
@[simp] theorem succeeded_draws (s : State) : (succeeded s).draws = s.draws := rfl

@[simp] theorem failedWith_busy (e : ErrCode) (s : State) : (failedWith e s).busy = false := rfl
@[simp] theorem failedWith_err (e : ErrCode) (s : State) : (failedWith e s).err = true := rfl
@[simp] theorem failedWith_treeValid (e : ErrCode) (s : State) : (failedWith e s).treeValid = s.treeValid := rfl
@[simp] theorem failedWith_tableValid (e : ErrCode) (s : State) : (failedWith e s).tableValid = s.tableValid := rfl
@[simp] theorem failedWith_errcode (e : ErrCode) (s : State) : (failedWith e s).errcode = errNumber e := rfl
@[simp] theorem failedWith_drop (e : ErrCode) (s : State) : (failedWith e s).drop = s.drop := rfl
@[simp] theorem failedWith_root (e : ErrCode) (s : State) : (failedWith e s).root = s.root := rfl
@[simp] theorem failedWith_nodes (e : ErrCode) (s : State) : (failedWith e s).nodes = s.nodes := rfl
@[simp] theorem failedWith_leaves (e : ErrCode) (s : State) : (failedWith e s).leaves = s.leaves := rfl
@[simp] theorem failedWith_freq (e : ErrCode) (s : State) : (failedWith e s).freq = s.freq := rfl
@[simp] theorem failedWith_node (e : ErrCode) (s : State) : (failedWith e s).node = s.node := rfl
@[simp] theorem failedWith_code (e : ErrCode) (s : State) : (failedWith e s).code = s.code := rfl
@[simp] theorem failedWith_heap (e : ErrCode) (s : State) : (failedWith e s).heap = s.heap := rfl
@[simp] theorem failedWith_cur (e : ErrCode) (s : State) : (failedWith e s).cur = s.cur := rfl
@[simp] theorem failedWith_pending (e : ErrCode) (s : State) : (failedWith e s).pending = s.pending := rfl
@[simp] theorem failedWith_inp (e : ErrCode) (s : State) : (failedWith e s).inp = s.inp := rfl
@[simp] theorem failedWith_out (e : ErrCode) (s : State) : (failedWith e s).out = s.out := rfl
@[simp] theorem failedWith_script (e : ErrCode) (s : State) : (failedWith e s).script = s.script := rfl
@[simp] theorem failedWith_turns (e : ErrCode) (s : State) : (failedWith e s).turns = s.turns := rfl
@[simp] theorem failedWith_answers (e : ErrCode) (s : State) : (failedWith e s).answers = s.answers := rfl
@[simp] theorem failedWith_hostWord (e : ErrCode) (s : State) : (failedWith e s).hostWord = s.hostWord := rfl
@[simp] theorem failedWith_hostOut (e : ErrCode) (s : State) : (failedWith e s).hostOut = s.hostOut := rfl
@[simp] theorem failedWith_hostFail (e : ErrCode) (s : State) : (failedWith e s).hostFail = s.hostFail := rfl
@[simp] theorem failedWith_busyDrop (e : ErrCode) (s : State) : (failedWith e s).busyDrop = s.busyDrop := rfl
@[simp] theorem failedWith_draws (e : ErrCode) (s : State) : (failedWith e s).draws = s.draws := rfl

@[simp] theorem attachIn_busy (b : BitString) (s : State) : (attachIn b s).busy = s.busy := rfl
@[simp] theorem attachIn_err (b : BitString) (s : State) : (attachIn b s).err = s.err := rfl
@[simp] theorem attachIn_treeValid (b : BitString) (s : State) : (attachIn b s).treeValid = s.treeValid := rfl
@[simp] theorem attachIn_tableValid (b : BitString) (s : State) : (attachIn b s).tableValid = s.tableValid := rfl
@[simp] theorem attachIn_errcode (b : BitString) (s : State) : (attachIn b s).errcode = s.errcode := rfl
@[simp] theorem attachIn_drop (b : BitString) (s : State) : (attachIn b s).drop = s.drop := rfl
@[simp] theorem attachIn_root (b : BitString) (s : State) : (attachIn b s).root = s.root := rfl
@[simp] theorem attachIn_nodes (b : BitString) (s : State) : (attachIn b s).nodes = s.nodes := rfl
@[simp] theorem attachIn_leaves (b : BitString) (s : State) : (attachIn b s).leaves = s.leaves := rfl
@[simp] theorem attachIn_freq (b : BitString) (s : State) : (attachIn b s).freq = s.freq := rfl
@[simp] theorem attachIn_node (b : BitString) (s : State) : (attachIn b s).node = s.node := rfl
@[simp] theorem attachIn_code (b : BitString) (s : State) : (attachIn b s).code = s.code := rfl
@[simp] theorem attachIn_heap (b : BitString) (s : State) : (attachIn b s).heap = s.heap := rfl
@[simp] theorem attachIn_cur (b : BitString) (s : State) : (attachIn b s).cur = s.cur := rfl
@[simp] theorem attachIn_pending (b : BitString) (s : State) : (attachIn b s).pending = s.pending := rfl
@[simp] theorem attachIn_inp (b : BitString) (s : State) : (attachIn b s).inp = ⟨b, 0⟩ := rfl
@[simp] theorem attachIn_out (b : BitString) (s : State) : (attachIn b s).out = s.out := rfl
@[simp] theorem attachIn_script (b : BitString) (s : State) : (attachIn b s).script = s.script := rfl
@[simp] theorem attachIn_turns (b : BitString) (s : State) : (attachIn b s).turns = s.turns := rfl
@[simp] theorem attachIn_answers (b : BitString) (s : State) : (attachIn b s).answers = s.answers := rfl
@[simp] theorem attachIn_hostWord (b : BitString) (s : State) : (attachIn b s).hostWord = s.hostWord := rfl
@[simp] theorem attachIn_hostOut (b : BitString) (s : State) : (attachIn b s).hostOut = s.hostOut := rfl
@[simp] theorem attachIn_hostFail (b : BitString) (s : State) : (attachIn b s).hostFail = s.hostFail := rfl
@[simp] theorem attachIn_busyDrop (b : BitString) (s : State) : (attachIn b s).busyDrop = s.busyDrop := rfl
@[simp] theorem attachIn_draws (b : BitString) (s : State) : (attachIn b s).draws = s.draws := rfl

@[simp] theorem coreReset_busy (s : State) : (coreReset s).busy = State.reset.busy := rfl
@[simp] theorem coreReset_err (s : State) : (coreReset s).err = State.reset.err := rfl
@[simp] theorem coreReset_treeValid (s : State) : (coreReset s).treeValid = State.reset.treeValid := rfl
@[simp] theorem coreReset_tableValid (s : State) : (coreReset s).tableValid = State.reset.tableValid := rfl
@[simp] theorem coreReset_errcode (s : State) : (coreReset s).errcode = State.reset.errcode := rfl
@[simp] theorem coreReset_drop (s : State) : (coreReset s).drop = State.reset.drop := rfl
@[simp] theorem coreReset_root (s : State) : (coreReset s).root = State.reset.root := rfl
@[simp] theorem coreReset_nodes (s : State) : (coreReset s).nodes = State.reset.nodes := rfl
@[simp] theorem coreReset_leaves (s : State) : (coreReset s).leaves = State.reset.leaves := rfl
@[simp] theorem coreReset_freq (s : State) : (coreReset s).freq = State.reset.freq := rfl
@[simp] theorem coreReset_node (s : State) : (coreReset s).node = State.reset.node := rfl
@[simp] theorem coreReset_code (s : State) : (coreReset s).code = State.reset.code := rfl
@[simp] theorem coreReset_heap (s : State) : (coreReset s).heap = State.reset.heap := rfl
@[simp] theorem coreReset_cur (s : State) : (coreReset s).cur = State.reset.cur := rfl
@[simp] theorem coreReset_pending (s : State) : (coreReset s).pending = State.reset.pending := rfl
@[simp] theorem coreReset_inp (s : State) : (coreReset s).inp = s.inp := rfl
@[simp] theorem coreReset_out (s : State) : (coreReset s).out = s.out := rfl
@[simp] theorem coreReset_script (s : State) : (coreReset s).script = s.script := rfl
@[simp] theorem coreReset_turns (s : State) : (coreReset s).turns = s.turns := rfl
@[simp] theorem coreReset_answers (s : State) : (coreReset s).answers = s.answers := rfl
@[simp] theorem coreReset_hostWord (s : State) : (coreReset s).hostWord = s.hostWord := rfl
@[simp] theorem coreReset_hostOut (s : State) : (coreReset s).hostOut = s.hostOut := rfl
@[simp] theorem coreReset_hostFail (s : State) : (coreReset s).hostFail = s.hostFail := rfl
@[simp] theorem coreReset_busyDrop (s : State) : (coreReset s).busyDrop = State.reset.busyDrop := rfl
@[simp] theorem coreReset_draws (s : State) : (coreReset s).draws = s.draws := rfl

end Sys2Proof.Machine
end

