-- ==== Sys2Proof/Laws/Flow.lean ====
section
/-! SUPPORT. How pieces of pseudocode compose: one lemma per way a piece ends, the inversion of a sequence, and the
principle by which a property that the primitives keep is kept by every command. -/

namespace Sys2Proof.Machine

@[simp] theorem bind_ok {α β : Type} (a : α) (s : State) (f : α → State → Flow β) : (Flow.ok a s).bind f = f a s := rfl

@[simp] theorem bind_raised {α β : Type} (e : ErrCode) (s : State) (f : α → State → Flow β) :
    (Flow.raised e s : Flow α).bind f = .raised e s := rfl

@[simp] theorem bind_abandoned {α β : Type} (s : State) (f : α → State → Flow β) :
    (Flow.abandoned s : Flow α).bind f = .abandoned s := rfl

@[simp] theorem bind_stuck {α β : Type} (r : Fault) (f : α → State → Flow β) :
    (Flow.stuck r : Flow α).bind f = .stuck r := rfl

theorem bind_assoc {α β γ : Type} (x : Flow α) (f : α → State → Flow β) (g : β → State → Flow γ) :
    (x.bind f).bind g = x.bind fun a s => (f a s).bind g := by
  cases x <;> rfl

/-- A sequence ends with a value only if its first piece does. -/
theorem bind_eq_ok {α β : Type} {x : Flow α} {f : α → State → Flow β} {b : β} {t : State} :
    x.bind f = .ok b t ↔ ∃ a s, x = .ok a s ∧ f a s = .ok b t := by
  cases x <;> simp

/-- A sequence raises where its first piece does, or its second after it. -/
theorem bind_eq_raised {α β : Type} {x : Flow α} {f : α → State → Flow β} {e : ErrCode} {t : State} :
    x.bind f = .raised e t ↔ x = .raised e t ∨ ∃ a s, x = .ok a s ∧ f a s = .raised e t := by
  cases x <;> simp

/-- `P` holds of the state a piece of pseudocode leaves, however it ends. -/
def Flow.All {α : Type} (P : State → Prop) : Flow α → Prop
  | .ok _ s => P s
  | .raised _ s => P s
  | .abandoned s => P s
  | .stuck _ => True

/-- The piece does not stop at a fault. -/
def Flow.NotStuck {α : Type} : Flow α → Prop
  | .stuck _ => False
  | .ok _ _ => True
  | .raised _ _ => True
  | .abandoned _ => True

@[simp] theorem all_ok {α : Type} {P : State → Prop} (a : α) (s : State) : (Flow.ok a s).All P ↔ P s := Iff.rfl

@[simp] theorem all_raised {α : Type} {P : State → Prop} (e : ErrCode) (s : State) :
    (Flow.raised e s : Flow α).All P ↔ P s := Iff.rfl

@[simp] theorem all_abandoned {α : Type} {P : State → Prop} (s : State) :
    (Flow.abandoned s : Flow α).All P ↔ P s := Iff.rfl

@[simp] theorem all_stuck {α : Type} {P : State → Prop} (r : Fault) : (Flow.stuck r : Flow α).All P := trivial

/-- A sequence keeps what both its pieces keep. -/
theorem all_bind {α β : Type} {P : State → Prop} {x : Flow α} {f : α → State → Flow β} (hx : x.All P)
    (hf : ∀ a s, P s → (f a s).All P) : (x.bind f).All P := by
  cases x with
  | ok a s => exact hf a s hx
  | raised e s => exact hx
  | abandoned s => exact hx
  | stuck r => trivial

/-- What a command leaves, however its pseudocode ends (R151 to R154, R303, R331). -/
theorem runCommand_cases {body : State → Flow Unit} {s t : State} (h : runCommand body s = .next t) :
    (∃ u, body (clearOutcome s) = .ok () u ∧ t = done u) ∨
      (∃ e u, body (clearOutcome s) = .raised e u ∧ t = raiseError e u) ∨
      (∃ u, body (clearOutcome s) = .abandoned u ∧ t = coreReset u) := by
  unfold runCommand at h
  cases hb : body (clearOutcome s) with
  | ok a u => rw [hb] at h; exact .inl ⟨u, rfl, by simpa using h.symm⟩
  | raised e u => rw [hb] at h; exact .inr (.inl ⟨e, u, rfl, by simpa using h.symm⟩)
  | abandoned u => rw [hb] at h; exact .inr (.inr ⟨u, rfl, by simpa using h.symm⟩)
  | stuck r => rw [hb] at h; cases h

/-- A property that completion and reset keep is kept by a command whose pseudocode keeps it. -/
theorem runCommand_keeps {P : State → Prop} {body : State → Flow Unit} {s t : State}
    (h : runCommand body s = .next t) (hb : (body (clearOutcome s)).All P) (hd : ∀ u, P u → P (done u))
    (hr : ∀ e u, P u → P (raiseError e u)) (hc : ∀ u, P u → P (coreReset u)) : P t := by
  obtain ⟨u, hu, rfl⟩ | ⟨e, u, hu, rfl⟩ | ⟨u, hu, rfl⟩ := runCommand_cases h <;> rw [hu] at hb
  · exact hd u hb
  · exact hr e u hb
  · exact hc u hb

/-- Every command that ends leaves BUSY = 0 (R154, R303, R330). -/
theorem runCommand_not_busy {body : State → Flow Unit} {s t : State} (h : runCommand body s = .next t) :
    t.busy = false := by
  obtain ⟨u, -, rfl⟩ | ⟨e, u, -, rfl⟩ | ⟨u, -, rfl⟩ := runCommand_cases h <;> rfl

/-- A command completes where its pseudocode does not stop. -/
theorem runCommand_completes {body : State → Flow Unit} {s : State} (h : (body (clearOutcome s)).NotStuck) :
    ∃ t, runCommand body s = .next t := by
  unfold runCommand
  cases hb : body (clearOutcome s) with
  | ok a u => exact ⟨_, rfl⟩
  | raised e u => exact ⟨_, rfl⟩
  | abandoned u => exact ⟨_, rfl⟩
  | stuck r => rw [hb] at h; exact h.elim

theorem runCommand_ok {body : State → Flow Unit} {s u : State} (h : body (clearOutcome s) = .ok () u) :
    runCommand body s = .next (done u) := by
  simp [runCommand, h]

theorem runCommand_raised {body : State → Flow Unit} {s u : State} {e : ErrCode}
    (h : body (clearOutcome s) = .raised e u) : runCommand body s = .next (raiseError e u) := by
  simp [runCommand, h]

end Sys2Proof.Machine
end

