-- ==== Sys2Proof/Laws/Ports.lean ====
section
/-! SUPPORT. The port calls (R91 to R96): what each can do, what it does where the port does not fail, and what it keeps. -/

namespace Sys2Proof.Machine

@[simp] theorem afterCalls_zero (s : State) : afterCalls 0 s = s := rfl

theorem afterCalls_afterCalls (j k : Nat) (s : State) : afterCalls j (afterCalls k s) = afterCalls (k + j) s := by
  simp [afterCalls, List.drop_drop]

theorem dropAnswer_eq (s : State) : dropAnswer s = afterCalls 1 s := by simp [dropAnswer, afterCalls]

theorem afterCalls_appendOut (k : Nat) (b : BitString) (s : State) :
    afterCalls k (appendOut b s) = appendOut b (afterCalls k s) := rfl

theorem afterCalls_moveIn (k p : Nat) (s : State) : afterCalls k (moveIn p s) = moveIn p (afterCalls k s) := rfl

theorem appendOut_moveIn (b : BitString) (p : Nat) (s : State) : appendOut b (moveIn p s) = moveIn p (appendOut b s) := rfl

@[simp] theorem moveIn_moveIn (p q : Nat) (s : State) : moveIn p (moveIn q s) = moveIn p s := rfl

theorem appendOut_appendOut (a b : BitString) (s : State) : appendOut b (appendOut a s) = appendOut (a ++ b) s := by
  simp [appendOut]

@[simp] theorem appendOut_nil (s : State) : appendOut [] s = s := by simp [appendOut]

/-- Two runs of writes, one after the other. -/
theorem appendOut_afterCalls (j k : Nat) (a b : BitString) (s : State) :
    appendOut b (afterCalls k (appendOut a (afterCalls j s))) = appendOut (a ++ b) (afterCalls (j + k) s) := by
  simp [appendOut, afterCalls, List.drop_drop]

theorem portsSucceed_afterCalls {s : State} (h : PortsSucceed s) (k : Nat) : PortsSucceed (afterCalls k s) :=
  fun a ha => h a (List.mem_of_mem_drop ha)

/-- The draws still to come, after some have been made, are as good as those before. -/
theorem portsSucceed_of_drop {s t : State} (h : PortsSucceed s) (k : Nat) (ha : t.answers = s.answers.drop k) :
    PortsSucceed t := fun a hm => h a (List.mem_of_mem_drop (ha ▸ hm))

theorem nextAnswer_of_portsSucceed {s : State} (h : PortsSucceed s) : nextAnswer s = .succeeds := by
  unfold nextAnswer
  cases ha : s.answers with
  | nil => rfl
  | cons a as => exact h a (by simp [ha])

theorem nextAnswer_of_noResetInside {s : State} (h : NoResetInside s) : nextAnswer s ≠ .resetFirst := by
  unfold nextAnswer
  cases ha : s.answers with
  | nil => simp
  | cons a as =>
    intro he
    exact h (by rw [ha, ← he]; simp)

/-- A read that the port answers with success and for which IN has the bits (R91). -/
theorem readBits_val {n : Nat} {s : State} (hp : nextAnswer s = .succeeds) (h : s.inp.pos + n ≤ s.inp.bits.length) :
    readBits n s = .ok (.val (num ((remaining s).take n))) (moveIn (s.inp.pos + n) (afterCalls 1 s)) := by
  simp [readBits, hp, remaining, Nat.not_lt.mpr h, dropAnswer_eq]

/-- A read that the port answers with success and for which IN is too short: the tail is consumed (R91). -/
theorem readBits_eos {n : Nat} {s : State} (hp : nextAnswer s = .succeeds) (h : s.inp.bits.length < s.inp.pos + n) :
    readBits n s = .ok .eos (moveIn s.inp.bits.length (afterCalls 1 s)) := by
  simp [readBits, hp, h, dropAnswer_eq]

/-- A failed read (R91). -/
theorem readBits_fails {n k : Nat} {s : State} (hp : nextAnswer s = .fails k) :
    readBits n s =
      .ok .ioFail (moveIn (s.inp.pos + min k (s.inp.bits.length - s.inp.pos)) (afterCalls 1 s)) := by
  simp [readBits, hp, dropAnswer_eq]

/-- A write on an open port that answers with success (R94). -/
theorem writeBits_okay {n v : Nat} {s : State} (hp : nextAnswer s = .succeeds) (ho : s.out.closed = false) :
    writeBits n v s = .ok .okay (appendOut (bitsOf n v) (afterCalls 1 s)) := by
  simp [writeBits, hp, ho, dropAnswer_eq]

/-- A failed write on an open port appends a part of the bits, from their front (R94). -/
theorem writeBits_fails {n v k : Nat} {s : State} (hp : nextAnswer s = .fails k) (ho : s.out.closed = false) :
    writeBits n v s = .ok .ioFail (appendOut ((bitsOf n v).take k) (afterCalls 1 s)) := by
  simp [writeBits, hp, ho, dropAnswer_eq]

/-- A write on a closed port (R94). -/
theorem writeBits_closed {n v : Nat} {s : State} (ho : s.out.closed = true) : writeBits n v s = .ok .ioFail s := by
  simp [writeBits, ho]

theorem emitBits_ok {n v : Nat} {s : State} (hp : nextAnswer s = .succeeds) (ho : s.out.closed = false) :
    emitBits n v s = .ok () (appendOut (bitsOf n v) (afterCalls 1 s)) := by
  simp [emitBits, orIoError, writeBits_okay hp ho]

theorem emitBits_closed {n v : Nat} {s : State} (ho : s.out.closed = true) : emitBits n v s = .raised .io s := by
  simp [emitBits, orIoError, writeBits_closed ho]

section Keeps

variable {P : State → Prop}

/-- A read keeps what dropping an answer and moving IN.pos inside IN keep. -/
theorem readBits_all {n : Nat} {s : State} (hd : ∀ t, P t → P (dropAnswer t))
    (hm : ∀ p t, P t → (t.inp.pos ≤ t.inp.bits.length → p ≤ t.inp.bits.length) → P (moveIn p t)) (h : P s) :
    (readBits n s).All P := by
  unfold readBits
  cases nextAnswer s with
  | resetFirst => exact hd s h
  | fails k => exact hm _ _ (hd s h) (by simp only [dropAnswer_inp]; omega)
  | succeeds =>
    simp only
    split
    · exact hm _ _ (hd s h) (by simp)
    · exact hm _ _ (hd s h) (by simp only [dropAnswer_inp]; omega)

/-- A write keeps what dropping an answer and extending an open OUT keep. -/
theorem emitBits_all {n v : Nat} {s : State} (hd : ∀ t, P t → P (dropAnswer t))
    (ha : ∀ b t, P t → t.out.closed = false → P (appendOut b t)) (h : P s) : (emitBits n v s).All P := by
  unfold emitBits orIoError writeBits
  by_cases ho : s.out.closed = true
  · simp [ho, h]
  · have ho' : s.out.closed = false := by simpa using ho
    simp only [ho', Bool.false_eq_true, if_false]
    cases nextAnswer s with
    | resetFirst => exact hd s h
    | fails k => exact ha _ _ (hd s h) (by simp [ho'])
    | succeeds => exact ha _ _ (hd s h) (by simp [ho'])

theorem orIoError_resetIn_all {s : State} (hd : ∀ t, P t → P (dropAnswer t)) (hm : ∀ t, P t → P (moveIn 0 t))
    (h : P s) : (orIoError (resetIn s)).All P := by
  unfold orIoError resetIn
  cases nextAnswer s with
  | resetFirst => exact hd s h
  | fails k => exact hd s h
  | succeeds => exact hm _ (hd s h)

theorem orIoError_closeOut_all {s : State} (hd : ∀ t, P t → P (dropAnswer t)) (hf : ∀ t, P t → P (finishOut t))
    (h : P s) : (orIoError (closeOut s)).All P := by
  unfold orIoError closeOut
  by_cases ho : s.out.closed = true
  · simp [ho, h]
  · have ho' : s.out.closed = false := by simpa using ho
    simp only [ho', Bool.false_eq_true, if_false]
    cases nextAnswer s with
    | resetFirst => exact hd s h
    | fails k =>
      by_cases hk : k = 0
      · simpa [hk] using hd s h
      · simpa [hk] using hf _ (hd s h)
    | succeeds => exact hf _ (hd s h)

theorem readNode_all {i : NodeIdx} {s : State} (h : P s) : (readNode i s).All P := by
  unfold readNode
  split
  · split <;> simp [h]
  · trivial

end Keeps

/-- The record read is that of an index below NODES, and the state is unchanged (R45, R88). -/
theorem readNode_eq_ok {i : NodeIdx} {s t : State} {r : Node} :
    readNode i s = .ok r t ↔ i.toNat < s.nodes.toNat ∧ s.node[i.toNat]? = some r ∧ t = s := by
  unfold readNode
  constructor
  · intro h
    split at h
    · next hi =>
      split at h
      · next r' hr => cases h; exact ⟨hi, hr, rfl⟩
      · cases h
    · cases h
  · rintro ⟨hi, hr, rfl⟩
    simp [hi, hr]

/-- A read of the port does not stop the machine. -/
theorem readBits_notStuck (n : Nat) (s : State) : (readBits n s).NotStuck := by
  unfold readBits
  cases nextAnswer s with
  | resetFirst => trivial
  | fails k => trivial
  | succeeds => simp only; split <;> trivial

theorem emitBits_notStuck (n v : Nat) (s : State) : (emitBits n v s).NotStuck := by
  unfold emitBits orIoError writeBits
  by_cases ho : s.out.closed = true
  · simp [ho, Flow.NotStuck]
  · simp only [ho]
    cases nextAnswer s <;> simp [Flow.NotStuck]

/-- A sequence does not stop where neither of its pieces does. -/
theorem notStuck_bind {α β : Type} {x : Flow α} {f : α → State → Flow β} (hx : x.NotStuck)
    (hf : ∀ a t, x = .ok a t → (f a t).NotStuck) : (x.bind f).NotStuck := by
  cases x with
  | ok a t => exact hf a t rfl
  | raised e t => trivial
  | abandoned t => trivial
  | stuck r => exact hx.elim

end Sys2Proof.Machine
end

