-- ==== Sys2Proof/Laws/Tree.lean ====
section
/-! SUPPORT. The tree a node store holds (R47): reading it off does not depend on the rest of the state, a well-formed store
holds one, its serialized length (R192), and what its paths are (R231, R236, R237). -/

namespace Sys2Proof.Machine

/-- The tree below an index depends on NODES and the node store alone. -/
theorem treeAt_congr {s t : State} (hn : t.nodes = s.nodes) (hr : t.node = s.node) (n : Nat) (i : NodeIdx) :
    treeAt n t i = treeAt n s i := by
  induction n generalizing i with
  | zero => rfl
  | succ n ih => simp only [treeAt, hn, hr, ih]

theorem indicesAt_congr {s t : State} (hn : t.nodes = s.nodes) (hr : t.node = s.node) (n : Nat) (i : NodeIdx) :
    indicesAt n t i = indicesAt n s i := by
  induction n generalizing i with
  | zero => rfl
  | succ n ih => simp only [indicesAt, hn, hr, ih]

@[simp] theorem treeAt_moveCur (n : Nat) (i j : NodeIdx) (s : State) : treeAt n (moveCur j s) i = treeAt n s i :=
  treeAt_congr (s := s) (t := moveCur j s) rfl rfl n i

@[simp] theorem treeAt_moveIn (n p : Nat) (i : NodeIdx) (s : State) : treeAt n (moveIn p s) i = treeAt n s i :=
  treeAt_congr (s := s) (t := moveIn p s) rfl rfl n i

@[simp] theorem treeAt_afterCalls (n k : Nat) (i : NodeIdx) (s : State) : treeAt n (afterCalls k s) i = treeAt n s i :=
  treeAt_congr (s := s) (t := afterCalls k s) rfl rfl n i

@[simp] theorem treeAt_appendOut (n : Nat) (i : NodeIdx) (b : BitString) (s : State) :
    treeAt n (appendOut b s) i = treeAt n s i :=
  treeAt_congr (s := s) (t := appendOut b s) rfl rfl n i

/-- The two shapes of a tree read off a store. -/
theorem treeAt_cases {n : Nat} {s : State} {i : NodeIdx} {t : Tree} (h : treeAt (n + 1) s i = some t) :
    ∃ r, i.toNat < s.nodes.toNat ∧ s.node[i.toNat]? = some r ∧
      ((r.leaf = true ∧ t = .leaf r.sym) ∨
        (r.leaf = false ∧ ∃ l u, treeAt n s r.left = some l ∧ treeAt n s r.right = some u ∧ t = .node l u)) := by
  rw [treeAt] at h
  split at h
  · next hi =>
    cases hr : s.node[i.toNat]? with
    | none => simp [hr] at h
    | some r =>
      rw [hr] at h
      refine ⟨r, hi, rfl, ?_⟩
      cases hl : r.leaf with
      | true => left; simpa [hl, eq_comm] using h
      | false =>
        right
        simp only [hl, Bool.false_eq_true, if_false] at h
        split at h
        · next l u h1 h2 => exact ⟨rfl, l, u, h1, h2, by simpa using h.symm⟩
        · cases h
  · cases h

theorem indicesAt_cases {n : Nat} {s : State} {i : NodeIdx} {m : List Nat} (h : indicesAt (n + 1) s i = some m) :
    ∃ r, i.toNat < s.nodes.toNat ∧ s.node[i.toNat]? = some r ∧
      ((r.leaf = true ∧ m = [i.toNat]) ∨
        (r.leaf = false ∧ ∃ l u, indicesAt n s r.left = some l ∧ indicesAt n s r.right = some u ∧
          m = i.toNat :: (l ++ u))) := by
  rw [indicesAt] at h
  split at h
  · next hi =>
    cases hr : s.node[i.toNat]? with
    | none => simp [hr] at h
    | some r =>
      rw [hr] at h
      refine ⟨r, hi, rfl, ?_⟩
      cases hl : r.leaf with
      | true => left; simpa [hl, eq_comm] using h
      | false =>
        right
        simp only [hl, Bool.false_eq_true, if_false] at h
        split at h
        · next l u h1 h2 => exact ⟨rfl, l, u, h1, h2, by simpa using h.symm⟩
        · cases h
  · cases h

/-- A leaf record below NODES is a tree of one leaf. -/
theorem treeAt_leaf {n : Nat} {s : State} {i : NodeIdx} {r : Node} (hi : i.toNat < s.nodes.toNat)
    (hr : s.node[i.toNat]? = some r) (hl : r.leaf = true) : treeAt (n + 1) s i = some (.leaf r.sym) := by
  simp [treeAt, hi, hr, hl]

/-- An internal record below NODES whose children hold trees. -/
theorem treeAt_node {n : Nat} {s : State} {i : NodeIdx} {r : Node} {l u : Tree} (hi : i.toNat < s.nodes.toNat)
    (hr : s.node[i.toNat]? = some r) (hl : r.leaf = false) (h1 : treeAt n s r.left = some l)
    (h2 : treeAt n s r.right = some u) : treeAt (n + 1) s i = some (.node l u) := by
  simp [treeAt, hi, hr, hl, h1, h2]

/-- The number of internal nodes. -/
def Tree.innerCount : Tree → Nat
  | .leaf _ => 0
  | .node l r => l.innerCount + r.innerCount + 1

/-- The number of edges of the longest path. -/
def Tree.height : Tree → Nat
  | .leaf _ => 0
  | .node l r => max l.height r.height + 1

theorem Tree.leafCount_eq (t : Tree) : t.leafCount = t.innerCount + 1 := by
  induction t with
  | leaf => rfl
  | node l r hl hr => simp only [leafCount, innerCount]; omega

/-- A path has at most as many edges as the tree has internal nodes (R236). -/
theorem Tree.height_le (t : Tree) : t.height ≤ t.innerCount := by
  induction t with
  | leaf => simp [height]
  | node l r hl hr => simp only [height, innerCount]; omega

/-- 10 bits for each leaf and 1 for each internal node (R192). -/
theorem Tree.bits_length (t : Tree) : t.bits.length + 1 = 11 * t.leafCount := by
  induction t with
  | leaf => simp [bits, leafCount]
  | node l r hl hr => simp only [bits, leafCount, List.length_cons, List.length_append]; omega

/-- Where the indices can be listed a tree can be read off, with one index for each of its nodes. -/
theorem treeAt_of_indicesAt {n : Nat} {s : State} {i : NodeIdx} {m : List Nat} (h : indicesAt n s i = some m) :
    ∃ t, treeAt n s i = some t ∧ m.length = 2 * t.innerCount + 1 := by
  induction n generalizing i m with
  | zero => cases h
  | succ n ih =>
    obtain ⟨r, hi, hr, ⟨hl, rfl⟩ | ⟨hl, l, u, h1, h2, rfl⟩⟩ := indicesAt_cases h
    · exact ⟨_, treeAt_leaf hi hr hl, rfl⟩
    · obtain ⟨tl, e1, c1⟩ := ih h1
      obtain ⟨tr, e2, c2⟩ := ih h2
      refine ⟨_, treeAt_node hi hr hl e1 e2, ?_⟩
      simp only [List.length_cons, List.length_append, Tree.innerCount]
      omega

/-- A tree no higher than the bound is read off under that bound. -/
theorem treeAt_of_height {n m : Nat} {s : State} {i : NodeIdx} {t : Tree} (h : treeAt n s i = some t)
    (hm : t.height < m) : treeAt m s i = some t := by
  induction n generalizing i t m with
  | zero => cases h
  | succ n ih =>
    obtain ⟨m, rfl⟩ : ∃ k, m = k + 1 := ⟨m - 1, by omega⟩
    obtain ⟨r, hi, hr, ⟨hl, rfl⟩ | ⟨hl, l, u, h1, h2, rfl⟩⟩ := treeAt_cases h
    · exact treeAt_leaf hi hr hl
    · simp only [Tree.height] at hm
      exact treeAt_node hi hr hl (ih h1 (by omega)) (ih h2 (by omega))

theorem treeAt_height_lt {n : Nat} {s : State} {i : NodeIdx} {t : Tree} (h : treeAt n s i = some t) :
    t.height < n := by
  induction n generalizing i t with
  | zero => cases h
  | succ n ih =>
    obtain ⟨r, hi, hr, ⟨hl, rfl⟩ | ⟨hl, l, u, h1, h2, rfl⟩⟩ := treeAt_cases h
    · simp [Tree.height]
    · have := ih h1; have := ih h2; simp only [Tree.height]; omega

/-- A well-formed store holds a tree, which has one node for each record in use (R47, R236). -/
theorem WellFormedTree.heldTree {s : State} (h : WellFormedTree s) :
    ∃ t, heldTree s = some t ∧ s.nodes.toNat = 2 * t.innerCount + 1 := by
  obtain ⟨m, hm, hp⟩ := h.once
  obtain ⟨t, ht, hc⟩ := treeAt_of_indicesAt hm
  have hl : m.length = s.nodes.toNat := by simpa using hp.length_eq
  have := h.nodes_le
  have := t.height_le
  refine ⟨t, ?_, by omega⟩
  exact treeAt_of_height ht (by simp only [Config.treeDepth]; omega)

/-- The leaves of the tree held are the leaf records (R47 (d)). -/
theorem WellFormedTree.leafCount {s : State} {t : Tree} (h : WellFormedTree s) (ht : Machine.heldTree s = some t) :
    t.leafCount = s.leaves.toNat := by
  obtain ⟨u, hu, hc⟩ := h.heldTree
  have hut : u = t := Option.some.inj (hu.symm.trans ht)
  subst hut
  have := h.nodes_eq
  have := u.leafCount_eq
  have := h.nodes_pos
  omega

/-- The child that a bit leads to, and on (R231, R272); `none` past a leaf. -/
def Tree.follow : Tree → BitString → Option Tree
  | t, [] => some t
  | .leaf _, _ :: _ => none
  | .node l r, b :: p => if b then r.follow p else l.follow p

@[simp] theorem Tree.follow_nil (t : Tree) : t.follow [] = some t := by cases t <;> rfl

theorem Tree.follow_append (t : Tree) (p q : BitString) :
    t.follow (p ++ q) = (t.follow p).bind fun u => u.follow q := by
  induction p generalizing t with
  | nil => simp
  | cons b p ih =>
    cases t with
    | leaf => rfl
    | node l r => cases b <;> simp [follow, ih]

/-- The paths of a tree are the bit strings that lead to a leaf (R231). -/
theorem Tree.mem_pathsFrom {t : Tree} {p q : BitString} {sym : Nat} :
    (sym, q) ∈ t.pathsFrom p ↔ ∃ r x, q = p ++ r ∧ t.follow r = some (.leaf x) ∧ x.toNat = sym := by
  induction t generalizing p q with
  | leaf y =>
    simp only [pathsFrom, List.mem_singleton, Prod.mk.injEq]
    constructor
    · rintro ⟨rfl, rfl⟩
      exact ⟨[], y, by simp, by simp, rfl⟩
    · rintro ⟨r, x, rfl, hf, rfl⟩
      cases r with
      | nil => simp only [follow_nil, Option.some.injEq, leaf.injEq] at hf; simp [hf]
      | cons b r => simp [follow] at hf
  | node l u hl hu =>
    simp only [pathsFrom, List.mem_append, hl, hu]
    constructor
    · rintro (⟨r, x, rfl, hf, hx⟩ | ⟨r, x, rfl, hf, hx⟩)
      · exact ⟨false :: r, x, by simp, by simpa [follow] using hf, hx⟩
      · exact ⟨true :: r, x, by simp, by simpa [follow] using hf, hx⟩
    · rintro ⟨r, x, rfl, hf, hx⟩
      cases r with
      | nil => simp at hf
      | cons b r =>
        cases b
        · exact .inl ⟨r, x, by simp, by simpa [follow] using hf, hx⟩
        · exact .inr ⟨r, x, by simp, by simpa [follow] using hf, hx⟩

theorem Tree.mem_paths {t : Tree} {q : BitString} {sym : Nat} :
    (sym, q) ∈ t.paths ↔ ∃ x, t.follow q = some (.leaf x) ∧ x.toNat = sym := by
  simp [paths, mem_pathsFrom]

/-- No path is longer than the tree is high (R236). -/
theorem Tree.follow_length {t u : Tree} {q : BitString} (h : t.follow q = some u) : q.length ≤ t.height := by
  induction q generalizing t with
  | nil => simp
  | cons b q ih =>
    cases t with
    | leaf => simp [follow] at h
    | node l r =>
      simp only [follow] at h
      cases b
      · have := ih (by simpa using h); simp only [List.length_cons, height]; omega
      · have := ih (by simpa using h); simp only [List.length_cons, height]; omega

/-- A path to a leaf is a front part of another path to a leaf only if they are the same (R237). -/
theorem Tree.paths_prefix_free {t : Tree} {p q : BitString} {x y : Sym} (hp : t.follow p = some (.leaf x))
    (hq : t.follow q = some (.leaf y)) (h : p <+: q) : p = q ∧ x = y := by
  obtain ⟨r, rfl⟩ := h
  rw [follow_append, hp] at hq
  cases r with
  | nil => simpa using hq
  | cons b r => simp [follow] at hq

/-- The last path of a symbol is one of its paths (R234). -/
theorem Tree.mem_of_lastPath {t : Tree} {sym : Nat} {p : BitString} (h : t.lastPath sym = some p) :
    (sym, p) ∈ t.paths := by
  simp only [lastPath, Option.map_eq_some_iff] at h
  obtain ⟨e, he, rfl⟩ := h
  have h1 := List.mem_of_find?_eq_some he
  have h2 := List.find?_some he
  simp only [beq_iff_eq] at h2
  rw [← h2]
  simpa using h1

/-- A symbol has a last path exactly when some leaf holds it. -/
theorem Tree.lastPath_isSome {t : Tree} {sym : Nat} : (t.lastPath sym).isSome ↔ sym ∈ t.symbols := by
  simp [lastPath, symbols]

end Sys2Proof.Machine
end

