-- ==== Sys2Proof/Laws/Merge.lean ====
section
/-! SUPPORT. BUILD (spec/41_tree_builder.md): extractMin takes the least key (R173), the merge loop keeps a forest whose
indices are those of the store (R172, R174, R176), and what it ends with (R175, R178). -/

namespace Sys2Proof.Machine

/-- The key order of R173, as a proposition. -/
theorem keyLess_iff {store : List Node} {j k : Nat} :
    keyLess store j k = true ↔ (weightAt store j).toNat < (weightAt store k).toNat ∨
      ((weightAt store j).toNat = (weightAt store k).toNat ∧ j < k) := by
  simp only [keyLess, Bool.or_eq_true, Bool.and_eq_true, decide_eq_true_eq, beq_iff_eq, BitVec.lt_def, ← BitVec.toNat_inj]

/-- Two different indices have different keys (R173). -/
theorem keyLess_total {store : List Node} {j k : Nat} (h : j ≠ k) : keyLess store j k = true ∨ keyLess store k j = true := by
  simp only [keyLess_iff]; omega

theorem keyLess_trans {store : List Node} {i j k : Nat} (h1 : keyLess store i j = true) (h2 : keyLess store j k = true) :
    keyLess store i k = true := by
  simp only [keyLess_iff] at *; omega

theorem leastKey_spec (store : List Node) (rest : List Nat) (j : Nat) :
    leastKey store j rest ∈ j :: rest ∧
      ∀ k ∈ j :: rest, k = leastKey store j rest ∨ keyLess store (leastKey store j rest) k = true := by
  induction rest generalizing j with
  | nil => simp [leastKey]
  | cons k rest ih =>
    have hfold : leastKey store j (k :: rest) = leastKey store (if keyLess store k j then k else j) rest := rfl
    rw [hfold]
    obtain ⟨h1, h2⟩ := ih (if keyLess store k j then k else j)
    by_cases hk : keyLess store k j = true
    · rw [if_pos hk] at h1 h2 ⊢
      refine ⟨List.mem_cons_of_mem _ h1, fun i hi => ?_⟩
      rcases List.mem_cons.mp hi with rfl | hi
      · rcases h2 k (by simp) with he | hl
        · rw [← he]; exact .inr hk
        · exact .inr (keyLess_trans hl hk)
      · exact h2 i hi
    · rw [if_neg hk] at h1 h2 ⊢
      constructor
      · rcases List.mem_cons.mp h1 with h | h
        · rw [h]; simp
        · exact List.mem_cons_of_mem _ (List.mem_cons_of_mem _ h)
      · intro i hi
        rcases List.mem_cons.mp hi with rfl | hi
        · exact h2 i (by simp)
        · rcases List.mem_cons.mp hi with rfl | hi
          · by_cases hij : i = j
            · subst hij; exact h2 i (by simp)
            · have hji : keyLess store j i = true := (keyLess_total hij).resolve_left hk
              rcases h2 j (by simp) with he | hl
              · rw [← he]; exact .inr hji
              · exact .inr (keyLess_trans hl hji)
          · exact h2 i (by simp [hi])

/-- extractMin removes and returns the index with the least key (R173). -/
theorem extractMin_eq_some {store : List Node} {heap rest : List Nat} {m : Nat} (h : extractMin store heap = some (m, rest)) :
    m ∈ heap ∧ rest = heap.erase m ∧ ∀ k ∈ heap, k = m ∨ keyLess store m k = true := by
  cases heap with
  | nil => cases h
  | cons j r =>
    simp only [extractMin, Option.some.injEq, Prod.mk.injEq] at h
    obtain ⟨rfl, rfl⟩ := h
    exact ⟨(leastKey_spec store r j).1, rfl, (leastKey_spec store r j).2⟩

theorem extractMin_eq_none {store : List Node} {heap : List Nat} : extractMin store heap = none ↔ heap = [] := by
  cases heap <;> simp [extractMin]

/-- The indices below an index of a store, in pre-order. -/
inductive Spans (store : List Node) : Nat → List Nat → Prop where
  | leaf {i : Nat} {r : Node} (hr : store[i]? = some r) (hl : r.leaf = true) : Spans store i [i]
  | node {i : Nat} {r : Node} {l m : List Nat} (hr : store[i]? = some r) (hl : r.leaf = false)
      (h1 : Spans store r.left.toNat l) (h2 : Spans store r.right.toNat m) : Spans store i (i :: (l ++ m))

/-- A record appended to the store changes nothing below an index already there. -/
theorem Spans.append {store : List Node} {i : Nat} {l : List Nat} (h : Spans store i l) (r : Node) :
    Spans (store ++ [r]) i l := by
  have get : ∀ {j : Nat} {q : Node}, store[j]? = some q → (store ++ [r])[j]? = some q := by
    intro j q hq
    obtain ⟨hj, -⟩ := List.getElem?_eq_some_iff.mp hq
    rw [List.getElem?_append_left hj, hq]
  induction h with
  | leaf hr hl => exact .leaf (get hr) hl
  | node hr hl h1 h2 ih1 ih2 => exact .node (get hr) hl ih1 ih2

theorem Spans.length_pos {store : List Node} {i : Nat} {l : List Nat} (h : Spans store i l) : 0 < l.length := by
  cases h <;> simp

/-- A span can be listed from a state whose store and NODES are these, if the bound is no less than its length. -/
theorem Spans.indicesAt {store : List Node} {i : Nat} {l : List Nat} (h : Spans store i l) {s : State} {n : Nat}
    (hnode : ∀ j < store.length, s.node[j]? = store[j]?) (hn : s.nodes.toNat = store.length) (hl : l.length ≤ n)
    (hi : i < 1024) : Machine.indicesAt n s (BitVec.ofNat 10 i) = some l := by
  have hidx : ∀ {j : Nat}, j < 1024 → (BitVec.ofNat 10 j).toNat = j := fun hj => by rw [BitVec.toNat_ofNat]; omega
  have get : ∀ {j : Nat} {q : Node}, store[j]? = some q → j < s.nodes.toNat ∧ s.node[j]? = some q := by
    intro j q hq
    obtain ⟨hj, -⟩ := List.getElem?_eq_some_iff.mp hq
    exact ⟨by omega, by rw [hnode j hj, hq]⟩
  induction h generalizing n with
  | leaf hr hlf =>
    obtain ⟨n, rfl⟩ : ∃ m, n = m + 1 := ⟨n - 1, by simp only [List.length_singleton] at hl; omega⟩
    obtain ⟨h1, h2⟩ := get hr
    simp [Machine.indicesAt, hidx hi, h1, h2, hlf]
  | @node i r l m hr hlf s1 s2 ih1 ih2 =>
    simp only [List.length_cons, List.length_append] at hl
    obtain ⟨n, rfl⟩ : ∃ m, n = m + 1 := ⟨n - 1, by omega⟩
    obtain ⟨h1, h2⟩ := get hr
    have e1 := ih1 (n := n) (by omega) r.left.isLt
    have e2 := ih2 (n := n) (by omega) r.right.isLt
    have hb : ∀ x : NodeIdx, BitVec.ofNat 10 x.toNat = x := fun x => by simp
    rw [hb] at e1 e2
    simp [Machine.indicesAt, hidx hi, h1, h2, hlf, e1, e2]

theorem keyLess_iff_keyBefore {store : List Node} {j k : Nat} : keyLess store j k = true ↔ keyBefore store j k := keyLess_iff

/-- What the merge loop keeps: `L` leaves and total weight `T`. -/
structure Forest (L T : Nat) (store : List Node) (heap : List Nat) : Prop where
  /-- Each pass removes one index from HEAP and writes one record (R172). -/
  size : store.length + heap.length = 2 * L
  heap_pos : 0 < heap.length
  heap_le : heap.length ≤ L
  nodup : heap.Nodup
  /-- Every index of the store is below exactly one index of HEAP. -/
  spans : ∃ f : Nat → List Nat, (∀ j ∈ heap, Spans store j (f j)) ∧ (heap.flatMap f).Perm (List.range store.length)
  /-- The weights of HEAP add up to the total (R176). -/
  weights : (heap.map fun j => (weightAt store j).toNat).sum = T
  /-- Leaves come first, internal nodes after them, children below their parent, the left one with the lesser key (R174, R178). -/
  leaves : ∀ (j : Nat) (r : Node), store[j]? = some r → (r.leaf = true ↔ j < L)
  inner : ∀ (j : Nat) (r : Node), store[j]? = some r → r.leaf = false →
    r.left.toNat < j ∧ r.right.toNat < j ∧ keyLess store r.left.toNat r.right.toNat = true ∧
      r.weight.toNat = (weightAt store r.left.toNat).toNat + (weightAt store r.right.toNat).toNat ∧ r.sym = 0
  /-- HEAP holds the indices not merged yet (R172). -/
  live : ∀ j, j ∈ heap ↔ unmerged store store.length j
  /-- Each merge took the least index that was in HEAP, and then the least of the others (R173, R174). -/
  greedy : ∀ (i : Nat) (r : Node), store[i]? = some r → r.leaf = false →
    unmerged store i r.left.toNat ∧ unmerged store i r.right.toNat ∧
      ∀ j, unmerged store i j → (j = r.left.toNat ∨ keyBefore store r.left.toNat j) ∧
        (j = r.left.toNat ∨ j = r.right.toNat ∨ keyBefore store r.right.toNat j)

/-- A record appended to the store does not change what was unmerged before. -/
theorem unmerged_append {store : List Node} {i j : Nat} (h : i ≤ store.length) (r : Node) :
    unmerged (store ++ [r]) i j ↔ unmerged store i j := by
  have get : ∀ k < i, (store ++ [r])[k]? = store[k]? := fun k hk => List.getElem?_append_left (by omega)
  constructor
  · rintro ⟨h1, h2⟩
    exact ⟨h1, fun k hk q hq hl => h2 k hk q (by rw [get k hk]; exact hq) hl⟩
  · rintro ⟨h1, h2⟩
    exact ⟨h1, fun k hk q hq hl => h2 k hk q (by rw [← get k hk]; exact hq) hl⟩

theorem weightAt_append {store : List Node} {j : Nat} (h : j < store.length) (r : Node) :
    weightAt (store ++ [r]) j = weightAt store j := by
  simp only [weightAt, List.getD_eq_getElem?_getD, List.getElem?_append_left h]

theorem weightAt_last (store : List Node) (r : Node) : weightAt (store ++ [r]) store.length = r.weight := by
  simp [weightAt, List.getD_eq_getElem?_getD]

theorem keyLess_append {store : List Node} {j k : Nat} (hj : j < store.length) (hk : k < store.length) (r : Node) :
    keyLess (store ++ [r]) j k = keyLess store j k := by
  simp only [keyLess, weightAt_append hj, weightAt_append hk]

theorem Forest.lt {L T : Nat} {store : List Node} {heap : List Nat} (h : Forest L T store heap) {j : Nat} (hj : j ∈ heap) :
    j < store.length := by
  obtain ⟨f, hs, -⟩ := h.spans
  have hj := hs j hj
  generalize f j = l at hj
  cases hj with
  | leaf hr _ => exact (List.getElem?_eq_some_iff.mp hr).1
  | node hr _ _ _ => exact (List.getElem?_eq_some_iff.mp hr).1

theorem sum_le_of_mem {l : List Nat} {f : Nat → Nat} {a b : Nat} (hn : l.Nodup) (ha : a ∈ l) (hb : b ∈ l) (hab : a ≠ b) :
    (l.map f).sum = f a + (f b + (((l.erase a).erase b).map f).sum) := by
  have p1 := (List.perm_cons_erase ha).map f
  have hb' : b ∈ l.erase a := (hn.mem_erase_iff).mpr ⟨fun h => hab h.symm, hb⟩
  have p2 := (List.perm_cons_erase hb').map f
  rw [p1.sum_eq, List.map_cons, List.sum_cons, p2.sum_eq, List.map_cons, List.sum_cons]

/-- One merge keeps the forest (R174). -/
theorem Forest.merge {L T : Nat} {store : List Node} {heap : List Nat} (h : Forest L T store heap) (hL : L ≤ 257)
    (hT : T < 2 ^ 40) {a b : Nat} (ha : a ∈ heap) (hb : b ∈ heap) (hab : keyLess store a b = true) (hne : a ≠ b)
    (hmina : ∀ k ∈ heap, k = a ∨ keyLess store a k = true)
    (hminb : ∀ k ∈ heap.erase a, k = b ∨ keyLess store b k = true) :
    Forest L T (store ++ [mergedNode store a b]) ((heap.erase a).erase b ++ [store.length]) := by
  have hb' : b ∈ heap.erase a := (h.nodup.mem_erase_iff).mpr ⟨fun e => hne e.symm, hb⟩
  have la := h.lt ha
  have lb := h.lt hb
  have hlen : ((heap.erase a).erase b).length + 2 = heap.length := by
    rw [List.length_erase_of_mem hb', List.length_erase_of_mem ha]
    have := List.length_pos_of_mem hb'
    rw [List.length_erase_of_mem ha] at this
    omega
  have hsize := h.size
  have hle := h.heap_le
  have ia : (BitVec.ofNat 10 a).toNat = a := by rw [BitVec.toNat_ofNat]; omega
  have ib : (BitVec.ofNat 10 b).toNat = b := by rw [BitVec.toNat_ofNat]; omega
  have hsum := sum_le_of_mem (f := fun j => (weightAt store j).toNat) h.nodup ha hb hne
  rw [h.weights] at hsum
  have hw : (weightAt store a + weightAt store b).toNat = (weightAt store a).toNat + (weightAt store b).toNat := by
    rw [BitVec.toNat_add]; omega
  have hmem : ∀ j ∈ (heap.erase a).erase b, j ∈ heap := fun j hj => List.mem_of_mem_erase (List.mem_of_mem_erase hj)
  have hnew : ∀ j, (store ++ [mergedNode store a b])[j]? = some (mergedNode store a b) ∧ j = store.length ∨
      j < store.length ∧ (store ++ [mergedNode store a b])[j]? = store[j]? ∨
      (store ++ [mergedNode store a b])[j]? = none := by
    intro j
    rcases Nat.lt_trichotomy j store.length with hj | hj | hj
    · exact .inr (.inl ⟨hj, List.getElem?_append_left hj⟩)
    · left; subst hj; simp
    · right; right; rw [List.getElem?_eq_none]; simp; omega
  refine ⟨?_, ?_, ?_, ?_, ?_, ?_, ?_, ?_, ?_, ?_⟩
  · simp only [List.length_append, List.length_singleton]; omega
  · simp
  · simp only [List.length_append, List.length_singleton]; omega
  · rw [List.nodup_append]
    refine ⟨(h.nodup.erase a).erase b, by simp, fun x hx y hy => ?_⟩
    have := h.lt (hmem x hx)
    simp only [List.mem_singleton] at hy
    omega
  · obtain ⟨f, hs, hp⟩ := h.spans
    refine ⟨fun j => if j = store.length then store.length :: (f a ++ f b) else f j, fun j hj => ?_, ?_⟩
    · rcases List.mem_append.mp hj with hj | hj
      · have := h.lt (hmem j hj)
        simp only [show j ≠ store.length by omega, if_false]
        exact (hs j (hmem j hj)).append _
      · simp only [List.mem_singleton] at hj
        subst hj
        simp only [if_true]
        refine .node (r := mergedNode store a b) (by simp) rfl ?_ ?_
        · rw [show (mergedNode store a b).left.toNat = a from ia]; exact (hs a ha).append _
        · rw [show (mergedNode store a b).right.toNat = b from ib]; exact (hs b hb).append _
    · have e1 : ((heap.erase a).erase b).flatMap (fun j => if j = store.length then store.length :: (f a ++ f b) else f j) =
          ((heap.erase a).erase b).flatMap f := by
        apply List.flatMap_congr
        intro j hj
        have := h.lt (hmem j hj)
        simp only [show j ≠ store.length by omega, if_false]
      rw [List.flatMap_append, e1]
      simp only [List.flatMap_singleton, if_true, List.length_append, List.length_singleton, List.range_succ]
      have p1 : heap.Perm (a :: b :: (heap.erase a).erase b) :=
        (List.perm_cons_erase ha).trans ((List.perm_cons_erase hb').cons a)
      have p2 : (heap.flatMap f).Perm (f a ++ (f b ++ ((heap.erase a).erase b).flatMap f)) := by
        have := p1.flatMap_right f
        simpa [List.flatMap_cons] using this
      have p3 := p2.symm.trans hp
      have p4 : (((heap.erase a).erase b).flatMap f ++ store.length :: (f a ++ f b)).Perm
          (store.length :: (f a ++ (f b ++ ((heap.erase a).erase b).flatMap f))) := by
        rw [← List.append_assoc (f a)]
        exact List.perm_append_comm
      exact p4.trans ((p3.cons _).trans (List.perm_append_singleton _ _).symm)
  · have e1 : ((heap.erase a).erase b).map (fun j => (weightAt (store ++ [mergedNode store a b]) j).toNat) =
        ((heap.erase a).erase b).map fun j => (weightAt store j).toNat := by
      apply List.map_congr_left
      intro j hj
      rw [weightAt_append (h.lt (hmem j hj))]
    rw [List.map_append, List.sum_append, e1]
    simp only [List.map_cons, List.map_nil, List.sum_cons, List.sum_nil, weightAt_last, mergedNode, internalNode, hw]
    omega
  · intro j r hr
    rcases hnew j with ⟨he, rfl⟩ | ⟨hj, he⟩ | he
    · rw [he] at hr; cases hr
      simp only [mergedNode, internalNode, Bool.false_eq_true, false_iff]
      omega
    · rw [he] at hr; exact h.leaves j r hr
    · rw [he] at hr; cases hr
  · intro j r hr hlf
    rcases hnew j with ⟨he, rfl⟩ | ⟨hj, he⟩ | he
    · rw [he] at hr; cases hr
      simp only [mergedNode, internalNode, ia, ib, hw]
      rw [weightAt_append la, weightAt_append lb, keyLess_append la lb]
      exact ⟨la, lb, hab, rfl, trivial⟩
    · rw [he] at hr
      obtain ⟨h1, h2, h3, h4⟩ := h.inner j r hr hlf
      rw [weightAt_append (by omega), weightAt_append (by omega), keyLess_append (by omega) (by omega)]
      exact ⟨h1, h2, h3, h4⟩
    · rw [he] at hr; cases hr
  · intro j
    have hmem2 : j ∈ (heap.erase a).erase b ↔ j ∈ heap ∧ j ≠ a ∧ j ≠ b := by
      rw [(h.nodup.erase a).mem_erase_iff, h.nodup.mem_erase_iff]; tauto
    rw [List.mem_append, List.mem_singleton, hmem2, List.length_append, List.length_singleton, h.live]
    constructor
    · rintro (⟨⟨h1, h2⟩, h3, h4⟩ | rfl)
      · refine ⟨by omega, fun k hk r hr hlf => ?_⟩
        rcases hnew k with ⟨he, rfl⟩ | ⟨hk', he⟩ | he
        · rw [he] at hr; cases hr
          simp only [mergedNode, internalNode, ia, ib]
          exact ⟨fun e => h3 e.symm, fun e => h4 e.symm⟩
        · rw [he] at hr; exact h2 k hk' r hr hlf
        · rw [he] at hr; cases hr
      · refine ⟨by omega, fun k hk r hr hlf => ?_⟩
        rcases hnew k with ⟨he, rfl⟩ | ⟨hk', he⟩ | he
        · rw [he] at hr; cases hr
          simp only [mergedNode, internalNode, ia, ib]
          omega
        · rw [he] at hr
          obtain ⟨h1, h2, -⟩ := h.inner k r hr hlf
          omega
        · rw [he] at hr; cases hr
    · rintro ⟨h1, h2⟩
      by_cases hj : j = store.length
      · exact .inr hj
      · obtain ⟨h3, h4⟩ := h2 store.length (by omega) (mergedNode store a b) (by simp) rfl
        simp only [mergedNode, internalNode, ia, ib] at h3 h4
        refine .inl ⟨⟨by omega, fun k hk r hr hlf => h2 k (by omega) r ?_ hlf⟩, fun e => h3 e.symm, fun e => h4 e.symm⟩
        rw [List.getElem?_append_left hk]; exact hr
  · intro i r hr hlf
    have key : ∀ {j k : Nat}, j < store.length → k < store.length →
        (keyBefore (store ++ [mergedNode store a b]) j k ↔ keyBefore store j k) := by
      intro j k hj hk
      rw [keyBefore, weightAt_append hj, weightAt_append hk]; rfl
    rcases hnew i with ⟨he, rfl⟩ | ⟨hi, he⟩ | he
    · rw [he] at hr; cases hr
      rw [show (mergedNode store a b).left.toNat = a from ia, show (mergedNode store a b).right.toNat = b from ib]
      simp only [unmerged_append (Nat.le_refl _), ← h.live]
      refine ⟨ha, hb, fun j hj => ?_⟩
      have hjl := h.lt hj
      rw [key la hjl, key lb hjl, ← keyLess_iff_keyBefore, ← keyLess_iff_keyBefore]
      refine ⟨hmina j hj, ?_⟩
      by_cases hja : j = a
      · exact .inl hja
      · exact .inr (hminb j ((h.nodup.mem_erase_iff).mpr ⟨hja, hj⟩))
    · rw [he] at hr
      obtain ⟨h1, h2, h3⟩ := h.greedy i r hr hlf
      simp only [unmerged_append (Nat.le_of_lt hi)]
      refine ⟨h1, h2, fun j hj => ?_⟩
      have := h1.1
      have := h2.1
      have := hj.1
      rw [key (by omega) (by omega), key (by omega) (by omega)]
      exact h3 j hj
    · rw [he] at hr; cases hr

/-- The loop ends with one index in HEAP, after as many merges as there were indices but one (R175), and the records it
started from stand. -/
theorem mergeLoop_spec {L T : Nat} (hL : L ≤ 257) (hT : T < 2 ^ 40) (n : Nat) (store : List Node) (heap : List Nat)
    (h : Forest L T store heap) (hn : heap.length ≤ n + 1) :
    ∃ root, (mergeLoop n store heap).2 = [root] ∧ Forest L T (mergeLoop n store heap).1 [root] ∧
      store <+: (mergeLoop n store heap).1 := by
  induction n generalizing store heap with
  | zero =>
    have hpos := h.heap_pos
    obtain ⟨j, rfl⟩ : ∃ j, heap = [j] := List.length_eq_one_iff.mp (by omega)
    exact ⟨j, rfl, h, List.prefix_refl _⟩
  | succ n ih =>
    have hpos := h.heap_pos
    rw [mergeLoop]
    cases h1 : extractMin store heap with
    | none =>
      have := extractMin_eq_none.mp h1
      subst this
      simp at hpos
    | some p =>
      obtain ⟨a, heap₁⟩ := p
      obtain ⟨ha, rfl, hmin⟩ := extractMin_eq_some h1
      simp only
      cases h2 : extractMin store (heap.erase a) with
      | none =>
        have he := extractMin_eq_none.mp h2
        have hl : heap.length = 1 := by
          have := List.length_erase_of_mem ha
          rw [he] at this
          simp only [List.length_nil] at this
          omega
        obtain ⟨j, rfl⟩ := List.length_eq_one_iff.mp hl
        exact ⟨j, rfl, h, List.prefix_refl _⟩
      | some q =>
        obtain ⟨b, heap₂⟩ := q
        obtain ⟨hb', rfl, hminb⟩ := extractMin_eq_some h2
        have hbm := (h.nodup.mem_erase_iff).mp hb'
        have hab : keyLess store a b = true := (hmin b hbm.2).resolve_left hbm.1
        have hf := h.merge hL hT ha hbm.2 hab (fun e => hbm.1 e.symm) hmin hminb
        simp only
        obtain ⟨root, e1, e2, e3⟩ := ih _ _ hf (by
          have h3 := List.length_erase_of_mem hb'
          have h4 := List.length_erase_of_mem ha
          have h5 := List.length_pos_of_mem hb'
          simp only [List.length_append, List.length_singleton]
          omega)
        exact ⟨root, e1, e2, (List.prefix_append _ _).trans e3⟩

end Sys2Proof.Machine
end

