-- ==== Sys2Proof/Laws/Build.lean ====
section
/-! SUPPORT. BUILD as a whole (spec/41_tree_builder.md): the leaves it starts from (R171), how many records it writes and
which is the root (R175, R178), and that what it leaves is well formed (R47). -/

namespace Sys2Proof.Machine

theorem byteLeaves_spec {freq : List Word} {r : Node} (h : r ∈ byteLeaves freq) :
    r.leaf = true ∧ r.sym.toNat < 256 ∧ r.weight.toNat < 2 ^ 32 := by
  simp only [byteLeaves, List.mem_filterMap, List.mem_range] at h
  obtain ⟨x, hx, h⟩ := h
  split at h
  · cases h
    refine ⟨rfl, ?_, ?_⟩
    · simp only [leafNode, BitVec.toNat_ofNat, Config.nFreq] at *; omega
    · simp only [leafNode, zext40, BitVec.toNat_setWidth]
      have := (freq.getD x 0).isLt
      omega
  · cases h

theorem byteLeaves_length_le (freq : List Word) : (byteLeaves freq).length ≤ 256 :=
  (List.length_filterMap_le _ _).trans (by simp [Config.nFreq])

theorem buildLeaves_length (freq : List Word) :
    1 ≤ (buildLeaves freq).length ∧ (buildLeaves freq).length ≤ 257 := by
  have := byteLeaves_length_le freq
  simp only [buildLeaves, List.length_append, List.length_singleton]
  omega

theorem buildLeaves_leaf {freq : List Word} {r : Node} (h : r ∈ buildLeaves freq) : r.leaf = true := by
  rcases List.mem_append.mp h with h | h
  · exact (byteLeaves_spec h).1
  · simp only [List.mem_singleton] at h; rw [h]; rfl

/-- The symbols of the byte leaves are distinct (R171). -/
theorem byteLeaves_nodup (freq : List Word) : ((byteLeaves freq).map (·.sym)).Nodup := by
  have h : (byteLeaves freq).map (·.sym) =
      ((List.range Config.nFreq).filter fun x => freq.getD x 0 ≠ 0).map (BitVec.ofNat 9) := by
    simp only [byteLeaves]
    induction List.range Config.nFreq with
    | nil => rfl
    | cons x l ih =>
      by_cases hx : freq.getD x 0 = 0
      · rw [List.filterMap_cons_none (by simp only [hx, ne_eq, not_true_eq_false, if_false]),
          List.filter_cons_of_neg (by simp only [hx, ne_eq, not_true_eq_false, decide_false, Bool.false_eq_true, not_false_eq_true])]
        exact ih
      · rw [List.filterMap_cons_some (b := leafNode (BitVec.ofNat 9 x) (zext40 (freq.getD x 0)))
            (by simp only [hx, ne_eq, not_false_eq_true, if_true]),
          List.filter_cons_of_pos (by simp only [hx, ne_eq, not_false_eq_true, decide_true]), List.map_cons, List.map_cons, ih]
        rfl
  rw [h]
  refine List.Nodup.map_on ?_ (List.nodup_range.filter _)
  intro x hx y hy hxy
  simp only [List.mem_filter, List.mem_range, Config.nFreq] at hx hy
  have := congrArg BitVec.toNat hxy
  simp only [BitVec.toNat_ofNat] at this
  omega

/-- The total weight fits in the 40 bits of WEIGHT (R176). -/
theorem buildLeaves_weight (freq : List Word) : ((buildLeaves freq).map (·.weight.toNat)).sum < 2 ^ 40 := by
  have h : ((byteLeaves freq).map (·.weight.toNat)).sum ≤ ((byteLeaves freq).map (·.weight.toNat)).length • (2 ^ 32 - 1) :=
    List.sum_le_card_nsmul _ _ fun w hw => by
      obtain ⟨r, hr, rfl⟩ := List.mem_map.mp hw
      have := (byteLeaves_spec hr).2.2
      omega
  have hl := byteLeaves_length_le freq
  simp only [List.length_map, smul_eq_mul] at h
  simp only [buildLeaves, List.map_append, List.sum_append, List.map_cons, List.map_nil, List.sum_cons, List.sum_nil, leafNode,
    Config.eofWeight]
  have e1 : (1 : Weight).toNat = 1 := rfl
  have := Nat.mul_le_mul_right (2 ^ 32 - 1) hl
  omega

theorem map_getD_range (freq : List Word) (h : freq.length = 256) :
    ((List.range Config.nFreq).map fun x => freq.getD x 0) = freq := by
  apply List.ext_getElem
  · simp [h, Config.nFreq]
  · intro j h1 h2
    simp [List.getD_eq_getElem?_getD, List.getElem?_eq_getElem h2]

/-- There is one byte leaf for each nonzero count (R171, R177). -/
theorem byteLeaves_length (freq : List Word) (h : freq.length = 256) :
    (byteLeaves freq).length = freq.countP (· ≠ 0) := by
  conv_rhs => rw [← map_getD_range freq h]
  rw [byteLeaves]
  induction List.range Config.nFreq with
  | nil => rfl
  | cons x l ih =>
    rw [List.map_cons, List.countP_cons]
    by_cases hx : freq.getD x 0 = 0
    · rw [List.filterMap_cons_none (by simp only [hx, ne_eq, not_true_eq_false, if_false]), ih]
      simp only [ne_eq, hx, not_true_eq_false, decide_false, Bool.false_eq_true, if_false, Nat.add_zero]
    · rw [List.filterMap_cons_some (b := leafNode (BitVec.ofNat 9 x) (zext40 (freq.getD x 0)))
        (by simp only [hx, ne_eq, not_false_eq_true, if_true]), List.length_cons, ih]
      simp only [ne_eq, hx, not_false_eq_true, decide_true, if_true]

/-- The weights of the leaves add up to 1 + Σ FREQ (R176). -/
theorem buildLeaves_weight_eq (freq : List Word) (h : freq.length = 256) :
    ((buildLeaves freq).map (·.weight.toNat)).sum = 1 + (freq.map (·.toNat)).sum := by
  have e : ((byteLeaves freq).map (·.weight.toNat)).sum = (freq.map (·.toNat)).sum := by
    conv_rhs => rw [← map_getD_range freq h]
    rw [byteLeaves]
    induction List.range Config.nFreq with
    | nil => rfl
    | cons x l ih =>
      rw [List.map_cons, List.map_cons, List.sum_cons, ← ih]
      by_cases hx : freq.getD x 0 = 0
      · rw [List.filterMap_cons_none (by simp only [hx, ne_eq, not_true_eq_false, if_false]), hx]
        simp
      · rw [List.filterMap_cons_some (b := leafNode (BitVec.ofNat 9 x) (zext40 (freq.getD x 0)))
          (by simp only [hx, ne_eq, not_false_eq_true, if_true]), List.map_cons, List.sum_cons]
        congr 1
  rw [buildLeaves, List.map_append, List.sum_append, e]
  simp [leafNode, Config.eofWeight, Nat.add_comm]

theorem map_weightAt_range (l : List Node) :
    ((List.range l.length).map fun j => (weightAt l j).toNat) = l.map (·.weight.toNat) := by
  apply List.ext_getElem
  · simp
  · intro j h1 h2
    simp only [List.length_map, List.length_range] at h1
    simp [weightAt, List.getD_eq_getElem?_getD, List.getElem?_eq_getElem h1]

/-- The forest BUILD starts from (R171, R172). -/
theorem forest_buildLeaves (freq : List Word) :
    Forest (buildLeaves freq).length ((buildLeaves freq).map (·.weight.toNat)).sum (buildLeaves freq)
      (List.range (buildLeaves freq).length) where
  size := by simp; omega
  heap_pos := by have := (buildLeaves_length freq).1; simp; omega
  heap_le := by simp
  nodup := List.nodup_range
  spans := by
    refine ⟨fun j => [j], fun j hj => ?_, ?_⟩
    · have hj := List.mem_range.mp hj
      exact .leaf (List.getElem?_eq_getElem hj) (buildLeaves_leaf (List.getElem_mem hj))
    · simp
  weights := by rw [map_weightAt_range]
  leaves := fun j r hr => by
    obtain ⟨hj, rfl⟩ := List.getElem?_eq_some_iff.mp hr
    simp [buildLeaves_leaf (List.getElem_mem hj), hj]
  inner := fun j r hr hl => by
    obtain ⟨hj, rfl⟩ := List.getElem?_eq_some_iff.mp hr
    simp [buildLeaves_leaf (List.getElem_mem hj)] at hl
  live := fun j => by
    rw [List.mem_range]
    refine ⟨fun h => ⟨h, fun k _ r hr hl => ?_⟩, fun h => h.1⟩
    obtain ⟨hk, rfl⟩ := List.getElem?_eq_some_iff.mp hr
    simp [buildLeaves_leaf (List.getElem_mem hk)] at hl
  greedy := fun j r hr hl => by
    obtain ⟨hj, rfl⟩ := List.getElem?_eq_some_iff.mp hr
    simp [buildLeaves_leaf (List.getElem_mem hj)] at hl

/-- No index below an index is above it, in the store of a forest (R178). -/
theorem Forest.span_le {L T : Nat} {store : List Node} {heap : List Nat} (h : Forest L T store heap) {i : Nat} {l : List Nat}
    (hs : Spans store i l) : ∀ k ∈ l, k ≤ i := by
  induction hs with
  | leaf hr hl => simp
  | @node i r l m hr hl h1 h2 ih1 ih2 =>
    obtain ⟨a, b, -⟩ := h.inner i r hr hl
    intro k hk
    simp only [List.mem_cons, List.mem_append] at hk
    rcases hk with rfl | hk | hk
    · exact Nat.le_refl _
    · have := ih1 k hk; omega
    · have := ih2 k hk; omega

/-- The forest BUILD ends with (R175, R178). -/
theorem buildTree_spec (freq : List Word) :
    (buildTree freq).2 = [2 * (buildLeaves freq).length - 2] ∧
      Forest (buildLeaves freq).length ((buildLeaves freq).map (·.weight.toNat)).sum (buildTree freq).1
        [2 * (buildLeaves freq).length - 2] ∧
      buildLeaves freq <+: (buildTree freq).1 := by
  obtain ⟨root, h1, h2, h3⟩ := mergeLoop_spec (buildLeaves_length freq).2 (buildLeaves_weight freq)
    (buildLeaves freq).length (buildLeaves freq) (List.range (buildLeaves freq).length) (forest_buildLeaves freq) (by simp)
  have hroot : root = 2 * (buildLeaves freq).length - 2 := by
    obtain ⟨f, hs, hp⟩ := h2.spans
    have hsz := h2.size
    simp only [List.length_singleton] at hsz
    have hlt := h2.lt (j := root) (by simp)
    have hL := (buildLeaves_length freq).1
    have hmem : 2 * (buildLeaves freq).length - 2 ∈ [root].flatMap f := hp.mem_iff.mpr (by rw [List.mem_range]; omega)
    simp only [List.flatMap_singleton] at hmem
    have := h2.span_le (hs root (by simp)) _ hmem
    omega
  subst hroot
  exact ⟨h1, h2, h3⟩

/-- How many records BUILD writes (R178). -/
theorem buildTree_length (freq : List Word) : (buildTree freq).1.length = 2 * (buildLeaves freq).length - 1 := by
  have h := (buildTree_spec freq).2.1.size
  simp only [List.length_singleton] at h
  omega

/-- The leaves stand at the front of the store, internal nodes after them (R178). -/
theorem buildTree_split (freq : List Word) :
    ∃ rest, (buildTree freq).1 = buildLeaves freq ++ rest ∧ ∀ r ∈ rest, r.leaf = false ∧ r.sym = 0 := by
  obtain ⟨-, hf, ⟨rest, hrest⟩⟩ := buildTree_spec freq
  refine ⟨rest, hrest.symm, fun r hr => ?_⟩
  obtain ⟨j, hj, rfl⟩ := List.getElem_of_mem hr
  have hget : (buildTree freq).1[(buildLeaves freq).length + j]? = some rest[j] := by
    rw [← hrest, List.getElem?_append_right (by omega), Nat.add_sub_cancel_left, List.getElem?_eq_getElem hj]
  have hl : rest[j].leaf = false := by
    have := hf.leaves _ _ hget
    cases hb : rest[j].leaf with
    | false => rfl
    | true => have := this.mp hb; omega
  exact ⟨hl, (hf.inner _ _ hget hl).2.2.2.2⟩

theorem usedRecords_buildEffect (s : State) : usedRecords (buildEffect s) = (buildTree s.freq).1 := by
  have hlen := buildTree_length s.freq
  have hL := buildLeaves_length s.freq
  simp only [usedRecords, buildEffect, writeRecords, clearTable, BitVec.toNat_ofNat]
  rw [Nat.mod_eq_of_lt (by omega), List.take_left']
  rfl

theorem buildLeaves_count (freq : List Word) : (buildTree freq).1.countP (·.leaf) = (buildLeaves freq).length := by
  obtain ⟨rest, hs, hr⟩ := buildTree_split freq
  rw [hs, List.countP_append, List.countP_eq_length.mpr fun r h => buildLeaves_leaf h,
    List.countP_eq_zero.mpr fun r h => by simp [(hr r h).1], Nat.add_zero]

/-- BUILD leaves a well-formed tree (R47 (a) to (d)). -/
theorem wellFormedTree_buildEffect (s : State) : WellFormedTree (buildEffect s) := by
  obtain ⟨hheap, hf, -⟩ := buildTree_spec s.freq
  have hlen := buildTree_length s.freq
  have hL := buildLeaves_length s.freq
  have hnodes : (buildEffect s).nodes.toNat = (buildTree s.freq).1.length := by
    simp only [buildEffect, BitVec.toNat_ofNat]; omega
  have hroot : (buildEffect s).root = BitVec.ofNat 10 (2 * (buildLeaves s.freq).length - 2) := by
    simp only [buildEffect, hheap]; rfl
  have hleaves : (buildEffect s).leaves.toNat = (buildLeaves s.freq).length := by
    simp only [buildEffect, BitVec.toNat_ofNat]; omega
  refine ⟨by omega, by omega, ?_, ?_, ?_, ?_, by omega⟩
  · rw [hroot, BitVec.toNat_ofNat]; omega
  · rw [usedRecords_buildEffect]
    intro r hr hl
    obtain ⟨j, hj, rfl⟩ := List.getElem_of_mem hr
    obtain ⟨h1, h2, h3, -⟩ := hf.inner j _ (List.getElem?_eq_getElem hj) hl
    refine ⟨by omega, by omega, fun he => ?_⟩
    rw [he, keyLess_iff] at h3
    omega
  · obtain ⟨f, hs, hp⟩ := hf.spans
    have hspan := hs _ (List.mem_singleton.mpr rfl)
    simp only [List.flatMap_singleton] at hp
    refine ⟨_, hroot ▸ hspan.indicesAt ?_ hnodes ?_ (by omega), by rw [hnodes]; exact hp⟩
    · intro j hj
      simp only [buildEffect, writeRecords, clearTable]
      exact List.getElem?_append_left hj
    · rw [hp.length_eq]; simp only [List.length_range, Config.nodeCap]; omega
  · rw [usedRecords_buildEffect, buildLeaves_count, hleaves]

/-- BUILD leaves a tree with the symbols of R47 (e). -/
theorem buildSymbols_buildEffect (s : State) : BuildSymbols (buildEffect s) := by
  obtain ⟨rest, hs, hr⟩ := buildTree_split s.freq
  have hfilter : (buildTree s.freq).1.filter (·.leaf) = buildLeaves s.freq := by
    rw [hs, List.filter_append, List.filter_eq_self.mpr fun r h => buildLeaves_leaf h,
      List.filter_eq_nil_iff.mpr fun r h => by simp [(hr r h).1], List.append_nil]
  constructor <;> rw [usedRecords_buildEffect]
  · intro r h
    rw [hs] at h
    rcases List.mem_append.mp h with h | h
    · rcases List.mem_append.mp h with h | h
      · have := (byteLeaves_spec h).2.1; omega
      · simp only [List.mem_singleton] at h; subst h; simp [leafNode, Config.pseudoEof]
    · simp [(hr r h).2]
  · rw [hfilter, buildLeaves, List.map_append, List.nodup_append]
    refine ⟨byteLeaves_nodup _, by simp, fun x hx y hy => ?_⟩
    obtain ⟨r, h, rfl⟩ := List.mem_map.mp hx
    have := (byteLeaves_spec h).2.1
    simp only [List.map_cons, List.map_nil, List.mem_singleton, leafNode] at hy
    subst hy
    intro he
    rw [he] at this
    simp [Config.pseudoEof] at this
  · rw [hfilter, buildLeaves, List.countP_append, List.countP_eq_zero.mpr]
    · simp [leafNode, Config.pseudoEof]
    · intro r h
      have := (byteLeaves_spec h).2.1
      simp only [Config.pseudoEof, decide_eq_true_eq]
      omega

end Sys2Proof.Machine
end

