-- ==== Sys2Proof/Laws/Table.lean ====
section
/-! SUPPORT. GENTAB, ENC and ENCALL (spec/43_code_table.md, spec/44_encoder.md): what they keep, and what they do. -/

namespace Sys2Proof.Machine

/-- GENTAB keeps what a written entry and a cleared table keep. -/
theorem genNode_all {P : State → Prop} (hw : ∀ i p t, P t → p.length ≤ 256 → P (writeCode i (pathEntry p) t))
    (hc : ∀ t, P t → P (clearTable t)) (n : Nat) (i : NodeIdx) (p : BitString) (s : State) (hn : p.length + n ≤ 257)
    (h : P s) : (genNode n i p s).All P := by
  induction n generalizing i p s with
  | zero => trivial
  | succ n ih =>
    refine all_bind (readNode_all h) fun r s h => ?_
    cases hl : r.leaf with
    | true =>
      simp only [if_true]
      split
      · exact hc s h
      · exact hw _ _ _ h (by omega)
    | false =>
      simp only [Bool.false_eq_true, if_false]
      exact all_bind (ih _ _ s (by simp only [List.length_append, List.length_singleton]; omega) h) fun _ s h =>
        ih _ _ s (by simp only [List.length_append, List.length_singleton]; omega) h

/-- The entries GENTAB writes for a tree, in pre-order (R230, R231). -/
def writeEntries (es : List (Nat × BitString)) (s : State) : State :=
  es.foldl (fun s e => writeCode e.1 (pathEntry e.2) s) s

theorem writeEntries_eq (es : List (Nat × BitString)) (s : State) :
    writeEntries es s = { s with code := es.foldl (fun c e => c.set e.1 (pathEntry e.2)) s.code } := by
  induction es generalizing s with
  | nil => rfl
  | cons e es ih => simp only [writeEntries, List.foldl_cons] at ih ⊢; rw [ih]; rfl

theorem writeEntries_append (es fs : List (Nat × BitString)) (s : State) :
    writeEntries (es ++ fs) s = writeEntries fs (writeEntries es s) := by simp [writeEntries]

theorem writeEntries_nodes (es : List (Nat × BitString)) (s : State) : (writeEntries es s).nodes = s.nodes := by
  rw [writeEntries_eq]

theorem writeEntries_node (es : List (Nat × BitString)) (s : State) : (writeEntries es s).node = s.node := by
  rw [writeEntries_eq]

theorem clearTable_writeEntries (es : List (Nat × BitString)) (s : State) :
    clearTable (writeEntries es s) = clearTable s := by rw [writeEntries_eq]; rfl

theorem Tree.fst_pathsFrom (t : Tree) (p q : BitString) : (t.pathsFrom p).map Prod.fst = (t.pathsFrom q).map Prod.fst := by
  induction t generalizing p q with
  | leaf => rfl
  | node l r hl hr => simp only [pathsFrom, List.map_append, hl (p ++ [false]) (q ++ [false]), hr (p ++ [true]) (q ++ [true])]

/-- GENTAB on a tree whose symbols the table can hold: it writes each leaf's entry in pre-order (R230, R231). -/
theorem genNode_run {n : Nat} {i : NodeIdx} {t : Tree} {s : State} (p : BitString) (ht : treeAt n s i = some t)
    (hx : ∀ e ∈ t.pathsFrom p, e.1 ≤ 256) : genNode n i p s = .ok () (writeEntries (t.pathsFrom p) s) := by
  induction n generalizing i t s p with
  | zero => cases ht
  | succ n ih =>
    obtain ⟨r, hi, hr, ⟨hl, rfl⟩ | ⟨hl, l, u, h1, h2, rfl⟩⟩ := treeAt_cases ht
    · have hread : readNode i s = .ok r s := readNode_eq_ok.mpr ⟨hi, hr, rfl⟩
      have hle : ¬ 256 < r.sym.toNat := by have := hx (r.sym.toNat, p) (by simp [Tree.pathsFrom]); simpa using this
      simp only [genNode, hread, bind_ok, hl, if_true, symOutOfRange, decide_eq_true_eq, hle, if_false]
      rfl
    · have hread : readNode i s = .ok r s := readNode_eq_ok.mpr ⟨hi, hr, rfl⟩
      have e1 := ih (p ++ [false]) h1 fun e he => hx e (by simp [Tree.pathsFrom, he])
      have e2 := ih (p ++ [true])
        ((treeAt_congr (writeEntries_nodes (l.pathsFrom (p ++ [false])) s) (writeEntries_node _ s) n r.right).trans h2)
        fun e he => hx e (by simp [Tree.pathsFrom, he])
      simp only [genNode, hread, bind_ok, hl, Bool.false_eq_true, if_false, e1, e2, Tree.pathsFrom, writeEntries_append]

/-- GENTAB on a tree some leaf of which has a symbol above 256: it clears the table and raises E_SYM_RANGE (R235). -/
theorem genNode_symRange {n : Nat} {i : NodeIdx} {t : Tree} {s : State} (p : BitString) (ht : treeAt n s i = some t)
    (hx : ∃ e ∈ t.pathsFrom p, 256 < e.1) : genNode n i p s = .raised .symRange (clearTable s) := by
  induction n generalizing i t s p with
  | zero => cases ht
  | succ n ih =>
    obtain ⟨r, hi, hr, ⟨hl, rfl⟩ | ⟨hl, l, u, h1, h2, rfl⟩⟩ := treeAt_cases ht
    · have hread : readNode i s = .ok r s := readNode_eq_ok.mpr ⟨hi, hr, rfl⟩
      have hgt : 256 < r.sym.toNat := by simpa [Tree.pathsFrom] using hx
      simp only [genNode, hread, bind_ok, hl, if_true, symOutOfRange, decide_eq_true_eq, hgt]
    · have hread : readNode i s = .ok r s := readNode_eq_ok.mpr ⟨hi, hr, rfl⟩
      simp only [genNode, hread, bind_ok, hl, Bool.false_eq_true, if_false]
      by_cases hle : ∃ e ∈ l.pathsFrom (p ++ [false]), 256 < e.1
      · rw [ih _ h1 hle, bind_raised]
      · have e1 := genNode_run (p ++ [false]) h1 fun e he => Nat.not_lt.mp fun h => hle ⟨e, he, h⟩
        have hr' : ∃ e ∈ u.pathsFrom (p ++ [true]), 256 < e.1 := by
          obtain ⟨e, he, hgt⟩ := hx
          rcases List.mem_append.mp he with h | h
          · exact (hle ⟨e, h, hgt⟩).elim
          · exact ⟨e, h, hgt⟩
        rw [e1, bind_ok, ih _ ((treeAt_congr (writeEntries_nodes _ s) (writeEntries_node _ s) n r.right).trans h2) hr',
          clearTable_writeEntries]

theorem foldl_set_length (es : List (Nat × BitString)) (c : List CodeEntry) :
    (es.foldl (fun c e => c.set e.1 (pathEntry e.2)) c).length = c.length := by
  induction es generalizing c with
  | nil => rfl
  | cons e es ih => rw [List.foldl_cons, ih, List.length_set]

/-- Of several entries for one symbol the last one stands (R234). -/
theorem foldl_set_getElem? (es : List (Nat × BitString)) (tbl : List CodeEntry) (x : Nat) (hx : x < tbl.length) :
    (es.foldl (fun c e => c.set e.1 (pathEntry e.2)) tbl)[x]? =
      ((es.reverse.find? fun e => e.1 == x).map fun e => pathEntry e.2).or tbl[x]? := by
  induction es generalizing tbl with
  | nil => rfl
  | cons e es ih =>
    rw [List.foldl_cons, ih _ (by simpa using hx), List.reverse_cons, List.find?_append]
    cases es.reverse.find? (fun e => e.1 == x) with
    | some f => rfl
    | none =>
      by_cases he : e.1 = x
      · subst he; simp [hx]
      · simp [he]

theorem emptyCode_length : emptyCode.length = 257 := List.length_replicate

theorem emptyCode_getElem? {x : Nat} (hx : x < 257) : emptyCode[x]? = some CodeEntry.empty := by
  rw [emptyCode, List.getElem?_replicate, if_pos hx]

/-- The table GENTAB leaves, read at a symbol (R230, R232, R234). -/
theorem readCode_writeEntries (t : Tree) (s : State) (h : s.code = emptyCode) {sym : Nat} (hs : sym ≤ 256) :
    readCode sym (writeEntries t.paths s) = t.entry sym := by
  have hl : sym < s.code.length := by rw [h, emptyCode_length]; omega
  rw [writeEntries_eq, readCode, List.getD_eq_getElem?_getD, foldl_set_getElem? _ _ _ hl, h,
    emptyCode_getElem? (by omega), Tree.entry, Tree.lastPath]
  cases t.paths.reverse.find? (fun e => e.1 == sym) <;> rfl

/-- An emission keeps what a dropped answer and an extended OUT keep. -/
theorem lookupAndEmit_all {P : State → Prop} (hd : ∀ t, P t → P (dropAnswer t))
    (ha : ∀ b t, P t → t.out.closed = false → P (appendOut b t)) (sym : Nat) {s : State} (h : P s) :
    (lookupAndEmit sym s).All P := by
  unfold lookupAndEmit
  cases (readCode sym s).valid with
  | false => exact h
  | true =>
    simp only [if_true, emitCode]
    split
    · exact emitBits_all hd ha h
    · exact h

theorem encBody_all {P : State → Prop} (hd : ∀ t, P t → P (dropAnswer t))
    (ha : ∀ b t, P t → t.out.closed = false → P (appendOut b t)) (sym : Nat) {s : State} (h : P s) :
    (encBody sym s).All P := by
  unfold encBody
  split
  · split
    · exact h
    · exact lookupAndEmit_all hd ha sym h
  · exact h

theorem encLoop_all {P : State → Prop} (hd : ∀ t, P t → P (dropAnswer t))
    (hm : ∀ p t, P t → (t.inp.pos ≤ t.inp.bits.length → p ≤ t.inp.bits.length) → P (moveIn p t))
    (ha : ∀ b t, P t → t.out.closed = false → P (appendOut b t)) (n : Nat) (s : State) (h : P s) :
    (encLoop n s).All P := by
  induction n generalizing s with
  | zero => trivial
  | succ n ih =>
    refine all_bind (readBits_all hd hm h) fun r s h => ?_
    cases r with
    | ioFail => exact h
    | eos => exact h
    | val v => exact all_bind (lookupAndEmit_all hd ha v h) fun _ s h => ih s h

theorem encallBody_all {P : State → Prop} (hd : ∀ t, P t → P (dropAnswer t))
    (hm : ∀ p t, P t → (t.inp.pos ≤ t.inp.bits.length → p ≤ t.inp.bits.length) → P (moveIn p t))
    (ha : ∀ b t, P t → t.out.closed = false → P (appendOut b t)) {s : State} (h : P s) : (encallBody s).All P := by
  unfold encallBody
  split
  · exact all_bind (encLoop_all hd hm ha _ _ h) fun _ s h => lookupAndEmit_all hd ha _ h
  · exact h

/-- An emission that no call fails appends the symbol's code; a zero-length code makes no call, whether OUT is closed or not
(R250, R252). -/
theorem lookupAndEmit_run {sym : Nat} {s : State} (hv : (readCode sym s).valid = true) (hp : PortsSucceed s)
    (ho : s.out.closed = false ∨ (readCode sym s).len = 0) :
    lookupAndEmit sym s =
      .ok () (appendOut (codeOf s sym) (afterCalls (if (readCode sym s).len.toNat = 0 then 0 else 1) s)) := by
  rw [lookupAndEmit, if_pos hv, emitCode]
  by_cases hl : (readCode sym s).len.toNat = 0
  · simp [hl, codeOf, CodeEntry.path, bitsOf]
  · have ho' : s.out.closed = false := ho.resolve_right fun h => hl (by simp [h])
    rw [if_neg hl, if_pos (by omega), emitBits_ok (nextAnswer_of_portsSucceed hp) ho']
    rfl

/-- An emission of a code that has a bit fails on a closed OUT, and draws nothing (R94, R250). -/
theorem lookupAndEmit_closed {sym : Nat} {s : State} (hv : (readCode sym s).valid = true) (hl : (readCode sym s).len ≠ 0)
    (ho : s.out.closed = true) : lookupAndEmit sym s = .raised .io s := by
  have hl' : 0 < (readCode sym s).len.toNat := Nat.pos_of_ne_zero fun h => hl (BitVec.eq_of_toNat_eq (by simpa using h))
  rw [lookupAndEmit, if_pos hv, emitCode, if_pos hl', emitBits_closed ho]

theorem lookupAndEmit_noCode {sym : Nat} {s : State} (hv : (readCode sym s).valid = false) :
    lookupAndEmit sym s = .raised .noCode s := by simp [lookupAndEmit, hv]

theorem lookupAndEmit_notStuck (sym : Nat) (s : State) : (lookupAndEmit sym s).NotStuck := by
  unfold lookupAndEmit
  split
  · simp only [emitCode]
    split
    · exact emitBits_notStuck _ _ _
    · trivial
  · trivial

theorem readCode_congr {s t : State} (h : t.code = s.code) (sym : Nat) : readCode sym t = readCode sym s := by
  simp only [readCode, h]

theorem codeOf_congr {s t : State} (h : t.code = s.code) (sym : Nat) : codeOf t sym = codeOf s sym := by
  simp only [codeOf, readCode_congr h]

/-- How many port calls an emission makes (R252). -/
def emitCalls (sym : Nat) (s : State) : Nat := if (readCode sym s).len.toNat = 0 then 0 else 1

theorem emitCalls_congr {s t : State} (h : t.code = s.code) (sym : Nat) : emitCalls sym t = emitCalls sym s := by
  simp only [emitCalls, readCode_congr h]

theorem remaining_length_eq {s : State} {b : BitString} (h : remaining s = b) :
    s.inp.bits.length - s.inp.pos = b.length := by rw [← h, remaining, List.length_drop]

/-- One byte of IN, read, where no call fails (R91, R251). -/
theorem encLoop_read {b : BitVec 8} {rest : BitString} {n : Nat} {s : State} (hb : remaining s = bitsOf 8 b.toNat ++ rest)
    (hp : PortsSucceed s) :
    encLoop (n + 1) s =
      (lookupAndEmit b.toNat (moveIn (s.inp.pos + 8) (afterCalls 1 s))).bind fun _ s => encLoop n s := by
  have hlen := remaining_length_eq hb
  rw [List.length_append, bitsOf_length] at hlen
  have e1 := readBits_val (n := 8) (nextAnswer_of_portsSucceed hp) (s := s) (by omega)
  have hval : num ((remaining s).take 8) = b.toNat := by
    have h8 : (bitsOf 8 b.toNat).length = 8 := bitsOf_length _ _
    rw [hb, List.take_append_of_le_length (by omega), List.take_of_length_le (by omega), num_bitsOf]
    exact Nat.mod_eq_of_lt b.isLt
  rw [encLoop, e1, bind_ok, hval]

/-- One byte of IN, read and encoded, where no call fails (R251). -/
theorem encLoop_byte {b : BitVec 8} {rest : BitString} {n : Nat} {s : State} (hb : remaining s = bitsOf 8 b.toNat ++ rest)
    (hv : (readCode b.toNat s).valid = true) (hp : PortsSucceed s)
    (ho : s.out.closed = false ∨ (readCode b.toNat s).len = 0) :
    encLoop (n + 1) s =
      encLoop n (moveIn (s.inp.pos + 8) (appendOut (codeOf s b.toNat) (afterCalls (1 + emitCalls b.toNat s) s))) := by
  have hcode : (moveIn (s.inp.pos + 8) (afterCalls 1 s)).code = s.code := rfl
  have e2 := lookupAndEmit_run (sym := b.toNat) (s := moveIn (s.inp.pos + 8) (afterCalls 1 s))
    (by rw [readCode_congr hcode]; exact hv) (portsSucceed_afterCalls hp 1) (by rw [readCode_congr hcode]; exact ho)
  rw [codeOf_congr hcode, readCode_congr hcode, ← emitCalls, afterCalls_moveIn, afterCalls_afterCalls] at e2
  rw [encLoop_read hb hp, e2]
  rfl

/-- The loop of ENCALL over whole bytes that all have codes, whatever follows them in IN (R251, R253). -/
theorem encLoop_bytes {bs : List (BitVec 8)} {rest : BitString} {n : Nat} {s : State}
    (hb : remaining s = bitsOfBytes bs ++ rest) (hv : ∀ b ∈ bs, (readCode b.toNat s).valid = true) (hp : PortsSucceed s)
    (ho : s.out.closed = false ∨ ∀ b ∈ bs, (readCode b.toNat s).len = 0) :
    ∃ k, encLoop (n + bs.length) s =
      encLoop n (moveIn (s.inp.pos + 8 * bs.length) (appendOut (bs.flatMap fun b => codeOf s b.toNat) (afterCalls k s))) := by
  induction bs generalizing s with
  | nil => exact ⟨0, by simp [moveIn]⟩
  | cons b bs ih =>
    have hb8 : remaining s = bitsOf 8 b.toNat ++ (bitsOfBytes bs ++ rest) := by
      rw [hb, bitsOfBytes, List.flatMap_cons, List.append_assoc]; rfl
    rw [List.length_cons, ← Nat.add_assoc, encLoop_byte hb8 (hv b (by simp)) hp (ho.imp_right fun h => h b (by simp))]
    -- the state after the byte's code
    generalize hu : moveIn (s.inp.pos + 8) (appendOut (codeOf s b.toNat) (afterCalls (1 + emitCalls b.toNat s) s)) = u
    have hcode : u.code = s.code := by subst hu; rfl
    have hinp : u.inp = ⟨s.inp.bits, s.inp.pos + 8⟩ := by subst hu; rfl
    have hout : u.out.closed = s.out.closed := by subst hu; rfl
    have hrem : remaining u = bitsOfBytes bs ++ rest := by
      have : remaining u = (remaining s).drop 8 := by simp [remaining, hinp, List.drop_drop]
      rw [this, hb8, List.drop_append_of_le_length (by simp), List.drop_of_length_le (by simp), List.nil_append]
    obtain ⟨k, e⟩ := ih (s := u) hrem (fun c hc => by rw [readCode_congr hcode]; exact hv c (by simp [hc]))
      (by subst hu; exact portsSucceed_afterCalls hp _)
      (by rw [hout]; exact ho.imp_right fun h c hc => by rw [readCode_congr hcode]; exact h c (by simp [hc]))
    refine ⟨1 + emitCalls b.toNat s + k, ?_⟩
    rw [e]
    simp only [codeOf_congr hcode, hinp]
    rw [show s.inp.pos + 8 * (bs.length + 1) = s.inp.pos + 8 + 8 * bs.length by omega]
    subst hu
    simp only [List.flatMap_cons]
    rw [afterCalls_moveIn, appendOut_moveIn, moveIn_moveIn, appendOut_afterCalls]

/-- The loop of ENCALL on whole bytes that all have codes, followed by fewer than 8 bits (R251, R253). -/
theorem encLoop_run {bs : List (BitVec 8)} {tail : BitString} {n : Nat} {s : State}
    (hb : remaining s = bitsOfBytes bs ++ tail) (ht : tail.length < 8)
    (hv : ∀ b ∈ bs, (readCode b.toNat s).valid = true) (hp : PortsSucceed s)
    (ho : s.out.closed = false ∨ ∀ b ∈ bs, (readCode b.toNat s).len = 0) (hn : bs.length < n) :
    ∃ k, encLoop n s =
      .ok () (moveIn s.inp.bits.length (appendOut (bs.flatMap fun b => codeOf s b.toNat) (afterCalls k s))) := by
  obtain ⟨m, rfl⟩ : ∃ m, n = m + 1 + bs.length := ⟨n - bs.length - 1, by omega⟩
  obtain ⟨k, e⟩ := encLoop_bytes (n := m + 1) hb hv hp ho
  have hlen := remaining_length_eq hb
  rw [List.length_append, bitsOfBytes_length] at hlen
  refine ⟨k + 1, ?_⟩
  rw [e, encLoop, readBits_eos (nextAnswer_of_portsSucceed (portsSucceed_of_drop hp k rfl))
    (show s.inp.bits.length < s.inp.pos + 8 * bs.length + 8 by omega), bind_ok]
  simp [moveIn, appendOut, afterCalls, List.drop_drop]

/-- ENCALL's loop never passes its bound (R158). -/
theorem encLoop_notStuck (n : Nat) (s : State) (hn : (s.inp.bits.length - s.inp.pos) / 8 < n) : (encLoop n s).NotStuck := by
  induction n generalizing s with
  | zero => omega
  | succ n ih =>
    refine notStuck_bind (readBits_notStuck _ _) fun r u hu => ?_
    cases r with
    | ioFail => trivial
    | eos => trivial
    | val v =>
      obtain ⟨h1, h2⟩ := val_moves hu
      refine notStuck_bind (lookupAndEmit_notStuck _ _) fun _ w hw => ?_
      have := lookupAndEmit_all (P := fun x => x.inp = u.inp) (fun _ h => h) (fun _ _ h _ => h) v (s := u) rfl
      rw [hw] at this
      have hi : w.inp = u.inp := this
      exact ih w (by rw [hi, h2]; simp only; omega)
where
  val_moves {s u : State} {v : Nat} (h : readBits 8 s = .ok (.val v) u) :
      s.inp.pos + 8 ≤ s.inp.bits.length ∧ u.inp = ⟨s.inp.bits, s.inp.pos + 8⟩ := by
    unfold readBits at h
    cases ha : nextAnswer s with
    | resetFirst => rw [ha] at h; cases h
    | fails k => rw [ha] at h; cases h
    | succeeds =>
      rw [ha] at h
      simp only at h
      split at h
      · cases h
      · cases h; exact ⟨by omega, rfl⟩

theorem encallBody_notStuck (s : State) : (encallBody s).NotStuck := by
  unfold encallBody
  split
  · exact notStuck_bind (encLoop_notStuck _ _ (by simp [encReads])) fun _ _ _ => lookupAndEmit_notStuck _ _
  · trivial

theorem encBody_notStuck (sym : Nat) (s : State) : (encBody sym s).NotStuck := by
  unfold encBody
  split
  · split
    · trivial
    · exact lookupAndEmit_notStuck _ _
  · trivial

end Sys2Proof.Machine
end

