-- ==== Sys2Proof/Laws/Arrays.lean ====
section
/-! SUPPORT. The internal arrays keep their sizes (R40, R45, R48): every operation that writes one, and reset. -/

namespace Sys2Proof.Machine

/-- The sizes depend on the three arrays alone. -/
theorem wf_of_arrays {s t : State} (h : Memory.wf s) (hf : t.freq.length = s.freq.length)
    (hn : t.node.length = s.node.length) (hc : t.code.length = s.code.length) : Memory.wf t :=
  ⟨hf.trans h.1, hn.trans h.2.1, hc.trans h.2.2⟩

theorem wf_reset : Memory.wf State.reset := ⟨List.length_replicate, List.length_replicate, List.length_replicate⟩

theorem wf_coreReset (s : State) : Memory.wf (coreReset s) := wf_reset

theorem wf_writeFreq {s : State} (h : Memory.wf s) (i : Nat) (v : Word) : Memory.wf (writeFreq i v s) :=
  wf_of_arrays h (by simp [writeFreq]) rfl rfl

theorem wf_writeCode {s : State} (h : Memory.wf s) (i : Nat) (e : CodeEntry) : Memory.wf (writeCode i e s) :=
  wf_of_arrays h rfl rfl (by simp [writeCode])

theorem wf_clearTable {s : State} (h : Memory.wf s) : Memory.wf (clearTable s) := ⟨h.1, h.2.1, emptyCode_length⟩

theorem wf_writeNode {s : State} (h : Memory.wf s) (i : NodeIdx) (r : Node) : Memory.wf (writeNode i r s) :=
  wf_of_arrays h rfl (by simp [writeNode]) rfl

theorem wf_setChildren {s : State} (h : Memory.wf s) (i l r : NodeIdx) : Memory.wf (setChildren i l r s) :=
  wf_of_arrays h rfl (by simp [setChildren]) rfl

theorem wf_clearAll {s : State} (h : Memory.wf s) : Memory.wf (clearAll s) :=
  ⟨List.length_replicate, h.2.1, emptyCode_length⟩

theorem wf_writeRecords {s : State} (h : Memory.wf s) {store : List Node} (hs : store.length ≤ 513) :
    Memory.wf (writeRecords store s) :=
  ⟨h.1, by simp only [writeRecords, List.length_append, List.length_drop, h.2.1]; omega, h.2.2⟩

theorem wf_buildEffect {s : State} (h : Memory.wf s) : Memory.wf (buildEffect s) := by
  have h1 := buildTree_length s.freq
  have h2 := (buildLeaves_length s.freq).2
  have h3 := wf_writeRecords h (store := (buildTree s.freq).1) (by omega)
  exact ⟨h3.1, h3.2.1, emptyCode_length⟩

theorem wf_accept {s : State} (h : Memory.wf s) (w : Word) : Memory.wf (accept w s) := h

theorem wf_setDrop {s : State} (h : Memory.wf s) : Memory.wf (setDrop s) := h

theorem wf_memWrite {s : State} (h : Memory.wf s) (off : Offset) (v : Word) : Memory.wf (memWrite off v s) := by
  unfold memWrite
  split
  · split <;> exact h
  · split
    · exact h
    · exact wf_writeFreq h _ _
  all_goals exact h

theorem wf_hostRead {s : State} (h : Memory.wf s) (off : Offset) : Memory.wf (hostRead off s) := h

theorem wf_done {s : State} (h : Memory.wf s) : Memory.wf (done s) := h

theorem wf_raiseError {s : State} (h : Memory.wf s) (e : ErrCode) : Memory.wf (raiseError e s) := h

end Sys2Proof.Machine
end

