-- ==== Sys2Proof/Laws/Codec.lean ====
section
/-! SUPPORT. SER and DES (spec/42_tree_codec.md): what they keep, and what they do on a tree where the ports do not fail. -/

namespace Sys2Proof.Machine

/-- SER keeps what a dropped answer and an extended OUT keep. -/
theorem serNode_all {P : State → Prop} (hd : ∀ t, P t → P (dropAnswer t))
    (ha : ∀ b t, P t → t.out.closed = false → P (appendOut b t)) (n : Nat) (i : NodeIdx) (s : State) (h : P s) :
    (serNode n i s).All P := by
  induction n generalizing i s with
  | zero => trivial
  | succ n ih =>
    refine all_bind (readNode_all h) fun r s h => ?_
    cases r.leaf with
    | true => exact all_bind (emitBits_all hd ha h) fun _ s h => emitBits_all hd ha h
    | false =>
      exact all_bind (emitBits_all hd ha h) fun _ s h => all_bind (ih _ s h) fun _ s h => ih _ s h

theorem serBody_all {P : State → Prop} (hd : ∀ t, P t → P (dropAnswer t))
    (ha : ∀ b t, P t → t.out.closed = false → P (appendOut b t)) {s : State} (h : P s) : (serBody s).All P := by
  unfold serBody
  cases s.treeValid with
  | true => exact serNode_all hd ha _ _ s h
  | false => exact h

/-- SER writes `T` of the tree below the index, where no call fails (R190, R191). -/
theorem serNode_run {n : Nat} {i : NodeIdx} {t : Tree} {s : State} (ht : treeAt n s i = some t) (hp : PortsSucceed s)
    (ho : s.out.closed = false) : ∃ k, serNode n i s = .ok () (appendOut t.bits (afterCalls k s)) := by
  induction n generalizing i t s with
  | zero => cases ht
  | succ n ih =>
    obtain ⟨r, hi, hr, hcase⟩ := treeAt_cases ht
    have hread : readNode i s = .ok r s := readNode_eq_ok.mpr ⟨hi, hr, rfl⟩
    -- the state after some calls that wrote `b`
    have hp' : ∀ k b, PortsSucceed (appendOut b (afterCalls k s)) := fun k b => portsSucceed_afterCalls hp k
    have ho' : ∀ k b, (appendOut b (afterCalls k s)).out.closed = false := fun k b => ho
    obtain ⟨hl, rfl⟩ | ⟨hl, l, u, h1, h2, rfl⟩ := hcase
    · refine ⟨1 + 1, ?_⟩
      have e1 := emitBits_ok (n := 1) (v := 1) (nextAnswer_of_portsSucceed hp) ho
      have e2 := emitBits_ok (n := 9) (v := r.sym.toNat) (nextAnswer_of_portsSucceed (hp' 1 (bitsOf 1 1))) (ho' _ _)
      rw [appendOut_afterCalls] at e2
      simp only [serNode, hread, bind_ok, hl, if_true, e1, e2]
      rfl
    · have e1 := emitBits_ok (n := 1) (v := 0) (nextAnswer_of_portsSucceed hp) ho
      obtain ⟨k1, e2⟩ := ih ((treeAt_congr (s := s) (t := appendOut (bitsOf 1 0) (afterCalls 1 s)) rfl rfl n r.left).trans h1)
        (hp' _ _) (ho' _ _)
      rw [appendOut_afterCalls] at e2
      obtain ⟨k2, e3⟩ := ih ((treeAt_congr (s := s)
        (t := appendOut (bitsOf 1 0 ++ l.bits) (afterCalls (1 + k1) s)) rfl rfl n r.right).trans h2) (hp' _ _) (ho' _ _)
      rw [appendOut_afterCalls] at e3
      refine ⟨1 + k1 + k2, ?_⟩
      simp only [serNode, hread, bind_ok, hl, Bool.false_eq_true, if_false, e1, e2, e3]
      simp [Tree.bits, bitsOf]

/-- SER does not stop on a tree. -/
theorem serNode_notStuck {n : Nat} {i : NodeIdx} {t : Tree} {s : State} (ht : treeAt n s i = some t) :
    (serNode n i s).NotStuck := by
  induction n generalizing i t s with
  | zero => cases ht
  | succ n ih =>
    obtain ⟨r, hi, hr, hcase⟩ := treeAt_cases ht
    have hread : readNode i s = .ok r s := readNode_eq_ok.mpr ⟨hi, hr, rfl⟩
    simp only [serNode, hread, bind_ok]
    -- what a piece that wrote to OUT leaves of the store
    have same : ∀ {α : Type} (x : Flow α) (a : α) (v : State),
        x.All (fun w => w.nodes = s.nodes ∧ w.node = s.node) → x = .ok a v → v.nodes = s.nodes ∧ v.node = s.node := by
      intro α x a v hx he; rw [he] at hx; exact hx
    have hemit : ∀ n v, (emitBits n v s).All fun w => w.nodes = s.nodes ∧ w.node = s.node := fun n v =>
      emitBits_all (fun _ h => h) (fun _ _ h _ => h) ⟨rfl, rfl⟩
    obtain ⟨hl, rfl⟩ | ⟨hl, l, u, h1, h2, rfl⟩ := hcase
    · simp only [hl, if_true]
      exact notStuck_bind (emitBits_notStuck _ _ _) fun _ _ _ => emitBits_notStuck _ _ _
    · simp only [hl, Bool.false_eq_true, if_false]
      refine notStuck_bind (emitBits_notStuck _ _ _) fun _ v hv => ?_
      obtain ⟨hn, hnode⟩ := same _ _ _ (hemit 1 0) hv
      refine notStuck_bind (ih ((treeAt_congr hn hnode n r.left).trans h1)) fun _ w hw => ?_
      obtain ⟨hn', hnode'⟩ := same _ _ _
        (serNode_all (P := fun w => w.nodes = s.nodes ∧ w.node = s.node) (fun _ h => h) (fun _ _ h _ => h) n r.left v
          ⟨hn, hnode⟩) hw
      exact ih ((treeAt_congr hn' hnode' n r.right).trans h2)

/-- DES keeps what its own updates keep. -/
theorem desNode_all {P : State → Prop} (hd : ∀ t, P t → P (dropAnswer t))
    (hm : ∀ p t, P t → (t.inp.pos ≤ t.inp.bits.length → p ≤ t.inp.bits.length) → P (moveIn p t))
    (hn : ∀ t, P t → t.nodes.toNat ≠ Config.nodeCap → P { t with nodes := t.nodes + 1 })
    (hw : ∀ i r t, P t → P (writeNode i r t)) (hs : ∀ i l r t, P t → P (setChildren i l r t))
    (hl : ∀ t, P t → P { t with leaves := t.leaves + 1 }) (hc : ∀ t, P t → P (clearTreeRegs t)) (n : Nat) (s : State)
    (h : P s) : (desNode n s).All P := by
  induction n generalizing s with
  | zero => trivial
  | succ n ih =>
    refine all_bind (readBits_all hd hm h) fun b s h => ?_
    cases b with
    | ioFail => exact hc s h
    | eos => exact hc s h
    | val b =>
      simp only
      split
      · exact hc s h
      · next hcap =>
        split
        · refine all_bind (ih _ (hw _ _ _ (hn s h hcap))) fun l s h => all_bind (ih _ h) fun r s h => hs _ _ _ s h
        · refine all_bind (readBits_all hd hm (hn s h hcap)) fun v s h => ?_
          cases v with
          | ioFail => exact hc s h
          | eos => exact hc s h
          | val v => exact hl _ (hw _ _ s h)

/-- Each call of `des()` that returns has allocated at least one record, and never more than NODE_CAP (R195); a call that
still has one nested call for each free record, and one more, does not stop. -/
theorem desNode_bound (n : Nat) (s : State) (hle : s.nodes.toNat ≤ 513) (hfuel : 514 ≤ n + s.nodes.toNat) :
    (desNode n s).NotStuck ∧ ∀ i t, desNode n s = .ok i t → t.nodes.toNat ≤ 513 ∧ s.nodes.toNat < t.nodes.toNat := by
  induction n generalizing s with
  | zero => omega
  | succ n ih =>
    have hsame : ∀ v u, readBits 1 s = .ok v u → u.nodes = s.nodes := by
      intro v u hu
      have := readBits_all (n := 1) (s := s) (P := fun w => w.nodes = s.nodes) (fun _ h => h) (fun _ _ h _ => h) rfl
      rw [hu] at this; exact this
    have hsame9 : ∀ (w : State) v u, readBits 9 w = .ok v u → u.nodes = w.nodes := by
      intro w v u hu
      have := readBits_all (n := 9) (s := w) (P := fun x => x.nodes = w.nodes) (fun _ h => h) (fun _ _ h _ => h) rfl
      rw [hu] at this; exact this
    have hinc : ∀ u : State, u.nodes = s.nodes → ¬ u.nodes.toNat = Config.nodeCap →
        (u.nodes + 1).toNat = s.nodes.toNat + 1 ∧ s.nodes.toNat + 1 ≤ 513 := by
      intro u hu hcap
      rw [hu] at hcap ⊢
      simp only [Config.nodeCap] at hcap
      constructor
      · rw [BitVec.toNat_add]; simp; omega
      · omega
    constructor
    · refine notStuck_bind (readBits_notStuck _ _) fun b u hb => ?_
      have hu := hsame _ _ hb
      cases b with
      | ioFail => trivial
      | eos => trivial
      | val b =>
        simp only
        split
        · trivial
        · next hcap =>
          obtain ⟨h1, h2⟩ := hinc u hu hcap
          split
          · have hrec := ih (writeNode u.nodes (internalNode 0 0 0) { u with nodes := u.nodes + 1 })
              (by simp only [writeNode_nodes, h1]; omega) (by simp only [writeNode_nodes, h1]; omega)
            refine notStuck_bind hrec.1 fun l v hv => ?_
            obtain ⟨h3, h4⟩ := hrec.2 _ _ hv
            simp only [writeNode_nodes, h1] at h4
            exact notStuck_bind (ih v h3 (by omega)).1 fun r w _ => trivial
          · refine notStuck_bind (readBits_notStuck _ _) fun v w _ => ?_
            cases v <;> trivial
    · intro i t h
      obtain ⟨b, u, hb, h⟩ := bind_eq_ok.mp h
      have hu := hsame _ _ hb
      cases b with
      | ioFail => cases h
      | eos => cases h
      | val b =>
        simp only at h
        split at h
        · cases h
        · next hcap =>
          obtain ⟨h1, h2⟩ := hinc u hu hcap
          split at h
          · have hrec := ih (writeNode u.nodes (internalNode 0 0 0) { u with nodes := u.nodes + 1 })
              (by simp only [writeNode_nodes, h1]; omega) (by simp only [writeNode_nodes, h1]; omega)
            obtain ⟨l, v, hv, h⟩ := bind_eq_ok.mp h
            obtain ⟨h3, h4⟩ := hrec.2 _ _ hv
            simp only [writeNode_nodes, h1] at h4
            obtain ⟨r, w, hw, h⟩ := bind_eq_ok.mp h
            obtain ⟨h5, h6⟩ := (ih v h3 (by omega)).2 _ _ hw
            cases h
            exact ⟨h5, by simp only [setChildren_nodes]; omega⟩
          · obtain ⟨v, w, hw, h⟩ := bind_eq_ok.mp h
            have hw' := hsame9 _ _ _ hw
            cases v with
            | ioFail => cases h
            | eos => cases h
            | val v =>
              cases h
              simp only [writeNode_nodes, hw', h1]
              omega

/-- DES completes in every state (R158). -/
theorem desBody_notStuck (s : State) : (desBody s).NotStuck := by
  refine notStuck_bind (desNode_bound _ _ ?_ ?_).1 fun _ _ _ => trivial
  · simp [desStart]
  · simp [desStart, Config.nodeCap]

end Sys2Proof.Machine
end

