-- ==== Sys2Proof/Laws/DesRun.lean ====
section
/-! SUPPORT. What `des()` does when it returns, whole: the records it writes are those of the tree whose serialized form it
consumed (R193, R194, R198), and it returns wherever IN holds such a form and no call fails. -/

namespace Sys2Proof.Machine

/-- The number of nodes of a tree. -/
def Tree.size (t : Tree) : Nat := 2 * t.innerCount + 1

theorem Tree.size_leaf (sym : Sym) : (Tree.leaf sym).size = 1 := rfl

theorem Tree.size_node (l r : Tree) : (Tree.node l r).size = 1 + l.size + r.size := by
  simp only [size, innerCount]; omega

/-- The records of a tree in pre-order, the first at index `base` (R194). -/
def Tree.records : Tree → Nat → List Node
  | .leaf sym, _ => [leafNode sym 0]
  | .node l r, base =>
    internalNode 0 (BitVec.ofNat 10 (base + 1)) (BitVec.ofNat 10 (base + 1 + l.size)) ::
      (l.records (base + 1) ++ r.records (base + 1 + l.size))

@[simp] theorem Tree.records_length (t : Tree) (base : Nat) : (t.records base).length = t.size := by
  induction t generalizing base with
  | leaf => rfl
  | node l r hl hr => simp only [records, List.length_cons, List.length_append, hl, hr, size_node]; omega

/-- Records written one after the other from index `base` on. -/
def putRecords : Nat → List Node → List Node → List Node
  | _, [], store => store
  | base, r :: rs, store => putRecords (base + 1) rs (store.set base r)

@[simp] theorem putRecords_length (base : Nat) (rs store : List Node) :
    (putRecords base rs store).length = store.length := by
  induction rs generalizing base store with
  | nil => rfl
  | cons r rs ih => simp [putRecords, ih]

theorem putRecords_append (base : Nat) (xs ys store : List Node) :
    putRecords base (xs ++ ys) store = putRecords (base + xs.length) ys (putRecords base xs store) := by
  induction xs generalizing base store with
  | nil => rfl
  | cons x xs ih =>
    simp only [List.cons_append, putRecords, ih, List.length_cons]
    congr 1
    omega

theorem putRecords_getElem? (base : Nat) (rs store : List Node) (j : Nat) (h : base + rs.length ≤ store.length) :
    (putRecords base rs store)[j]? = if base ≤ j ∧ j < base + rs.length then rs[j - base]? else store[j]? := by
  induction rs generalizing base store with
  | nil => simp only [putRecords, List.length_nil]; rw [if_neg (by omega)]
  | cons r rs ih =>
    simp only [List.length_cons] at h
    rw [putRecords, ih (base + 1) _ (by simp only [List.length_set]; omega), List.getElem?_set]
    simp only [List.length_cons]
    by_cases hj : base = j
    · subst hj
      rw [if_neg (by omega), if_pos rfl, if_pos (by omega), if_pos (by omega)]
      simp
    · by_cases hj2 : base + 1 ≤ j ∧ j < base + 1 + rs.length
      · rw [if_pos hj2, if_pos (by omega), show j - base = j - (base + 1) + 1 by omega]
        simp
      · rw [if_neg hj2, if_neg hj, if_neg (by omega)]

theorem putRecords_modify (c b : Nat) (rs store : List Node) (f : Node → Node) (h : b < c) :
    (putRecords c rs store).modify b f = putRecords c rs (store.modify b f) := by
  induction rs generalizing c store with
  | nil => rfl
  | cons r rs ih =>
    rw [putRecords, putRecords, ih (c + 1) _ (by omega)]
    congr 1
    apply List.ext_getElem?
    intro j
    simp only [List.getElem?_modify, List.getElem?_set, List.length_modify]
    by_cases h1 : c = j
    · subst h1
      simp [show b ≠ c by omega]
    · by_cases h2 : b = j <;> simp [h1, h2]

theorem set_modify_same (b : Nat) (store : List Node) (x : Node) (f : Node → Node) :
    (store.set b x).modify b f = store.set b (f x) := by
  apply List.ext_getElem?
  intro j
  simp only [List.getElem?_modify, List.getElem?_set]
  by_cases h1 : b = j
  · subst h1; by_cases h2 : b < store.length <;> simp [h2]
  · simp [h1]

/-- What `des()` leaves when it has read the tree `t` with `k` port calls. -/
def desDone (t : Tree) (k : Nat) (s : State) : State :=
  { moveIn (s.inp.pos + t.bits.length) (afterCalls k s) with
    node := putRecords s.nodes.toNat (t.records s.nodes.toNat) s.node
    nodes := s.nodes + BitVec.ofNat 10 t.size
    leaves := s.leaves + BitVec.ofNat 10 t.leafCount }

/-- A leaf's tag and value, read. -/
theorem desDone_leaf (v : Sym) (s : State) :
    { writeNode s.nodes (leafNode v 0)
        (moveIn (s.inp.pos + 1 + 9) (afterCalls 1 { moveIn (s.inp.pos + 1) (afterCalls 1 s) with nodes := s.nodes + 1 })) with
      leaves := s.leaves + 1 } = desDone (.leaf v) 2 s := by
  simp [desDone, writeNode, moveIn, afterCalls, putRecords, Tree.records, Tree.bits, Tree.size, Tree.innerCount,
    Tree.leafCount, Nat.add_assoc]

theorem toNat_add_ofNat {a : BitVec 10} {n : Nat} (h : a.toNat + n ≤ 513) : (a + BitVec.ofNat 10 n).toNat = a.toNat + n := by
  rw [BitVec.toNat_add, BitVec.toNat_ofNat]
  omega

/-- An internal node's tag read, its index allocated, and its two subtrees read. -/
theorem desDone_node (l r : Tree) (j k : Nat) (s : State)
    (hcap : s.nodes.toNat + (Tree.node l r).size ≤ 513) :
    setChildren s.nodes (s.nodes + 1) (s.nodes + 1 + BitVec.ofNat 10 l.size)
        (desDone r k (desDone l j
          (writeNode s.nodes (internalNode 0 0 0) { moveIn (s.inp.pos + 1) (afterCalls 1 s) with nodes := s.nodes + 1 }))) =
      desDone (.node l r) (1 + j + k) s := by
  rw [Tree.size_node] at hcap
  have e1 : (s.nodes + 1).toNat = s.nodes.toNat + 1 := toNat_add_ofNat (n := 1) (by omega)
  have e2 : (s.nodes + 1 + BitVec.ofNat 10 l.size).toNat = s.nodes.toNat + 1 + l.size := by
    rw [toNat_add_ofNat (by omega), e1]
  have c1 : BitVec.ofNat 10 (s.nodes.toNat + 1) = s.nodes + 1 := by
    apply BitVec.eq_of_toNat_eq; rw [e1, BitVec.toNat_ofNat]; omega
  have c2 : BitVec.ofNat 10 (s.nodes.toNat + 1 + l.size) = s.nodes + 1 + BitVec.ofNat 10 l.size := by
    apply BitVec.eq_of_toNat_eq; rw [e2, BitVec.toNat_ofNat]; omega
  have hnode : (putRecords (s.nodes + 1 + BitVec.ofNat 10 l.size).toNat
      (r.records (s.nodes + 1 + BitVec.ofNat 10 l.size).toNat)
      (putRecords (s.nodes + 1).toNat (l.records (s.nodes + 1).toNat) (s.node.set s.nodes.toNat (internalNode 0 0 0)))).modify
        s.nodes.toNat (fun n => { n with left := s.nodes + 1, right := s.nodes + 1 + BitVec.ofNat 10 l.size }) =
      putRecords s.nodes.toNat ((Tree.node l r).records s.nodes.toNat) s.node := by
    rw [e1, e2, putRecords_modify _ _ _ _ _ (by omega), putRecords_modify _ _ _ _ _ (by omega), set_modify_same,
      Tree.records, putRecords, putRecords_append, Tree.records_length, c1, c2]
    rfl
  have hnodes : s.nodes + 1 + BitVec.ofNat 10 l.size + BitVec.ofNat 10 r.size =
      s.nodes + BitVec.ofNat 10 (Tree.node l r).size := by
    apply BitVec.eq_of_toNat_eq
    rw [toNat_add_ofNat (by omega), e2, toNat_add_ofNat (by rw [Tree.size_node]; omega), Tree.size_node]
    omega
  have hleaves : s.leaves + BitVec.ofNat 10 l.leafCount + BitVec.ofNat 10 r.leafCount =
      s.leaves + BitVec.ofNat 10 (Tree.node l r).leafCount := by
    rw [Tree.leafCount, BitVec.ofNat_add, BitVec.add_assoc]
  have hans : ((s.answers.drop 1).drop j).drop k = s.answers.drop (1 + j + k) := by
    simp only [List.drop_drop]
  have hpos : s.inp.pos + 1 + l.bits.length + r.bits.length = s.inp.pos + (Tree.node l r).bits.length := by
    simp only [Tree.bits, List.length_cons, List.length_append]; omega
  have hinp : (⟨s.inp.bits, s.inp.pos + 1 + l.bits.length + r.bits.length⟩ : InPort) =
      ⟨s.inp.bits, s.inp.pos + (Tree.node l r).bits.length⟩ := by rw [hpos]
  apply State.ext
  case nodes => exact hnodes
  case leaves => exact hleaves
  case node => exact hnode
  case inp => exact hinp
  case answers => exact hans
  all_goals simp only [setChildren, desDone, writeNode, moveIn, afterCalls]

theorem remaining_moveIn (n : Nat) (s t : State) (hi : t.inp = { s.inp with pos := s.inp.pos + n }) :
    remaining t = (remaining s).drop n := by
  simp [remaining, hi, List.drop_drop]

theorem remaining_length {s : State} : (remaining s).length = s.inp.bits.length - s.inp.pos := by simp [remaining]

theorem num_take_one {b : Bool} {p : BitString} : num ((b :: p).take 1) = b.toNat := by simp [num_cons]

/-- `des()` returns where IN holds the serialized form of a tree for which there is room, and no call fails (R193, R198 (a)). -/
theorem desNode_run {n : Nat} {t : Tree} {s : State} {rest : BitString} (hb : remaining s = t.bits ++ rest)
    (hp : PortsSucceed s) (hlen : s.node.length = 513) (hcap : s.nodes.toNat + t.size ≤ 513) (hn : t.height < n) :
    ∃ k, desNode n s = .ok s.nodes (desDone t k s) := by
  induction n generalizing t s rest with
  | zero => omega
  | succ n ih =>
    have hpos : s.inp.pos + t.bits.length ≤ s.inp.bits.length := by
      have h1 := congrArg List.length hb
      rw [remaining_length, List.length_append] at h1
      have h2 := t.bits_length
      have h3 := t.leafCount_eq
      omega
    have hcap' : ¬ s.nodes.toNat = Config.nodeCap := by
      simp only [Config.nodeCap, Tree.size] at *; omega
    cases t with
    | leaf v =>
      simp only [Tree.bits, List.length_cons, bitsOf_length] at hpos hb
      have e1 := readBits_val (n := 1) (nextAnswer_of_portsSucceed hp) (s := s) (by omega)
      have hp1 : PortsSucceed { moveIn (s.inp.pos + 1) (afterCalls 1 s) with nodes := s.nodes + 1 } :=
        portsSucceed_afterCalls hp 1
      have e2 := readBits_val (n := 9) (nextAnswer_of_portsSucceed hp1) (by simp [afterCalls]; omega)
      rw [remaining_moveIn 1 s _ rfl, hb] at e2
      refine ⟨2, ?_⟩
      rw [hb] at e1
      have hv : num (bitsOf 9 v.toNat) = v.toNat := by rw [num_bitsOf]; exact Nat.mod_eq_of_lt v.isLt
      rw [← desDone_leaf]
      simp only [desNode, e1, bind_ok, List.cons_append, num_take_one, Bool.toNat_true, one_ne_zero, if_false, desLeaf,
        moveIn_nodes, afterCalls] at e2 ⊢
      simp only [hcap', if_false, e2, bind_ok]
      simp [hv]
    | node l r =>
      simp only [Tree.bits, List.length_cons, List.length_append] at hpos hb
      rw [Tree.size_node] at hcap
      simp only [Tree.height] at hn
      have hc1 : (s.nodes + 1).toNat = s.nodes.toNat + 1 := toNat_add_ofNat (n := 1) (by omega)
      have e1 := readBits_val (n := 1) (nextAnswer_of_portsSucceed hp) (s := s) (by omega)
      rw [hb, List.cons_append, num_take_one] at e1
      -- the state in which the left subtree is read
      generalize hu : writeNode s.nodes (internalNode 0 0 0)
        { moveIn (s.inp.pos + 1) (afterCalls 1 s) with nodes := s.nodes + 1 } = u
      have hun : u.nodes = s.nodes + 1 := by subst hu; rfl
      have hub : remaining u = l.bits ++ (r.bits ++ rest) := by
        rw [remaining_moveIn 1 s u (by subst hu; rfl), hb]; simp
      have hul : u.node.length = 513 := by subst hu; simpa [afterCalls] using hlen
      have hup : PortsSucceed u := by subst hu; exact portsSucceed_afterCalls hp 1
      obtain ⟨j, e2⟩ := ih hub hup hul (by rw [hun, hc1]; omega) (by omega)
      -- the state in which the right subtree is read
      have hvn : (desDone l j u).nodes = s.nodes + 1 + BitVec.ofNat 10 l.size := by simp [desDone, hun]
      have hvb : remaining (desDone l j u) = r.bits ++ rest := by
        rw [remaining_moveIn l.bits.length u _ rfl, hub]; simp
      have hvl : (desDone l j u).node.length = 513 := by simpa [desDone] using hul
      have hvp : PortsSucceed (desDone l j u) := portsSucceed_afterCalls hup j
      have hc2 : (s.nodes + 1 + BitVec.ofNat 10 l.size).toNat = s.nodes.toNat + 1 + l.size := by
        rw [toNat_add_ofNat (by omega), hc1]
      obtain ⟨k, e3⟩ := ih hvb hvp hvl (by rw [hvn, hc2]; omega) (by omega)
      refine ⟨1 + j + k, ?_⟩
      rw [← desDone_node l r j k s (by rw [Tree.size_node]; omega), hu, ← hvn, ← hun]
      have hcap1 : ¬ (moveIn (s.inp.pos + 1) (afterCalls 1 s)).nodes.toNat = Config.nodeCap := hcap'
      simp only [desNode, e1, bind_ok, Bool.toNat_false, hcap1, if_false, if_true]
      rw [show writeNode (moveIn (s.inp.pos + 1) (afterCalls 1 s)).nodes (internalNode 0 0 0)
        { moveIn (s.inp.pos + 1) (afterCalls 1 s) with nodes := (moveIn (s.inp.pos + 1) (afterCalls 1 s)).nodes + 1 } = u
        from hu, e2]
      simp only [bind_ok, e3]
      rfl

/-- A read that gives a value had its bits in IN, and a port that answered with success (R91). -/
theorem readBits_eq_val {n v : Nat} {s t : State} (h : readBits n s = .ok (.val v) t) :
    s.inp.pos + n ≤ s.inp.bits.length ∧ v = num ((remaining s).take n) ∧ t = moveIn (s.inp.pos + n) (afterCalls 1 s) := by
  unfold readBits at h
  cases ha : nextAnswer s with
  | resetFirst => rw [ha] at h; cases h
  | fails k => rw [ha] at h; cases h
  | succeeds =>
    rw [ha] at h
    simp only at h
    split at h
    · cases h
    · next hlt =>
      cases h
      exact ⟨by omega, rfl, by rw [dropAnswer_eq]⟩

/-- Where `des()` returns, it has consumed the serialized form of a tree and written that tree's records (R193, R194, R198 (b)). -/
theorem desNode_eq_ok {n : Nat} {s u : State} {i : NodeIdx} (h : desNode n s = .ok i u) (hle : s.nodes.toNat ≤ 513) :
    ∃ t k rest, i = s.nodes ∧ remaining s = t.bits ++ rest ∧ s.nodes.toNat + t.size ≤ 513 ∧ u = desDone t k s := by
  induction n generalizing s i u with
  | zero => cases h
  | succ n ih =>
    obtain ⟨b, s1, hb, h⟩ := bind_eq_ok.mp h
    cases b with
    | ioFail => cases h
    | eos => cases h
    | val b =>
      obtain ⟨hlen, rfl, rfl⟩ := readBits_eq_val hb
      -- the tag bit
      obtain ⟨tag, q, hq⟩ : ∃ tag q, remaining s = tag :: q := by
        cases hr : remaining s with
        | nil => have := remaining_length (s := s); rw [hr] at this; simp at this; omega
        | cons tag q => exact ⟨tag, q, rfl⟩
      rw [hq, num_take_one] at h
      simp only at h
      split at h
      · cases h
      · next hcap =>
        have hcap' : s.nodes.toNat ≠ 513 := hcap
        have hc1 : (s.nodes + 1).toNat = s.nodes.toNat + 1 := toNat_add_ofNat (n := 1) (by omega)
        cases tag with
        | false =>
          rw [Bool.toNat_false, if_pos rfl] at h
          obtain ⟨l, s2, h2, h⟩ := bind_eq_ok.mp h
          obtain ⟨r, s3, h3, h⟩ := bind_eq_ok.mp h
          obtain ⟨tl, j, q1, e1, e2, e3, rfl⟩ := ih h2 (by simp only [writeNode_nodes, moveIn_nodes, afterCalls, hc1]; omega)
          have hn1 : (writeNode (moveIn (s.inp.pos + 1) (afterCalls 1 s)).nodes (internalNode 0 0 0)
            { moveIn (s.inp.pos + 1) (afterCalls 1 s) with
              nodes := (moveIn (s.inp.pos + 1) (afterCalls 1 s)).nodes + 1 }).nodes = s.nodes + 1 := rfl
          rw [hn1, hc1] at e3
          rw [hn1] at e1
          rw [remaining_moveIn 1 s _ rfl, hq] at e2
          simp only [List.drop_one, List.tail_cons] at e2
          have hc2 : (s.nodes + 1 + BitVec.ofNat 10 tl.size).toNat = s.nodes.toNat + 1 + tl.size := by
            rw [toNat_add_ofNat (by omega), hc1]
          have hn2 : ∀ w : State, w.nodes = s.nodes + 1 → (desDone tl j w).nodes = s.nodes + 1 + BitVec.ofNat 10 tl.size :=
            fun w hw => by rw [← hw]; rfl
          obtain ⟨tr, k, q2, f1, f2, f3, rfl⟩ := ih h3 (by rw [hn2 _ hn1, hc2]; omega)
          rw [hn2 _ hn1, hc2] at f3
          rw [hn2 _ hn1] at f1
          rw [remaining_moveIn tl.bits.length _ (desDone tl j _) rfl, remaining_moveIn 1 s _ rfl, hq] at f2
          simp only [List.drop_one, List.tail_cons] at f2
          rw [e2, List.drop_left] at f2
          refine ⟨.node tl tr, 1 + j + k, q2, ?_, ?_, ?_, ?_⟩
          · cases h; rfl
          · rw [hq, e2, f2]; simp [Tree.bits]
          · rw [Tree.size_node]; omega
          · rw [← desDone_node tl tr j k s (by rw [Tree.size_node]; omega)]
            cases h
            rw [e1, f1]
            rfl
        | true =>
          rw [Bool.toNat_true, if_neg (by decide)] at h
          obtain ⟨v, s2, h2, h⟩ := bind_eq_ok.mp h
          cases v with
          | ioFail => cases h
          | eos => cases h
          | val v =>
            obtain ⟨hlen2, rfl, rfl⟩ := readBits_eq_val h2
            rw [remaining_moveIn 1 s _ rfl, hq] at h
            simp only [moveIn_inp, afterCalls] at hlen2
            have hq9 : (q.take 9).length = 9 := by
              have := remaining_length (s := s)
              rw [hq] at this
              simp only [List.length_cons] at this
              rw [List.length_take]; omega
            refine ⟨.leaf (BitVec.ofNat 9 (num (q.take 9))), 2, q.drop 9, ?_, ?_, ?_, ?_⟩
            · cases h; rfl
            · have hv : bitsOf 9 (BitVec.ofNat 9 (num (q.take 9))).toNat = q.take 9 := by
                rw [BitVec.toNat_ofNat, bitsOf_mod]
                conv_rhs => rw [← bitsOf_num (q.take 9), hq9]
              rw [hq, Tree.bits, hv, List.cons_append, List.take_append_drop]
            · rw [Tree.size_leaf]; omega
            · rw [← desDone_leaf]
              cases h
              rfl

/-- Records at their places in the node store hold their tree, and its indices are met in ascending order (R194). -/
theorem treeAt_records {t : Tree} {base n : Nat} {s : State}
    (hr : ∀ j < t.size, s.node[base + j]? = (t.records base)[j]?) (hlt : base + t.size ≤ s.nodes.toNat)
    (hn : t.height < n) :
    treeAt n s (BitVec.ofNat 10 base) = some t ∧
      indicesAt n s (BitVec.ofNat 10 base) = some (List.range' base t.size) := by
  have hnodes := s.nodes.isLt
  induction n generalizing t base with
  | zero => omega
  | succ n ih =>
    have hb : (BitVec.ofNat 10 base).toNat = base := by
      rw [BitVec.toNat_ofNat]; simp only [Tree.size] at hlt; omega
    have hi : (BitVec.ofNat 10 base).toNat < s.nodes.toNat := by
      rw [hb]; simp only [Tree.size] at hlt; omega
    have h0 := hr 0 (by simp [Tree.size])
    cases t with
    | leaf v =>
      simp only [Tree.records, Nat.add_zero, List.getElem?_cons_zero] at h0
      constructor
      · exact treeAt_leaf hi (by rw [hb]; exact h0) rfl
      · simp [indicesAt, hb, h0, leafNode, Tree.size_leaf]
        omega
    | node l r =>
      simp only [Tree.records, Nat.add_zero, List.getElem?_cons_zero] at h0
      rw [Tree.size_node] at hlt hr
      simp only [Tree.height] at hn
      obtain ⟨l1, l2⟩ := ih (t := l) (base := base + 1) (fun j hj => by
        have := hr (1 + j) (by omega)
        rw [show base + (1 + j) = base + 1 + j by omega, Tree.records, Nat.add_comm 1 j, List.getElem?_cons_succ,
          List.getElem?_append_left (by simpa using hj)] at this
        exact this) (by omega) (by omega)
      obtain ⟨r1, r2⟩ := ih (t := r) (base := base + 1 + l.size) (fun j hj => by
        have := hr (1 + l.size + j) (by omega)
        rw [show base + (1 + l.size + j) = base + 1 + l.size + j by omega, Tree.records,
          show 1 + l.size + j = (l.size + j) + 1 by omega, List.getElem?_cons_succ,
          List.getElem?_append_right (by simp)] at this
        simpa using this) (by omega) (by omega)
      constructor
      · exact treeAt_node hi (by rw [hb]; exact h0) rfl l1 r1
      · have hi' : base < s.nodes.toNat := by omega
        simp only [indicesAt, hb, hi', if_true, h0, internalNode, Bool.false_eq_true, if_false, l2, r2]
        rw [Tree.size_node, Nat.add_assoc 1, Nat.add_comm 1, List.range'_succ, List.range'_append_1]

/-- The children of the records of a tree are above their parent and inside the tree, and differ (R194). -/
theorem Tree.records_children {t : Tree} {base j : Nat} {r : Node} (hcap : base + t.size ≤ 513)
    (h : (t.records base)[j]? = some r) (hl : r.leaf = false) :
    base + j < r.left.toNat ∧ base + j < r.right.toNat ∧ r.left.toNat < base + t.size ∧
      r.right.toNat < base + t.size ∧ r.left ≠ r.right := by
  induction t generalizing base j with
  | leaf v =>
    cases j with
    | zero => simp only [records, List.getElem?_cons_zero, Option.some.injEq] at h; subst h; cases hl
    | succ j => simp [records] at h
  | node a b ha hb =>
    rw [Tree.size_node] at hcap ⊢
    have hsa : 0 < a.size := by simp [size]
    have hsb : 0 < b.size := by simp [size]
    cases j with
    | zero =>
      simp only [records, List.getElem?_cons_zero, Option.some.injEq] at h
      subst h
      have e1 : (BitVec.ofNat 10 (base + 1)).toNat = base + 1 := by rw [BitVec.toNat_ofNat]; omega
      have e2 : (BitVec.ofNat 10 (base + 1 + a.size)).toNat = base + 1 + a.size := by rw [BitVec.toNat_ofNat]; omega
      simp only [internalNode, e1, e2]
      refine ⟨by omega, by omega, by omega, by omega, fun he => ?_⟩
      have := congrArg BitVec.toNat he
      rw [e1, e2] at this
      omega
    | succ j =>
      rw [records, List.getElem?_cons_succ] at h
      by_cases hj : j < a.size
      · rw [List.getElem?_append_left (by simpa using hj)] at h
        obtain ⟨h1, h2, h3, h4, h5⟩ := ha (by omega) h
        exact ⟨by omega, by omega, by omega, by omega, h5⟩
      · rw [List.getElem?_append_right (by simp; omega), records_length] at h
        obtain ⟨h1, h2, h3, h4, h5⟩ := hb (by omega) h
        exact ⟨by omega, by omega, by omega, by omega, h5⟩

/-- Every record of a serialized tree has weight 0 (R194). -/
theorem Tree.records_weight {t : Tree} {base : Nat} : ∀ r ∈ t.records base, r.weight = 0 := by
  induction t generalizing base with
  | leaf v => simp [records, leafNode]
  | node a b ha hb =>
    simp only [records, List.mem_cons, List.mem_append]
    rintro r (rfl | h | h)
    · rfl
    · exact ha r h
    · exact hb r h

/-- A tree has as many leaf records as leaves. -/
theorem Tree.records_countP (t : Tree) (base : Nat) : (t.records base).countP (·.leaf) = t.leafCount := by
  induction t generalizing base with
  | leaf v => rfl
  | node a b ha hb =>
    rw [records, List.countP_cons_of_neg (by simp [internalNode]), List.countP_append, ha, hb, leafCount]

/-- The records in use after a tree has been read into an empty store are the tree's, in pre-order. -/
theorem usedRecords_desDone {t : Tree} {s : State} (hlen : s.node.length = 513) (hcap : t.size ≤ 513) (n : BitVec 10)
    (hn : n.toNat = t.size) {u : State} (hu : u.nodes = n) (hnode : u.node = putRecords 0 (t.records 0) s.node) :
    usedRecords u = t.records 0 := by
  apply List.ext_getElem?
  intro j
  rw [usedRecords, hu, hn, hnode, List.getElem?_take, putRecords_getElem? 0 _ _ _ (by simpa [hlen] using hcap)]
  by_cases hj : j < t.size
  · rw [if_pos hj, if_pos (by simpa using hj)]; simp
  · rw [if_neg hj, List.getElem?_eq_none (by simpa using hj)]

/-- A state whose registers and records are those of a tree read into an empty store holds that tree (R47, R194). -/
theorem wellFormedTree_of_records {t : Tree} {s u : State} (hlen : s.node.length = 513) (hcap : t.size ≤ 513)
    (hnode : u.node = putRecords 0 (t.records 0) s.node) (hnodes : u.nodes = BitVec.ofNat 10 t.size)
    (hleaves : u.leaves = BitVec.ofNat 10 t.leafCount) (hroot : u.root = 0) :
    heldTree u = some t ∧ WellFormedTree u := by
  have hn : u.nodes.toNat = t.size := by rw [hnodes, BitVec.toNat_ofNat]; omega
  have hl : u.leaves.toNat = t.leafCount := by
    have := t.leafCount_eq
    simp only [Tree.size] at hcap
    rw [hleaves, BitVec.toNat_ofNat]; omega
  have hr : ∀ j < t.size, u.node[0 + j]? = (t.records 0)[j]? := by
    intro j hj
    rw [Nat.zero_add, hnode, putRecords_getElem? 0 _ _ _ (by simpa [hlen] using hcap), if_pos (by simpa using hj)]
    simp
  have hused : usedRecords u = t.records 0 := usedRecords_desDone hlen hcap _ (by rw [← hnodes, hn]) hnodes hnode
  have hroot' : u.root = BitVec.ofNat 10 0 := hroot
  have hheight := t.height_le
  have hsize : t.size = 2 * t.innerCount + 1 := rfl
  refine ⟨?_, ?_⟩
  · rw [heldTree, hroot']
    exact (treeAt_records hr (by omega) (by simp only [Config.treeDepth]; omega)).1
  · refine ⟨by omega, by omega, by rw [hroot, hn]; simp; omega, ?_, ?_, ?_, ?_⟩
    · intro r hmem hleaf
      rw [hused] at hmem
      obtain ⟨j, hj⟩ := List.getElem?_of_mem hmem
      obtain ⟨-, -, h3, h4, h5⟩ := Tree.records_children (by omega) hj hleaf
      exact ⟨by omega, by omega, h5⟩
    · refine ⟨List.range' 0 t.size, ?_, by rw [hn, List.range_eq_range']⟩
      rw [hroot']
      exact (treeAt_records hr (by omega) (by simp only [Config.nodeCap]; omega)).2
    · rw [hused, Tree.records_countP, hl]
    · have := t.leafCount_eq; omega

/-- Where DES succeeds (R193): it consumed the serialized form of a tree, and holds that tree. -/
theorem desBody_eq_ok {s u : State} (h : desBody s = .ok () u) :
    ∃ t k rest, remaining s = t.bits ++ rest ∧ t.size ≤ 513 ∧
      u = { desDone t k (desStart s) with root := 0, treeValid := true } := by
  obtain ⟨i, v, hv, h⟩ := bind_eq_ok.mp h
  obtain ⟨t, k, rest, rfl, h2, h3, rfl⟩ := desNode_eq_ok hv (by simp [desStart])
  refine ⟨t, k, rest, h2, by simpa [desStart] using h3, ?_⟩
  cases h
  rfl

/-- DES succeeds where IN holds the serialized form of a tree of at most 257 leaves, and no call fails (R193, R198 (a)). -/
theorem desBody_run {t : Tree} {s : State} {rest : BitString} (hb : remaining s = t.bits ++ rest) (hp : PortsSucceed s)
    (hlen : s.node.length = 513) (hcap : t.leafCount ≤ 257) :
    ∃ k, desBody s = .ok () { desDone t k (desStart s) with root := 0, treeValid := true } := by
  have h1 := t.leafCount_eq
  have h2 := t.height_le
  obtain ⟨k, hk⟩ := desNode_run (n := Config.nodeCap + 1) (t := t) (s := desStart s) (rest := rest) hb hp hlen
    (by simp [desStart, Tree.size]; omega) (by simp only [Config.nodeCap]; omega)
  refine ⟨k, ?_⟩
  rw [desBody, hk]
  rfl

end Sys2Proof.Machine
end

