-- ==== Sys2Proof/Laws/Walk.lean ====
section
/-! SUPPORT. DECODE (spec/45_decoder.md): what it keeps, that it does not stop on a tree, and what its walk does (R270 to R274). -/

namespace Sys2Proof.Machine

/-- DECODE keeps what its own updates keep. -/
theorem decodeLoop_all {P : State → Prop} (hd : ∀ t, P t → P (dropAnswer t))
    (hm : ∀ p t, P t → (t.inp.pos ≤ t.inp.bits.length → p ≤ t.inp.bits.length) → P (moveIn p t))
    (ha : ∀ b t, P t → t.out.closed = false → P (appendOut b t)) (hc : ∀ i t, P t → P (moveCur i t)) (n : Nat)
    (s : State) (h : P s) : (decodeLoop n s).All P := by
  induction n generalizing s with
  | zero => trivial
  | succ n ih =>
    refine all_bind (readBits_all hd hm h) fun b s h => ?_
    cases b with
    | ioFail => exact h
    | eos => exact h
    | val b =>
      refine all_bind (readNode_all h) fun r s h => all_bind (readNode_all (hc _ s h)) fun r s h => ?_
      split
      · split
        · exact h
        · exact all_bind (emitBits_all hd ha h) fun _ s h => ih _ (hc _ s h)
      · exact ih s h

theorem decodeBody_all {P : State → Prop} (hd : ∀ t, P t → P (dropAnswer t))
    (hm : ∀ p t, P t → (t.inp.pos ≤ t.inp.bits.length → p ≤ t.inp.bits.length) → P (moveIn p t))
    (ha : ∀ b t, P t → t.out.closed = false → P (appendOut b t)) (hc : ∀ i t, P t → P (moveCur i t)) {s : State}
    (h : P s) : (decodeBody s).All P := by
  unfold decodeBody
  split
  · refine all_bind (readNode_all (hc _ s h)) fun r s h => ?_
    split
    · split <;> exact h
    · exact decodeLoop_all hd hm ha hc _ _ h
  · exact h

/-- The store, ROOT and NODES of a state, which DECODE never changes. -/
def SameTree (s t : State) : Prop := t.nodes = s.nodes ∧ t.node = s.node ∧ t.root = s.root

theorem sameTree_treeAt {s t : State} (h : SameTree s t) (n : Nat) (i : NodeIdx) : treeAt n t i = treeAt n s i :=
  treeAt_congr h.1 h.2.1 n i

/-- A record that roots a tree can be read. -/
theorem readNode_of_treeAt {n : Nat} {s : State} {i : NodeIdx} {t : Tree} (h : treeAt n s i = some t) :
    ∃ r, readNode i s = .ok r s ∧ r.leaf = t.isLeaf := by
  cases n with
  | zero => cases h
  | succ n =>
    obtain ⟨r, hi, hr, ⟨hl, rfl⟩ | ⟨hl, l, u, -, -, rfl⟩⟩ := treeAt_cases h
    · exact ⟨r, readNode_eq_ok.mpr ⟨hi, hr, rfl⟩, hl⟩
    · exact ⟨r, readNode_eq_ok.mpr ⟨hi, hr, rfl⟩, hl⟩

/-- The walk from an internal node does not stop, and never passes its bound (R158, R272). -/
theorem decodeLoop_notStuck {m : Nat} {root l₀ r₀ : Tree} (hroot : root = .node l₀ r₀) (n : Nat) (s : State)
    (hr : treeAt m s s.root = some root) {k : Nat} {l u : Tree} (hcur : treeAt k s s.cur = some (.node l u))
    (hn : s.inp.bits.length - s.inp.pos < n) : (decodeLoop n s).NotStuck := by
  induction n generalizing s k l u with
  | zero => omega
  | succ n ih =>
    refine notStuck_bind (readBits_notStuck _ _) fun b v hb => ?_
    cases b with
    | ioFail => trivial
    | eos => trivial
    | val b =>
      obtain ⟨hlen, -, rfl⟩ := readBits_eq_val hb
      obtain ⟨k, rfl⟩ : ∃ j, k = j + 1 := ⟨k - 1, by cases k <;> [cases hcur; rfl]⟩
      obtain ⟨r, hi, hrec, ⟨hl, h⟩ | ⟨hl, l', u', h1, h2, h⟩⟩ := treeAt_cases hcur
      · cases h
      · cases h
        have hread : readNode (moveIn (s.inp.pos + 1) (afterCalls 1 s)).cur (moveIn (s.inp.pos + 1) (afterCalls 1 s)) =
            .ok r (moveIn (s.inp.pos + 1) (afterCalls 1 s)) := readNode_eq_ok.mpr ⟨hi, hrec, rfl⟩
        simp only [hread, bind_ok]
        -- the state after the move
        generalize hj : (if b = 0 then r.left else r.right) = j
        obtain ⟨t, ht⟩ : ∃ t, treeAt k s j = some t := by
          subst hj; split
          · exact ⟨_, h1⟩
          · exact ⟨_, h2⟩
        have ht' : treeAt k (moveCur j (moveIn (s.inp.pos + 1) (afterCalls 1 s)))
            (moveCur j (moveIn (s.inp.pos + 1) (afterCalls 1 s))).cur = some t := by simpa using ht
        obtain ⟨q, hq, hleaf⟩ := readNode_of_treeAt ht'
        simp only [hq, bind_ok]
        cases t with
        | leaf x =>
          rw [hleaf]
          simp only [Tree.isLeaf, if_true]
          split
          · trivial
          · refine notStuck_bind (emitBits_notStuck _ _ _) fun _ w hw => ?_
            have hsame := emitBits_all (n := 8) (v := q.sym.toNat % 256)
              (s := moveCur j (moveIn (s.inp.pos + 1) (afterCalls 1 s)))
              (P := fun x => SameTree s x ∧ x.inp = ⟨s.inp.bits, s.inp.pos + 1⟩) (fun _ h => h) (fun _ _ h _ => h)
              ⟨⟨rfl, rfl, rfl⟩, rfl⟩
            rw [hw] at hsame
            obtain ⟨hs, hinp⟩ := hsame
            subst hroot
            refine ih (moveCur w.root w) (k := m) (l := l₀) (u := r₀) ?_ ?_ ?_
            · rw [sameTree_treeAt (s := s) (t := moveCur w.root w) hs]
              simpa [hs.2.2] using hr
            · rw [sameTree_treeAt (s := s) (t := moveCur w.root w) hs]
              simpa [hs.2.2] using hr
            · simp only [moveCur_inp, hinp]; omega
        | node a b' =>
          rw [hleaf]
          simp only [Tree.isLeaf, Bool.false_eq_true, if_false]
          exact ih _ (by simpa using hr) ht' (by simp only [moveCur_inp, moveIn_inp, afterCalls]; omega)

/-- DECODE does not stop while it holds a tree (R158, R272). -/
theorem decodeBody_notStuck {s : State} {t : Tree} (ht : s.treeValid = true → heldTree s = some t) :
    (decodeBody s).NotStuck := by
  unfold decodeBody
  split
  · next hv =>
    have h : treeAt Config.treeDepth (moveCur s.root s) s.root = some t := by
      rw [treeAt_moveCur]; exact ht hv
    obtain ⟨r, hr, hleaf⟩ := readNode_of_treeAt h
    simp only [moveCur_root, hr, bind_ok]
    cases t with
    | leaf x =>
      rw [hleaf]
      simp only [Tree.isLeaf, if_true]
      split <;> trivial
    | node a b =>
      rw [hleaf]
      simp only [Tree.isLeaf, Bool.false_eq_true, if_false]
      exact decodeLoop_notStuck rfl _ _ h h (by simp [decodeReads])
  · trivial

/-- What the pass of DECODE's loop that reaches the leaf of symbol `x` does (R273). -/
def leafReached (n : Nat) (x : Sym) (s : State) : Flow Unit :=
  if x.toNat = Config.pseudoEof then .ok () s
  else (emitBits 8 (x.toNat % 256) s).bind fun _ s => decodeLoop n (moveCur s.root s)

/-- The walk down a path from an internal node to a leaf, where no call fails (R272, R273). -/
theorem decodeLoop_path {m n : Nat} {s : State} {l u : Tree} {q rest : BitString} {x : Sym}
    (hcur : treeAt m s s.cur = some (.node l u)) (hq : (Tree.node l u).follow q = some (.leaf x))
    (hb : remaining s = q ++ rest) (hp : PortsSucceed s) :
    ∃ j, decodeLoop (n + q.length) s =
      leafReached n x (moveCur j (moveIn (s.inp.pos + q.length) (afterCalls q.length s))) := by
  induction q generalizing s m l u with
  | nil => simp at hq
  | cons b q ih =>
    have hlen := congrArg List.length hb
    rw [remaining_length, List.length_append, List.length_cons] at hlen
    have e1 := readBits_val (n := 1) (nextAnswer_of_portsSucceed hp) (s := s) (by omega)
    rw [hb, List.cons_append, num_take_one] at e1
    obtain ⟨m, rfl⟩ : ∃ j, m = j + 1 := ⟨m - 1, by cases m <;> [cases hcur; rfl]⟩
    obtain ⟨r, hi, hrec, ⟨hl, h⟩ | ⟨hl, l', u', h1, h2, h⟩⟩ := treeAt_cases hcur
    · cases h
    · cases h
      have hread : readNode (moveIn (s.inp.pos + 1) (afterCalls 1 s)).cur (moveIn (s.inp.pos + 1) (afterCalls 1 s)) =
          .ok r (moveIn (s.inp.pos + 1) (afterCalls 1 s)) := readNode_eq_ok.mpr ⟨hi, hrec, rfl⟩
      rw [List.length_cons, ← Nat.add_assoc]
      rw [decodeLoop, e1, bind_ok]
      simp only [hread, bind_ok]
      generalize hj : (if b.toNat = 0 then r.left else r.right) = j
      obtain ⟨t, ht, hf⟩ : ∃ t, treeAt m s j = some t ∧ t.follow q = some (.leaf x) := by
        cases b with
        | false => subst hj; exact ⟨l, h1, by simpa [Tree.follow] using hq⟩
        | true => subst hj; exact ⟨u, h2, by simpa [Tree.follow] using hq⟩
      generalize hv : moveCur j (moveIn (s.inp.pos + 1) (afterCalls 1 s)) = v
      have ht' : treeAt m v v.cur = some t := by subst hv; simpa using ht
      obtain ⟨w, hw, hleaf⟩ := readNode_of_treeAt ht'
      simp only [hw, bind_ok]
      cases t with
      | leaf y =>
        cases q with
        | cons c q => simp [Tree.follow] at hf
        | nil =>
          simp only [Tree.follow_nil, Option.some.injEq, Tree.leaf.injEq] at hf
          subst hf
          refine ⟨j, ?_⟩
          obtain ⟨k, rfl⟩ : ∃ k, m = k + 1 := ⟨m - 1, by cases m <;> [cases ht'; rfl]⟩
          obtain ⟨w', -, hrec', ⟨-, he⟩ | ⟨-, _, _, -, -, he⟩⟩ := treeAt_cases ht'
          · obtain ⟨-, hrec'', -⟩ := readNode_eq_ok.mp hw
            have hww : w' = w := Option.some.inj (hrec'.symm.trans hrec'')
            subst hww
            have hsym : w'.sym = y := by simpa [eq_comm] using he
            rw [hleaf]
            simp only [Tree.isLeaf, if_true, hsym, leafReached]
            subst hv
            rfl
          · cases he
      | node a c =>
        rw [hleaf]
        simp only [Tree.isLeaf, Bool.false_eq_true, if_false]
        have hrem : remaining v = q ++ rest := by
          rw [remaining_moveIn 1 s v (by subst hv; rfl), hb]; rfl
        obtain ⟨j', e⟩ := ih ht' hf hrem (by subst hv; exact portsSucceed_afterCalls hp 1)
        refine ⟨j', ?_⟩
        rw [e]
        subst hv
        rw [show s.inp.pos + (q.length + 1) = s.inp.pos + 1 + q.length by omega]
        simp [moveCur, moveIn, afterCalls]

/-- Bits that end inside a code: the walk meets the end of IN (R274). -/
theorem decodeLoop_exhausted {m n : Nat} {s : State} {l u : Tree} {q : BitString} {t : Tree}
    (hcur : treeAt m s s.cur = some (.node l u)) (hq : (Tree.node l u).follow q = some t) (hinner : t.isLeaf = false)
    (hb : remaining s = q) (hpos : s.inp.pos ≤ s.inp.bits.length) (hp : PortsSucceed s) :
    ∃ j k, decodeLoop (n + q.length + 1) s =
      .raised .eosBody (moveCur j (moveIn s.inp.bits.length (afterCalls k s))) := by
  induction q generalizing s m l u with
  | nil =>
    have hlen := congrArg List.length hb
    rw [remaining_length, List.length_nil] at hlen
    refine ⟨s.cur, 1, ?_⟩
    rw [decodeLoop, readBits_eos (nextAnswer_of_portsSucceed hp) (by omega)]
    rfl
  | cons b q ih =>
    have hlen := congrArg List.length hb
    rw [remaining_length, List.length_cons] at hlen
    have e1 := readBits_val (n := 1) (nextAnswer_of_portsSucceed hp) (s := s) (by omega)
    rw [hb, num_take_one] at e1
    obtain ⟨m, rfl⟩ : ∃ j, m = j + 1 := ⟨m - 1, by cases m <;> [cases hcur; rfl]⟩
    obtain ⟨r, hi, hrec, ⟨hl, h⟩ | ⟨hl, l', u', h1, h2, h⟩⟩ := treeAt_cases hcur
    · cases h
    · cases h
      have hread : readNode (moveIn (s.inp.pos + 1) (afterCalls 1 s)).cur (moveIn (s.inp.pos + 1) (afterCalls 1 s)) =
          .ok r (moveIn (s.inp.pos + 1) (afterCalls 1 s)) := readNode_eq_ok.mpr ⟨hi, hrec, rfl⟩
      rw [List.length_cons, ← Nat.add_assoc, decodeLoop, e1, bind_ok]
      simp only [hread, bind_ok]
      generalize hj : (if b.toNat = 0 then r.left else r.right) = j
      obtain ⟨w, hw, hf⟩ : ∃ w, treeAt m s j = some w ∧ w.follow q = some t := by
        cases b with
        | false => subst hj; exact ⟨l, h1, by simpa [Tree.follow] using hq⟩
        | true => subst hj; exact ⟨u, h2, by simpa [Tree.follow] using hq⟩
      generalize hv : moveCur j (moveIn (s.inp.pos + 1) (afterCalls 1 s)) = v
      have ht' : treeAt m v v.cur = some w := by subst hv; simpa using hw
      obtain ⟨w', hw', hleaf⟩ := readNode_of_treeAt ht'
      simp only [hw', bind_ok]
      cases w with
      | leaf y =>
        cases q with
        | cons c q => simp [Tree.follow] at hf
        | nil =>
          simp only [Tree.follow_nil, Option.some.injEq] at hf
          subst hf
          cases hinner
      | node a c =>
        rw [hleaf]
        simp only [Tree.isLeaf, Bool.false_eq_true, if_false]
        have hrem : remaining v = q := by
          rw [remaining_moveIn 1 s v (by subst hv; rfl), hb]; rfl
        have hinp : v.inp = ⟨s.inp.bits, s.inp.pos + 1⟩ := by subst hv; rfl
        obtain ⟨j', k, e⟩ := ih ht' hf hrem (by rw [hinp]; simp only; omega)
          (by subst hv; exact portsSucceed_afterCalls hp 1)
        refine ⟨j', 1 + k, ?_⟩
        rw [e, hinp]
        subst hv
        simp [moveCur, moveIn, afterCalls, Nat.add_comm]

/-- The body of a stream: the codes of symbols other than PSEUDO_EOF, walked from ROOT one after the other; each writes its
low 8 bits (R273). -/
theorem decodeLoop_symbols {m n : Nat} {s : State} {l u : Tree} (es : List (Sym × BitString)) {rest : BitString}
    (hroot : treeAt m s s.root = some (.node l u)) (hcur : s.cur = s.root)
    (hes : ∀ e ∈ es, (Tree.node l u).follow e.2 = some (.leaf e.1) ∧ e.1.toNat ≠ Config.pseudoEof)
    (hb : remaining s = (es.flatMap Prod.snd) ++ rest) (hp : PortsSucceed s) (ho : s.out.closed = false) :
    ∃ k, decodeLoop (n + (es.flatMap Prod.snd).length) s =
      decodeLoop n (moveIn (s.inp.pos + (es.flatMap Prod.snd).length)
        (appendOut (es.flatMap fun e => bitsOf 8 (e.1.toNat % 256)) (afterCalls k s))) := by
  induction es generalizing s with
  | nil => exact ⟨0, by simp [moveIn]⟩
  | cons e es ih =>
    obtain ⟨hf, hne⟩ := hes e (by simp)
    rw [List.flatMap_cons, List.append_assoc] at hb
    obtain ⟨j, e1⟩ := decodeLoop_path (n := n + (es.flatMap Prod.snd).length) (hcur ▸ hroot) hf hb hp
    have hlen : n + ((e :: es).flatMap Prod.snd).length = n + (es.flatMap Prod.snd).length + e.2.length := by
      rw [List.flatMap_cons, List.length_append]; omega
    have hpw : PortsSucceed (moveCur j (moveIn (s.inp.pos + e.2.length) (afterCalls e.2.length s))) :=
      portsSucceed_afterCalls hp _
    rw [hlen, e1, leafReached, if_neg hne, emitBits_ok (nextAnswer_of_portsSucceed hpw) ho, bind_ok]
    -- back at ROOT
    generalize hv : moveCur (appendOut (bitsOf 8 (e.1.toNat % 256)) (afterCalls 1
      (moveCur j (moveIn (s.inp.pos + e.2.length) (afterCalls e.2.length s))))).root
      (appendOut (bitsOf 8 (e.1.toNat % 256)) (afterCalls 1
        (moveCur j (moveIn (s.inp.pos + e.2.length) (afterCalls e.2.length s))))) = v
    have hvroot : v.root = s.root := by subst hv; simp
    have hvcur : v.cur = v.root := by subst hv; simp
    have hvtree : treeAt m v v.root = some (.node l u) := by
      rw [hvroot, treeAt_congr (s := s) (t := v) (by subst hv; simp) (by subst hv; simp)]; exact hroot
    have hvb : remaining v = es.flatMap Prod.snd ++ rest := by
      rw [remaining_moveIn e.2.length s v (by subst hv; simp), hb, List.drop_left]
    obtain ⟨k, e2⟩ := ih hvtree hvcur (fun f hf => hes f (by simp [hf])) hvb
      (portsSucceed_of_drop hp (e.2.length + 1) (by subst hv; simp [List.drop_drop])) (by subst hv; simpa using ho)
    refine ⟨e.2.length + 1 + k, ?_⟩
    rw [e2]
    congr 1
    subst hv
    simp only [List.flatMap_cons, List.length_append]
    apply State.ext
    case cur => simpa [moveCur, moveIn, appendOut, afterCalls] using hcur.symm
    case inp => simp [moveCur, moveIn, appendOut, afterCalls, Nat.add_assoc]
    case out => simp [moveCur, moveIn, appendOut, afterCalls]
    case answers => simp [moveCur, moveIn, appendOut, afterCalls, List.drop_drop, Nat.add_assoc]
    all_goals simp only [moveCur, moveIn, appendOut, afterCalls]

end Sys2Proof.Machine
end

