-- ==== Sys2Proof/Laws/Exec.lean ====
section
/-! SUPPORT. Every command is a body run by `runCommand`; and one lemma for the commands that only read the tree and the table:
they keep whatever the port calls and CUR keep. -/

namespace Sys2Proof.Machine

/-- The pseudocode of each command. -/
def bodyOf : Instr → State → Flow Unit
  | .nop => fun t => .ok () t
  | .clear => fun t => .ok () (clearAll t)
  | .build => fun t => .ok () (buildEffect t)
  | .ser => serBody
  | .des => desBody
  | .gentab => gentabBody
  | .enc sym => encBody sym
  | .encall => encallBody
  | .decode => decodeBody
  | .wmagic => emitBits 32 Config.magic.toNat
  | .rmagic => rmagicBody
  | .rewind => fun t => orIoError (resetIn t)
  | .close => fun t => orIoError (closeOut t)

theorem exec_eq_runCommand (i : Instr) (s : State) : exec i s = runCommand (bodyOf i) s := by
  cases i <;> rfl

theorem rmagicBody_all {P : State → Prop} (hd : ∀ t, P t → P (dropAnswer t))
    (hm : ∀ p t, P t → (t.inp.pos ≤ t.inp.bits.length → p ≤ t.inp.bits.length) → P (moveIn p t)) {s : State} (h : P s) :
    (rmagicBody s).All P := by
  refine all_bind (readBits_all hd hm h) fun r t ht => ?_
  cases r with
  | ioFail => exact ht
  | eos => exact ht
  | val v => simp only; split <;> exact ht

/-- What the port calls and CUR keep is kept by every command that writes neither the tree, nor the table, nor FREQ. -/
theorem streamBody_all {P : State → Prop} (hd : ∀ t, P t → P (dropAnswer t))
    (hm : ∀ p t, P t → (t.inp.pos ≤ t.inp.bits.length → p ≤ t.inp.bits.length) → P (moveIn p t))
    (ha : ∀ b t, P t → t.out.closed = false → P (appendOut b t)) (hf : ∀ t, P t → P (finishOut t))
    (hc : ∀ i t, P t → P (moveCur i t)) {i : Instr} (hi : i ≠ .clear ∧ i ≠ .build ∧ i ≠ .des ∧ i ≠ .gentab) {s : State}
    (h : P s) : (bodyOf i s).All P := by
  obtain ⟨h1, h2, h3, h4⟩ := hi
  cases i with
  | nop => exact h
  | clear => exact absurd rfl h1
  | build => exact absurd rfl h2
  | ser => exact serBody_all hd ha h
  | des => exact absurd rfl h3
  | gentab => exact absurd rfl h4
  | enc sym => exact encBody_all hd ha sym h
  | encall => exact encallBody_all hd hm ha h
  | decode => exact decodeBody_all hd hm ha hc h
  | wmagic => exact emitBits_all hd ha h
  | rmagic => exact rmagicBody_all hd hm h
  | rewind => exact orIoError_resetIn_all hd (fun t ht => hm 0 t ht fun _ => Nat.zero_le _) h
  | close => exact orIoError_closeOut_all hd hf h

end Sys2Proof.Machine
end

