-- ==== Sys2Proof/Laws/Calls.lean ====
section
/-! SUPPORT. The answers of the port calls are drawn one after the other: what a command does up to its n-th call depends on
the answers before it only, and the command ends at a failed call (with E_IO) and at a reset (R89 (e), R96, R306, R331). -/

namespace Sys2Proof.Machine

/-- The state with these answers to come. -/
def withAnswers (as : List PortAnswer) (s : State) : State := { s with answers := as }

/-- A piece of pseudocode, as a function of the answers to come, looked at with any answer `x` between `pre` and `post`:
either it ends before it draws `x`, or it draws `x` and, where `x` is a failure or a reset, ends there. -/
def CallsOneByOne {α : Type} (F : List PortAnswer → Flow α) : Prop :=
  ∀ pre post : List PortAnswer,
    (∃ a s rest, ∀ x, F (pre ++ x :: post) = .ok a (withAnswers (rest ++ x :: post) s)) ∨
    (∃ e s rest, ∀ x, F (pre ++ x :: post) = .raised e (withAnswers (rest ++ x :: post) s)) ∨
    (∃ s rest, ∀ x, F (pre ++ x :: post) = .abandoned (withAnswers (rest ++ x :: post) s)) ∨
    (∃ f, ∀ x, F (pre ++ x :: post) = .stuck f) ∨
    ((∀ k, ∃ u, F (pre ++ .fails k :: post) = .raised .io u ∧ u.answers = post) ∧
      ∃ u v, F (pre ++ .fails 0 :: post) = .raised .io u ∧ F (pre ++ .resetFirst :: post) = .abandoned v ∧
        coreReset v = coreReset u)

/-- A piece that makes no call. -/
theorem callsOneByOne_ok {α : Type} (a : α) (s : State) : CallsOneByOne fun as => .ok a (withAnswers as s) :=
  fun pre _ => .inl ⟨a, s, pre, fun _ => rfl⟩

theorem callsOneByOne_raised {α : Type} (e : ErrCode) (s : State) :
    CallsOneByOne fun as => (.raised e (withAnswers as s) : Flow α) :=
  fun pre _ => .inr (.inl ⟨e, s, pre, fun _ => rfl⟩)

theorem callsOneByOne_stuck {α : Type} (f : Fault) : CallsOneByOne fun _ => (.stuck f : Flow α) :=
  fun _ _ => .inr (.inr (.inr (.inl ⟨f, fun _ => rfl⟩)))

/-- One piece after another. -/
theorem callsOneByOne_bind {α β : Type} {F : List PortAnswer → Flow α} {g : α → State → Flow β} (hF : CallsOneByOne F)
    (hg : ∀ a s, CallsOneByOne fun as => g a (withAnswers as s)) : CallsOneByOne fun as => (F as).bind g := by
  intro pre post
  obtain ⟨a, s, rest, h⟩ | ⟨e, s, rest, h⟩ | ⟨s, rest, h⟩ | ⟨f, h⟩ | ⟨h1, u, v, h2, h3, h4⟩ := hF pre post
  · simpa only [h, bind_ok] using hg a s rest post
  · exact .inr (.inl ⟨e, s, rest, fun x => by simp only [h, bind_raised]⟩)
  · exact .inr (.inr (.inl ⟨s, rest, fun x => by simp only [h, bind_abandoned]⟩))
  · exact .inr (.inr (.inr (.inl ⟨f, fun x => by simp only [h, bind_stuck]⟩)))
  · refine .inr (.inr (.inr (.inr ⟨fun k => ?_, u, v, ?_, ?_, h4⟩)))
    · obtain ⟨u, hu, ha⟩ := h1 k
      exact ⟨u, by simp only [hu, bind_raised], ha⟩
    · simp only [h2, bind_raised]
    · simp only [h3, bind_abandoned]

/-- A read whose failure ends the command with E_IO, after a clean-up `c` that a reset undoes and no answer feels. -/
theorem callsOneByOne_readBits {α : Type} {n : Nat} {s : State} {h : ReadResult → State → Flow α} (c : State → State)
    (hio : ∀ t, h .ioFail t = .raised .io (c t)) (hc : ∀ as t, c (withAnswers as t) = withAnswers as (c t))
    (hr : ∀ p t, coreReset (c (moveIn p t)) = coreReset (moveIn p t))
    (hh : ∀ r, r ≠ .ioFail → ∀ t, CallsOneByOne fun as => h r (withAnswers as t)) :
    CallsOneByOne fun as => (readBits n (withAnswers as s)).bind h := by
  have fails : ∀ k as, (readBits n (withAnswers (.fails k :: as) s)).bind h =
      .raised .io (withAnswers as (c (moveIn (s.inp.pos + min k (s.inp.bits.length - s.inp.pos)) s))) := by
    intro k as
    rw [← hc, ← hio]
    rfl
  have resets : ∀ as, (readBits n (withAnswers (.resetFirst :: as) s)).bind h = .abandoned (withAnswers as s) := fun _ => rfl
  intro pre post
  cases pre with
  | nil =>
    refine .inr (.inr (.inr (.inr ⟨fun k => ⟨_, fails k post, rfl⟩, _, _, fails 0 post, resets post, ?_⟩)))
    have := hr s.inp.pos (withAnswers post s)
    rw [show moveIn s.inp.pos (withAnswers post s) = withAnswers post s from rfl, hc] at this
    rw [← this]
    simp only [Nat.zero_min, Nat.add_zero]
    rfl
  | cons y ys =>
    cases y with
    | resetFirst => exact .inr (.inr (.inl ⟨s, ys, fun x => resets _⟩))
    | fails k => exact .inr (.inl ⟨.io, _, ys, fun x => fails k _⟩)
    | succeeds =>
      by_cases hl : s.inp.bits.length < s.inp.pos + n
      · have e : ∀ as, (readBits n (withAnswers (.succeeds :: as) s)).bind h =
            h .eos (withAnswers as (moveIn s.inp.bits.length s)) := fun as => by
          rw [readBits_eos (s := withAnswers (.succeeds :: as) s) rfl hl]; rfl
        simp only [List.cons_append, e]
        exact hh .eos (by simp) _ ys post
      · have e : ∀ as, (readBits n (withAnswers (.succeeds :: as) s)).bind h =
            h (.val (num ((remaining s).take n))) (withAnswers as (moveIn (s.inp.pos + n) s)) := fun as => by
          rw [readBits_val (s := withAnswers (.succeeds :: as) s) rfl (Nat.not_lt.mp hl)]; rfl
        simp only [List.cons_append, e]
        exact hh _ (by simp) _ ys post

theorem callsOneByOne_emitBits (n v : Nat) (s : State) : CallsOneByOne fun as => emitBits n v (withAnswers as s) := by
  by_cases ho : s.out.closed = true
  · simp only [show ∀ as, emitBits n v (withAnswers as s) = .raised .io (withAnswers as s) from fun _ => emitBits_closed ho]
    exact callsOneByOne_raised .io s
  · have ho' : s.out.closed = false := by simpa using ho
    have ok : ∀ as, emitBits n v (withAnswers (.succeeds :: as) s) = .ok () (withAnswers as (appendOut (bitsOf n v) s)) :=
      fun as => by rw [emitBits_ok (s := withAnswers (.succeeds :: as) s) rfl ho']; rfl
    have fails : ∀ k as, emitBits n v (withAnswers (.fails k :: as) s) =
        .raised .io (withAnswers as (appendOut ((bitsOf n v).take k) s)) := fun k as => by
      rw [emitBits, writeBits_fails (s := withAnswers (.fails k :: as) s) rfl ho']; rfl
    have resets : ∀ as, emitBits n v (withAnswers (.resetFirst :: as) s) = .abandoned (withAnswers as s) := fun as => by
      simp [emitBits, orIoError, writeBits, withAnswers, ho', nextAnswer, dropAnswer]
    intro pre post
    cases pre with
    | nil =>
      exact .inr (.inr (.inr (.inr ⟨fun k => ⟨_, fails k post, rfl⟩, _, _, fails 0 post, resets post, by simp⟩)))
    | cons y ys =>
      cases y with
      | resetFirst => exact .inr (.inr (.inl ⟨s, ys, fun x => resets _⟩))
      | fails k => exact .inr (.inl ⟨.io, _, ys, fun x => fails k _⟩)
      | succeeds => exact .inl ⟨(), _, ys, fun x => ok _⟩

theorem callsOneByOne_readNode (i : NodeIdx) (s : State) : CallsOneByOne fun as => readNode i (withAnswers as s) := by
  unfold readNode
  by_cases hi : i.toNat < s.nodes.toNat
  · simp only [withAnswers, hi, if_true]
    cases s.node[i.toNat]? with
    | some r => exact callsOneByOne_ok r s
    | none => exact callsOneByOne_stuck _
  · simp only [withAnswers, hi, if_false]
    exact callsOneByOne_stuck _

theorem callsOneByOne_serNode (n : Nat) (i : NodeIdx) (s : State) :
    CallsOneByOne fun as => serNode n i (withAnswers as s) := by
  induction n generalizing i s with
  | zero => exact callsOneByOne_stuck _
  | succ n ih =>
    refine callsOneByOne_bind (callsOneByOne_readNode i s) fun r s => ?_
    cases r.leaf with
    | true => exact callsOneByOne_bind (callsOneByOne_emitBits 1 1 s) fun _ s => callsOneByOne_emitBits 9 _ s
    | false =>
      exact callsOneByOne_bind (callsOneByOne_emitBits 1 0 s) fun _ s =>
        callsOneByOne_bind (ih _ s) fun _ s => ih _ s

theorem callsOneByOne_desLeaf (i : NodeIdx) (s : State) : CallsOneByOne fun as => desLeaf i (withAnswers as s) := by
  refine callsOneByOne_readBits clearTreeRegs (fun _ => rfl) (fun _ _ => rfl) (fun _ _ => rfl) fun r hr t => ?_
  cases r with
  | ioFail => exact absurd rfl hr
  | eos => exact callsOneByOne_raised _ (clearTreeRegs t)
  | val v => exact callsOneByOne_ok i { writeNode i (leafNode (BitVec.ofNat 9 v) 0) t with leaves := t.leaves + 1 }

theorem callsOneByOne_desNode (n : Nat) (s : State) : CallsOneByOne fun as => desNode n (withAnswers as s) := by
  induction n generalizing s with
  | zero => exact callsOneByOne_stuck _
  | succ n ih =>
    refine callsOneByOne_readBits clearTreeRegs (fun _ => rfl) (fun _ _ => rfl) (fun _ _ => rfl) fun r hr t => ?_
    cases r with
    | ioFail => exact absurd rfl hr
    | eos => exact callsOneByOne_raised _ (clearTreeRegs t)
    | val v =>
      by_cases hcap : t.nodes.toNat = Config.nodeCap
      · simp only [show ∀ as, (withAnswers as t).nodes.toNat = Config.nodeCap from fun _ => hcap, if_true]
        exact callsOneByOne_raised _ (clearTreeRegs t)
      · simp only [show ∀ as, ¬ (withAnswers as t).nodes.toNat = Config.nodeCap from fun _ => hcap, if_false]
        by_cases hv : v = 0
        · simp only [hv, if_true]
          exact callsOneByOne_bind (g := fun l s => (desNode n s).bind fun r s => .ok t.nodes (setChildren t.nodes l r s))
            (ih (writeNode t.nodes (internalNode 0 0 0) { t with nodes := t.nodes + 1 })) fun l s =>
              callsOneByOne_bind (ih s) fun r s => callsOneByOne_ok t.nodes (setChildren t.nodes l r s)
        · simp only [hv, if_false]
          exact callsOneByOne_desLeaf t.nodes { t with nodes := t.nodes + 1 }

theorem callsOneByOne_genNode (n : Nat) (i : NodeIdx) (p : BitString) (s : State) :
    CallsOneByOne fun as => genNode n i p (withAnswers as s) := by
  induction n generalizing i p s with
  | zero => exact callsOneByOne_stuck _
  | succ n ih =>
    refine callsOneByOne_bind (callsOneByOne_readNode i s) fun r s => ?_
    split
    · split
      · exact callsOneByOne_raised _ (clearTable s)
      · exact callsOneByOne_ok () (writeCode _ _ s)
    · exact callsOneByOne_bind (ih _ _ s) fun _ s => ih _ _ s

theorem callsOneByOne_lookupAndEmit (sym : Nat) (s : State) :
    CallsOneByOne fun as => lookupAndEmit sym (withAnswers as s) := by
  unfold lookupAndEmit emitCode
  simp only [show ∀ as, readCode sym (withAnswers as s) = readCode sym s from fun _ => rfl]
  split
  · split
    · exact callsOneByOne_emitBits _ _ s
    · exact callsOneByOne_ok () s
  · exact callsOneByOne_raised _ s

theorem callsOneByOne_encLoop (n : Nat) (s : State) : CallsOneByOne fun as => encLoop n (withAnswers as s) := by
  induction n generalizing s with
  | zero => exact callsOneByOne_stuck _
  | succ n ih =>
    refine callsOneByOne_readBits id (fun _ => rfl) (fun _ _ => rfl) (fun _ _ => rfl) fun r hr t => ?_
    cases r with
    | ioFail => exact absurd rfl hr
    | eos => exact callsOneByOne_ok () t
    | val v => exact callsOneByOne_bind (callsOneByOne_lookupAndEmit v t) fun _ s => ih s

theorem callsOneByOne_decodeLoop (n : Nat) (s : State) : CallsOneByOne fun as => decodeLoop n (withAnswers as s) := by
  induction n generalizing s with
  | zero => exact callsOneByOne_stuck _
  | succ n ih =>
    refine callsOneByOne_readBits id (fun _ => rfl) (fun _ _ => rfl) (fun _ _ => rfl) fun r hr t => ?_
    cases r with
    | ioFail => exact absurd rfl hr
    | eos => exact callsOneByOne_raised _ t
    | val b =>
      refine callsOneByOne_bind (callsOneByOne_readNode t.cur t) fun r s => ?_
      refine callsOneByOne_bind (callsOneByOne_readNode _ (moveCur (if b = 0 then r.left else r.right) s)) fun r s => ?_
      cases r.leaf with
      | false => exact ih s
      | true =>
        simp only [if_true]
        split
        · exact callsOneByOne_ok () s
        · exact callsOneByOne_bind (callsOneByOne_emitBits _ _ s) fun _ s => ih (moveCur s.root s)

/-- A single call that is not a read or a write: its failure leaves what it leaves, and ends the command with E_IO. -/
theorem callsOneByOne_orIoError {f : State → Flow PortResult} {s : State} (okay : State) (failed : Nat → State)
    (hs : ∀ as, f (withAnswers (.succeeds :: as) s) = .ok .okay (withAnswers as okay))
    (hf : ∀ k as, f (withAnswers (.fails k :: as) s) = .ok .ioFail (withAnswers as (failed k)))
    (hr : ∀ as, f (withAnswers (.resetFirst :: as) s) = .abandoned (withAnswers as s)) (h0 : failed 0 = s) :
    CallsOneByOne fun as => orIoError (f (withAnswers as s)) := by
  intro pre post
  cases pre with
  | nil =>
    refine .inr (.inr (.inr (.inr ⟨fun k => ⟨withAnswers post (failed k), by simp [hf, orIoError], rfl⟩,
      withAnswers post (failed 0), withAnswers post s, by simp [hf, orIoError], by simp [hr, orIoError], by rw [h0]⟩)))
  | cons y ys =>
    cases y with
    | resetFirst => exact .inr (.inr (.inl ⟨s, ys, fun x => by simp [hr, orIoError]⟩))
    | fails k => exact .inr (.inl ⟨.io, failed k, ys, fun x => by simp [hf, orIoError]⟩)
    | succeeds => exact .inl ⟨(), okay, ys, fun x => by simp [hs, orIoError]⟩

theorem callsOneByOne_closeOut (s : State) : CallsOneByOne fun as => orIoError (closeOut (withAnswers as s)) := by
  by_cases ho : s.out.closed = true
  · have e : ∀ as, orIoError (closeOut (withAnswers as s)) = .ok () (withAnswers as s) := fun as => by
      simp [closeOut, withAnswers, ho, orIoError]
    simp only [e]
    exact callsOneByOne_ok () s
  · have ho' : s.out.closed = false := by simpa using ho
    refine callsOneByOne_orIoError (finishOut s) (fun k => if k = 0 then s else finishOut s) ?_ ?_ ?_ rfl
    · intro as; simp [closeOut, withAnswers, ho', nextAnswer, dropAnswer, finishOut]
    · intro k as
      by_cases hk : k = 0 <;> simp [closeOut, withAnswers, ho', nextAnswer, dropAnswer, finishOut, hk]
    · intro as; simp [closeOut, withAnswers, ho', nextAnswer, dropAnswer]

/-- Every command draws its answers one after the other. -/
theorem callsOneByOne_body (i : Instr) (s : State) : CallsOneByOne fun as => bodyOf i (withAnswers as s) := by
  cases i with
  | nop => exact callsOneByOne_ok () s
  | clear => exact callsOneByOne_ok () (clearAll s)
  | build => exact callsOneByOne_ok () (buildEffect s)
  | ser =>
    simp only [bodyOf, serBody, show ∀ as, (withAnswers as s).treeValid = s.treeValid from fun _ => rfl]
    cases s.treeValid with
    | true => exact callsOneByOne_serNode _ s.root s
    | false => exact callsOneByOne_raised _ s
  | des =>
    exact callsOneByOne_bind (callsOneByOne_desNode _ (desStart s)) fun r s =>
      callsOneByOne_ok () { s with root := r, treeValid := true }
  | gentab =>
    simp only [bodyOf, gentabBody, show ∀ as, (withAnswers as s).treeValid = s.treeValid from fun _ => rfl]
    split
    · exact callsOneByOne_bind (callsOneByOne_genNode _ s.root [] (clearTable s)) fun _ s =>
        callsOneByOne_ok () { s with tableValid := true }
    · exact callsOneByOne_raised _ s
  | enc sym =>
    simp only [bodyOf, encBody, show ∀ as, (withAnswers as s).tableValid = s.tableValid from fun _ => rfl]
    split
    · split
      · exact callsOneByOne_raised _ s
      · exact callsOneByOne_lookupAndEmit sym s
    · exact callsOneByOne_raised _ s
  | encall =>
    simp only [bodyOf, encallBody, show ∀ as, (withAnswers as s).tableValid = s.tableValid from fun _ => rfl]
    split
    · exact callsOneByOne_bind (callsOneByOne_encLoop (encReads s) s) fun _ s => callsOneByOne_lookupAndEmit _ s
    · exact callsOneByOne_raised _ s
  | decode =>
    simp only [bodyOf, decodeBody, show ∀ as, (withAnswers as s).treeValid = s.treeValid from fun _ => rfl]
    split
    · refine callsOneByOne_bind (callsOneByOne_readNode s.root (moveCur s.root s)) fun r s => ?_
      cases r.leaf with
      | true =>
        simp only [if_true]
        split
        · exact callsOneByOne_ok () s
        · exact callsOneByOne_raised _ s
      | false => exact callsOneByOne_decodeLoop (decodeReads s) s
    · exact callsOneByOne_raised _ s
  | wmagic => exact callsOneByOne_emitBits _ _ s
  | rmagic =>
    refine callsOneByOne_readBits id (fun _ => rfl) (fun _ _ => rfl) (fun _ _ => rfl) fun r hr t => ?_
    cases r with
    | ioFail => exact absurd rfl hr
    | eos => exact callsOneByOne_raised _ t
    | val v =>
      simp only
      split
      · exact callsOneByOne_raised _ t
      · exact callsOneByOne_ok () t
  | rewind => exact callsOneByOne_orIoError (moveIn 0 s) (fun _ => s) (fun _ => rfl) (fun _ _ => rfl) (fun _ => rfl) rfl
  | close => exact callsOneByOne_closeOut s

/-- Where a command draws the answer `a` that stands behind `pre`, it draws whatever answer stands there; a failure there
raises E_IO, and a reset there abandons it (R89 (e), R306 (3), R331). -/
theorem body_of_drawn {i : Instr} {s t : State} {pre post : List PortAnswer} {a : PortAnswer}
    (h : exec i { s with answers := pre ++ a :: post } = .next t) (hl : t.answers.length ≤ post.length) :
    (∀ k, ∃ u, bodyOf i (clearOutcome { s with answers := pre ++ .fails k :: post }) = .raised .io u ∧ u.answers = post) ∧
      ∃ u v, bodyOf i (clearOutcome { s with answers := pre ++ .fails 0 :: post }) = .raised .io u ∧
        bodyOf i (clearOutcome { s with answers := pre ++ .resetFirst :: post }) = .abandoned v ∧
        coreReset v = coreReset u := by
  have not_drawn : ∀ (rest : List PortAnswer), t.answers = rest ++ a :: post → False := fun rest ht => by
    rw [ht, List.length_append, List.length_cons] at hl; omega
  rw [exec_eq_runCommand] at h
  obtain ⟨b, w, rest, hb⟩ | ⟨e, w, rest, hb⟩ | ⟨w, rest, hb⟩ | ⟨f, hb⟩ | hb := callsOneByOne_body i (clearOutcome s) pre post
  · obtain ⟨u, hu, rfl⟩ | ⟨e, u, hu, -⟩ | ⟨u, hu, -⟩ := runCommand_cases h <;> cases (hb a).symm.trans hu
    exact (not_drawn rest rfl).elim
  · obtain ⟨u, hu, -⟩ | ⟨e', u, hu, rfl⟩ | ⟨u, hu, -⟩ := runCommand_cases h <;> cases (hb a).symm.trans hu
    exact (not_drawn rest rfl).elim
  · obtain ⟨u, hu, -⟩ | ⟨e, u, hu, -⟩ | ⟨u, hu, rfl⟩ := runCommand_cases h <;> cases (hb a).symm.trans hu
    exact (not_drawn rest rfl).elim
  · obtain ⟨u, hu, -⟩ | ⟨e, u, hu, -⟩ | ⟨u, hu, -⟩ := runCommand_cases h <;> cases (hb a).symm.trans hu
  · exact hb

end Sys2Proof.Machine
end

