-- ==== Sys2Proof/Laws/DesStop.lean ====
section
/-! SUPPORT. Where `des()` stops, no call failing: at the end of IN inside a tree (R193, E_EOS_TREE), or at the 514th tag bit
(R195, E_CAPACITY). -/

namespace Sys2Proof.Machine

@[simp] theorem Tree.tagsIn_zero (t : Tree) : t.tagsIn 0 = 0 := by cases t <;> simp [tagsIn]

/-- The whole serialized form holds one tag bit for each node. -/
theorem Tree.tagsIn_of_length_le {t : Tree} {n : Nat} (h : t.bits.length ≤ n) : t.tagsIn n = t.size := by
  induction t generalizing n with
  | leaf v =>
    simp only [bits, List.length_cons] at h
    rw [tagsIn, size_leaf]; omega
  | node l r hl hr =>
    simp only [bits, List.length_cons, List.length_append] at h
    rw [tagsIn, if_neg (by omega), hl (by omega), hr (by omega), size_node]

theorem Tree.tagsIn_node_succ (l r : Tree) (n : Nat) :
    (Tree.node l r).tagsIn (n + 1) = 1 + l.tagsIn n + r.tagsIn (n - l.bits.length) := by
  simp [tagsIn]

theorem Tree.tagsIn_leaf_succ (v : Sym) (n : Nat) : (Tree.leaf v).tagsIn (n + 1) = 1 := by
  simp [tagsIn]

/-- What a DES that fails after `k` port calls, with IN.pos at `p`, leaves behind (R197). -/
def desStopped (p k : Nat) (store : List Node) (s : State) : State :=
  { clearTreeRegs (moveIn p (afterCalls k s)) with node := store }

theorem desStopped_tag (p k : Nat) (store : List Node) (r : Node) (s : State) :
    desStopped p k store (writeNode s.nodes r { moveIn (s.inp.pos + 1) (afterCalls 1 s) with nodes := s.nodes + 1 }) =
      desStopped p (1 + k) store s := by
  simp [desStopped, clearTreeRegs, writeNode, moveIn, afterCalls, Nat.add_comm]

theorem desStopped_desDone (p j k : Nat) (store : List Node) (t : Tree) (s : State) :
    desStopped p k store (desDone t j s) = desStopped p (j + k) store s := by
  simp [desStopped, clearTreeRegs, desDone, moveIn, afterCalls, List.drop_drop]

/-- A leaf's value that IN does not hold whole (R91, R193). -/
theorem desLeaf_eos {i : NodeIdx} {s : State} (hp : nextAnswer s = .succeeds) (h : s.inp.bits.length < s.inp.pos + 9) :
    desLeaf i s = .raised .eosTree (clearTreeRegs (moveIn s.inp.bits.length (afterCalls 1 s))) := by
  rw [desLeaf, readBits_eos hp h]
  rfl

/-- A front part of a node's serialized form ends inside its left subtree's or holds that whole. -/
theorem Tree.prefix_bits_node {q : BitString} {l r : Tree} (h : q <+: l.bits ++ r.bits) :
    (q <+: l.bits ∧ q.length < l.bits.length) ∨ ∃ q', q = l.bits ++ q' ∧ q' <+: r.bits := by
  by_cases hlen : q.length < l.bits.length
  · exact .inl ⟨List.prefix_of_prefix_length_le h (List.prefix_append _ _) (by omega), hlen⟩
  · obtain ⟨q', rfl⟩ := List.prefix_of_prefix_length_le (List.prefix_append l.bits r.bits) h (by omega)
    exact .inr ⟨q', rfl, (List.prefix_append_right_inj _).mp h⟩

/-- `des()` on a front part `q` of a tree's serialized form (R193, R195). -/
theorem desNode_stops {n : Nat} {t : Tree} {s : State} {q rest : BitString} (hb : remaining s = q ++ rest)
    (hq : q <+: t.bits) (hp : PortsSucceed s) (hlen : s.node.length = 513) (hle : s.nodes.toNat ≤ 513)
    (hn : 514 ≤ n + s.nodes.toNat) :
    (q ≠ t.bits → rest = [] → s.nodes.toNat + t.tagsIn q.length ≤ 513 →
      ∃ k store, desNode n s = .raised .eosTree (desStopped s.inp.bits.length k store s)) ∧
    (513 < s.nodes.toNat + t.tagsIn q.length →
      ∃ k store m, m < q.length ∧ s.nodes.toNat + t.tagsIn m = 513 ∧ s.nodes.toNat + t.tagsIn (m + 1) = 514 ∧
        desNode n s = .raised .capacity (desStopped (s.inp.pos + m + 1) k store s)) := by
  induction n generalizing t s q rest with
  | zero => omega
  | succ n ih =>
    have hrem := congrArg List.length hb
    rw [remaining_length, List.length_append] at hrem
    cases q with
    | nil =>
      refine ⟨fun _ hr _ => ⟨1, s.node, ?_⟩, fun h => ?_⟩
      · subst hr
        simp only [List.length_nil] at hrem
        rw [desNode, readBits_eos (nextAnswer_of_portsSucceed hp) (by omega)]
        rfl
      · rw [List.length_nil, Tree.tagsIn_zero] at h; omega
    | cons b q =>
      simp only [List.length_cons] at hrem ⊢
      have e1 := readBits_val (n := 1) (nextAnswer_of_portsSucceed hp) (s := s) (by omega)
      rw [hb, List.cons_append, num_take_one] at e1
      by_cases hcap : s.nodes.toNat = Config.nodeCap
      · -- no record is free: the tag bit is the 514th
        have hcap' : s.nodes.toNat = 513 := hcap
        have h1 : t.tagsIn 1 = 1 := by cases t <;> simp [Tree.tagsIn]
        have hpos : 1 ≤ t.tagsIn (q.length + 1) := by
          cases t with
          | leaf v => rw [Tree.tagsIn_leaf_succ]
          | node l r => rw [Tree.tagsIn_node_succ]; omega
        refine ⟨fun _ _ h => by omega, fun _ => ⟨1, s.node, 0, by omega, by rw [Tree.tagsIn_zero]; omega,
          by rw [Nat.zero_add, h1]; omega, ?_⟩⟩
        rw [desNode, e1, bind_ok]
        simp only [show (moveIn (s.inp.pos + 1) (afterCalls 1 s)).nodes.toNat = Config.nodeCap from hcap, if_true]
        rfl
      · have hcap' : s.nodes.toNat < 513 := by simp only [Config.nodeCap] at hcap; omega
        have hcap1 : ¬ (moveIn (s.inp.pos + 1) (afterCalls 1 s)).nodes.toNat = Config.nodeCap := hcap
        have hc1 : (s.nodes + 1).toNat = s.nodes.toNat + 1 := toNat_add_ofNat (n := 1) (by omega)
        cases t with
        | leaf v =>
          rw [Tree.tagsIn_leaf_succ]
          simp only [Tree.bits, List.cons_prefix_cons] at hq
          obtain ⟨rfl, hq⟩ := hq
          refine ⟨fun hne hr _ => ?_, fun h => by omega⟩
          subst hr
          have hshort : q.length < 9 := by
            have h9 := hq.length_le
            rw [bitsOf_length] at h9
            refine Nat.lt_of_le_of_ne h9 fun h => hne ?_
            rw [Tree.bits, hq.eq_of_length (by rw [bitsOf_length]; exact h)]
          simp only [List.length_nil] at hrem
          have hp1 : PortsSucceed { moveIn (s.inp.pos + 1) (afterCalls 1 s) with nodes := s.nodes + 1 } :=
            portsSucceed_afterCalls hp 1
          have hrun : desNode (n + 1) s =
              desLeaf s.nodes { moveIn (s.inp.pos + 1) (afterCalls 1 s) with nodes := s.nodes + 1 } := by
            rw [desNode, e1, bind_ok]
            simp only [hcap1, if_false, Bool.toNat_true, one_ne_zero]
            rfl
          refine ⟨2, s.node, ?_⟩
          rw [hrun, desLeaf_eos (nextAnswer_of_portsSucceed hp1) (by simp only [moveIn_inp, afterCalls]; omega)]
          simp [desStopped, clearTreeRegs, moveIn, afterCalls]
        | node l r =>
          rw [Tree.tagsIn_node_succ]
          simp only [Tree.bits, List.cons_prefix_cons] at hq
          obtain ⟨rfl, hq⟩ := hq
          -- the state in which the left subtree is read
          generalize hu : writeNode s.nodes (internalNode 0 0 0)
            { moveIn (s.inp.pos + 1) (afterCalls 1 s) with nodes := s.nodes + 1 } = u
          have hun : u.nodes = s.nodes + 1 := by subst hu; rfl
          have hun' : u.nodes.toNat = s.nodes.toNat + 1 := by rw [hun, hc1]
          have hui : u.inp = ⟨s.inp.bits, s.inp.pos + 1⟩ := by subst hu; rfl
          have hub : remaining u = q ++ rest := by
            rw [remaining_moveIn 1 s u (by subst hu; rfl), hb]; rfl
          have hul : u.node.length = 513 := by subst hu; simpa [afterCalls] using hlen
          have hup : PortsSucceed u := by subst hu; exact portsSucceed_afterCalls hp 1
          have hstop : ∀ p k store, desStopped p k store u = desStopped p (1 + k) store s := by
            subst hu; exact fun p k store => desStopped_tag p k store _ s
          have hrun : desNode (n + 1) s =
              (desNode n u).bind fun a s1 => (desNode n s1).bind fun c s2 => .ok s.nodes (setChildren s.nodes a c s2) := by
            rw [desNode, e1, bind_ok]
            simp only [hcap1, if_false, Bool.toNat_false, if_true]
            rw [show writeNode (moveIn (s.inp.pos + 1) (afterCalls 1 s)).nodes (internalNode 0 0 0)
              { moveIn (s.inp.pos + 1) (afterCalls 1 s) with
                nodes := (moveIn (s.inp.pos + 1) (afterCalls 1 s)).nodes + 1 } = u from hu]
            rfl
          obtain ⟨hql, hlt⟩ | ⟨q', rfl, hq'⟩ := Tree.prefix_bits_node hq
          · -- IN, or the room, ends inside the left subtree
            rw [show q.length - l.bits.length = 0 by omega, Tree.tagsIn_zero]
            obtain ⟨ih1, ih2⟩ := ih hub hql hup hul (by omega) (by omega)
            refine ⟨fun _ hr h => ?_, fun h => ?_⟩
            · obtain ⟨k, store, e⟩ := ih1 (fun h => by rw [h] at hlt; omega) hr (by omega)
              exact ⟨1 + k, store, by rw [hrun, e, hui, hstop, bind_raised]⟩
            · obtain ⟨k, store, m, h1, h2, h3, e⟩ := ih2 (by omega)
              refine ⟨1 + k, store, m + 1, by omega, ?_, ?_, ?_⟩
              · rw [Tree.tagsIn_node_succ, show m - l.bits.length = 0 by omega, Tree.tagsIn_zero]; omega
              · rw [Tree.tagsIn_node_succ, show m + 1 - l.bits.length = 0 by omega, Tree.tagsIn_zero]; omega
              · rw [hrun, e, hui, hstop, bind_raised]
                simp only [show s.inp.pos + 1 + m + 1 = s.inp.pos + (m + 1) + 1 by omega]
          · have hfull : ∀ m, l.bits.length ≤ m → l.tagsIn m = l.size := fun m hm => Tree.tagsIn_of_length_le hm
            rw [hfull _ (by simp), List.length_append, Nat.add_sub_cancel_left]
            rw [List.append_assoc] at hub
            by_cases hroom : s.nodes.toNat + 1 + l.size ≤ 513
            · -- the left subtree is read
              obtain ⟨j, e2⟩ := desNode_run hub hup hul (by omega)
                (n := n) (by have := l.height_le; simp only [Tree.size] at hroom; omega)
              have hvn : (desDone l j u).nodes.toNat = s.nodes.toNat + 1 + l.size := by
                simp only [desDone]; rw [toNat_add_ofNat (by omega), hun']
              have hvb : remaining (desDone l j u) = q' ++ rest := by
                rw [remaining_moveIn l.bits.length u _ rfl, hub]; simp
              have hvi : (desDone l j u).inp = ⟨s.inp.bits, s.inp.pos + 1 + l.bits.length⟩ := by
                simp [desDone, moveIn, afterCalls, hui]
              obtain ⟨ih1, ih2⟩ := ih hvb hq' (portsSucceed_afterCalls hup j) (by simpa [desDone] using hul) (by omega)
                (by omega)
              rw [hvn] at ih1 ih2
              refine ⟨fun hne hr h => ?_, fun h => ?_⟩
              · obtain ⟨k, store, e⟩ := ih1 (fun h => hne (by rw [h]; rfl)) hr (by omega)
                exact ⟨1 + (j + k), store, by rw [hrun, e2, bind_ok, e, hvi, desStopped_desDone, hstop, bind_raised]⟩
              · obtain ⟨k, store, m, h1, h2, h3, e⟩ := ih2 (by omega)
                refine ⟨1 + (j + k), store, l.bits.length + m + 1, by omega, ?_, ?_, ?_⟩
                · rw [Tree.tagsIn_node_succ, hfull _ (by omega), Nat.add_sub_cancel_left]; omega
                · rw [Tree.tagsIn_node_succ, hfull _ (by omega),
                    show l.bits.length + m + 1 - l.bits.length = m + 1 by omega]; omega
                · rw [hrun, e2, bind_ok, e, hvi, desStopped_desDone, hstop, bind_raised]
                  simp only [show s.inp.pos + 1 + l.bits.length + m + 1 = s.inp.pos + (l.bits.length + m + 1) + 1 by omega]
            · -- there is no room for the left subtree
              obtain ⟨-, ih2⟩ := ih hub (List.prefix_refl _) hup hul (by omega) (by omega)
              refine ⟨fun _ _ h => by omega, fun _ => ?_⟩
              obtain ⟨k, store, m, h1, h2, h3, e⟩ := ih2 (by rw [hfull _ (Nat.le_refl _)]; omega)
              refine ⟨1 + k, store, m + 1, by omega, ?_, ?_, ?_⟩
              · rw [Tree.tagsIn_node_succ, show m - l.bits.length = 0 by omega, Tree.tagsIn_zero]; omega
              · rw [Tree.tagsIn_node_succ, show m + 1 - l.bits.length = 0 by omega, Tree.tagsIn_zero]; omega
              · rw [hrun, e, hui, hstop, bind_raised]
                simp only [show s.inp.pos + 1 + m + 1 = s.inp.pos + (m + 1) + 1 by omega]

end Sys2Proof.Machine
end

