-- ==== Sys2Proof/Laws/PerInstr.lean ====
section
/-! SUPPORT. One fact for each command of the syntax: its word decodes to it (R123, R124). -/

namespace Sys2Proof.Laws.Words

/-- The word of a well-formed command decodes to that command. -/
def Statement (i : Instr) : Prop := i.wellFormed = true → decode (encode i) = some i

theorem nop : Statement .nop := fun _ => by decide
theorem clear : Statement .clear := fun _ => by decide
theorem build : Statement .build := fun _ => by decide
theorem ser : Statement .ser := fun _ => by decide
theorem des : Statement .des := fun _ => by decide
theorem gentab : Statement .gentab := fun _ => by decide

/-- The fields of a word put together from them (R121). -/
theorem fields_append (r : BitVec 15) (y : BitVec 9) (o : BitVec 8) :
    opcodeField ((r ++ y) ++ o) = o.toNat ∧ symField ((r ++ y) ++ o) = y.toNat ∧ rsvdField ((r ++ y) ++ o) = r.toNat := by
  have h : ((r ++ y) ++ o).toNat = (r.toNat * 512 + y.toNat) * 256 + o.toNat := by
    rw [BitVec.toNat_append, BitVec.toNat_append, ← Nat.shiftLeft_add_eq_or_of_lt y.isLt,
      ← Nat.shiftLeft_add_eq_or_of_lt o.isLt, Nat.shiftLeft_eq, Nat.shiftLeft_eq]
  simp only [opcodeField, symField, rsvdField, BitVec.extractLsb'_toNat, Nat.shiftRight_eq_div_pow, h]
  have := r.isLt
  have := y.isLt
  have := o.isLt
  omega

/-- ENC keeps its operand at every value the 9-bit field admits. -/
theorem enc (sym : Nat) : Statement (.enc sym) := by
  intro h
  simp only [Instr.wellFormed, decide_eq_true_eq] at h
  obtain ⟨h1, h2, h3⟩ := fields_append 0#15 (BitVec.ofNat 9 sym) 6#8
  have h4 : (BitVec.ofNat 9 sym).toNat = sym := by rw [BitVec.toNat_ofNat]; omega
  rw [h4] at h2
  have hw : encode (.enc sym) = (0#15 ++ BitVec.ofNat 9 sym) ++ 6#8 := rfl
  simp [Sys2Proof.decode, decodeNamed, hw, h1, h2, h3, instrOf]

theorem encall : Statement .encall := fun _ => by decide
theorem decode : Statement .decode := fun _ => by decide
theorem wmagic : Statement .wmagic := fun _ => by decide
theorem rmagic : Statement .rmagic := fun _ => by decide
theorem rewind : Statement .rewind := fun _ => by decide
theorem close : Statement .close := fun _ => by decide

end Sys2Proof.Laws.Words
end

