-- ==== Sys2Proof/Laws/Step.lean ====
section
/-! SUPPORT. What one step can do: which agent it is, by whose turn it is (R30, R89), and the ways a step of each ends. -/

namespace Sys2Proof.Machine

theorem passTurn_of_nil {s : State} (h : s.turns = []) : passTurn s = s := by
  apply State.ext <;> simp [h]

theorem step_of_coreToMove {s : State} (h : CoreToMove s) : step s = executePending (passTurn s) := by
  obtain ⟨hb, ht⟩ := h
  cases hts : s.turns with
  | nil => rw [passTurn_of_nil hts]; simp [step, hts, hb, coreMove]
  | cons a as =>
    rcases ht with ht | ht
    · rw [hts] at ht; cases ht
    · simp only [hts, List.head?_cons, Option.some.injEq] at ht
      subst ht
      simp [step, hts, hb, coreMove, passTurn]

theorem step_of_hostToMove {s : State} (h : HostToMove s) : step s = hostMove (passTurn s) := by
  rcases h with ⟨ht, hb⟩ | ht
  · rw [passTurn_of_nil ht]; simp [step, ht, hb]
  · cases hts : s.turns with
    | nil => simp [hts] at ht
    | cons a as =>
      simp only [hts, List.head?_cons, Option.some.injEq] at ht
      subst ht
      simp [step, hts, passTurn]

/-- Every step that ends is the core's, the host's, or the reset input's, or an idle core's, which does nothing. -/
theorem step_cases {s t : State} (h : step s = .next t) :
    (CoreToMove s ∧ executePending (passTurn s) = .next t) ∨ (HostToMove s ∧ hostMove (passTurn s) = .next t) ∨
      t = coreReset (passTurn s) ∨ t = passTurn s := by
  cases hts : s.turns with
  | nil =>
    cases hb : s.busy with
    | true => exact .inl ⟨⟨hb, .inl hts⟩, by rw [← step_of_coreToMove ⟨hb, .inl hts⟩]; exact h⟩
    | false => exact .inr (.inl ⟨.inl ⟨hts, hb⟩, by rw [← step_of_hostToMove (.inl ⟨hts, hb⟩)]; exact h⟩)
  | cons a as =>
    cases a with
    | core =>
      cases hb : s.busy with
      | true =>
        have hc : CoreToMove s := ⟨hb, .inr (by rw [hts]; rfl)⟩
        exact .inl ⟨hc, by rw [← step_of_coreToMove hc]; exact h⟩
      | false =>
        simp only [step, hts, coreMove, hb, Bool.false_eq_true, if_false, Host.Outcome.next.injEq] at h
        subst h
        exact .inr (.inr (.inr (by simp [passTurn, hts, hb])))
    | host =>
      have hh : HostToMove s := .inr (by rw [hts]; rfl)
      exact .inr (.inl ⟨hh, by rw [← step_of_hostToMove hh]; exact h⟩)
    | reset =>
      simp only [step, hts, Host.Outcome.next.injEq] at h
      subst h
      exact .inr (.inr (.inl (by simp [passTurn, hts])))

/-- A command word that runs ends as its command does, or with E_ILLEGAL (R153). -/
theorem runWord_cases {w : Word} {s t : State} (h : runWord w s = .next t) :
    (∃ i, decode w = some i ∧ exec i s = .next t) ∨ (decode w = none ∧ t = failedWith .illegal s) := by
  unfold runWord at h
  cases hd : decode w with
  | none => rw [hd] at h; exact .inr ⟨rfl, (Host.Outcome.next.inj h).symm⟩
  | some i => rw [hd] at h; exact .inl ⟨i, rfl, h⟩

end Sys2Proof.Machine
end

