-- ==== Sys2Proof/Tests/Slice0.lean ====
section
/-! SUPPORT. The model's own tests: the checks of WellFormed, words written out from spec/30_encoding.md, the vectors of
spec/95_test_vectors.md (one step each), and for each statement with hypotheses a state that meets them. -/

namespace Sys2Proof.Machine.Tests

set_option Elab.async false

/-! ### Well-formedness: the one check there is, and a term it refuses -/

theorem test_wellFormed_enc_511 : (Instr.enc 511).wellFormed = true := by decide
theorem test_wellFormed_refuses_enc_512 : (Instr.enc 512).wellFormed = false := by decide

/-! ### Decoding: words written as RSVD (15 bits), SYM (9 bits), OPCODE (8 bits), from the table of R123 -/

/-- RSVD, SYM and OPCODE side by side (R121). -/
def word (rsvd : BitVec 15) (sym : BitVec 9) (op : BitVec 8) : Word := (rsvd ++ sym) ++ op

theorem test_decode_nop : decode (word 0b000000000000000 0b000000000 0b00000000) = some .nop := by decide
theorem test_decode_clear : decode (word 0b000000000000000 0b000000000 0b00000001) = some .clear := by decide
theorem test_decode_build : decode (word 0b000000000000000 0b000000000 0b00000010) = some .build := by decide
theorem test_decode_ser : decode (word 0b000000000000000 0b000000000 0b00000011) = some .ser := by decide
theorem test_decode_des : decode (word 0b000000000000000 0b000000000 0b00000100) = some .des := by decide
theorem test_decode_gentab : decode (word 0b000000000000000 0b000000000 0b00000101) = some .gentab := by decide
theorem test_decode_enc : decode (word 0b000000000000000 0b001100001 0b00000110) = some (.enc 0x61) := by decide
theorem test_decode_enc_eof : decode (word 0b000000000000000 0b100000000 0b00000110) = some (.enc 256) := by decide
theorem test_decode_encall : decode (word 0b000000000000000 0b000000000 0b00000111) = some .encall := by decide
theorem test_decode_decode : decode (word 0b000000000000000 0b000000000 0b00001000) = some .decode := by decide
theorem test_decode_wmagic : decode (word 0b000000000000000 0b000000000 0b00001001) = some .wmagic := by decide
theorem test_decode_rmagic : decode (word 0b000000000000000 0b000000000 0b00001010) = some .rmagic := by decide
theorem test_decode_rewind : decode (word 0b000000000000000 0b000000000 0b00001011) = some .rewind := by decide
theorem test_decode_close : decode (word 0b000000000000000 0b000000000 0b00001100) = some .close := by decide

/-- The examples of R127. -/
theorem test_command_lines : commandLine .build = .wr 0x0000 0x00000002 ∧ commandLine (.enc 0x61) = .wr 0x0000 0x00006106 ∧
    encEof = .wr 0x0000 0x00010006 := by decide

/-- Vectors K2 to K7: the words that are illegal, each by its reason; and K8, a legal word. -/
theorem test_illegal_words : decodeNamed 0x0000000D = .error .reservedOpcode ∧ decodeNamed 0x000000FF = .error .reservedOpcode ∧
    decodeNamed 0x00020000 = .error .reservedBits ∧ decodeNamed 0x00000102 = .error .symNotZero ∧
    decodeNamed 0xFFFFFFFF = .error .reservedBits ∧ decodeNamed 0x80000002 = .error .reservedBits ∧
    decodeNamed 0x0001FF06 = .ok (.enc 511) := by decide

/-! ### Small states and what a step gives -/

/-- A view of the next state, where there is one. -/
def get {α : Type} (f : State → α) : Host.Outcome State Fault Refusal → Option α
  | .next s => some (f s)
  | .fault _ => none
  | .refused _ => none

theorem exists_of_get {α : Type} {f : State → α} {o : Host.Outcome State Fault Refusal} {a : α} (h : get f o = some a) :
    ∃ t, o = .next t ∧ f t = a := by
  cases o with
  | next t => exact ⟨t, rfl, by simpa [get] using h⟩
  | fault r => cases h
  | refused r => cases h

/-- Bits written as 0 and 1. -/
def bits (l : List Nat) : BitString := l.map (· = 1)

/-- The state after reset, with IN at its start. -/
def withIn (b : BitString) : State := { State.reset with inp := ⟨b, 0⟩ }

/-- FREQ[0x61] = 3 and FREQ[0x62] = 1, all else as after reset (Scenario A). -/
def countsA : State := { State.reset with freq := (State.reset.freq.set 0x61 3).set 0x62 1 }

/-- The records of Tree A, vector B1. -/
def recordsA : List Node :=
  [⟨true, 0x61, 3, 0, 0⟩, ⟨true, 0x62, 1, 0, 0⟩, ⟨true, 256, 1, 0, 0⟩, ⟨false, 0, 2, 1, 2⟩, ⟨false, 0, 5, 3, 0⟩]

/-- Tree A of spec/95_test_vectors.md, held. -/
def stateA : State :=
  { countsA with node := recordsA ++ List.replicate 508 Node.blank, root := 4, nodes := 5, leaves := 3, heap := [4], treeValid := true }

theorem buildEffect_countsA : buildEffect countsA = stateA := by decide +kernel

/-- Tree A as R170's example and vector B1 give it. -/
def treeA : Tree := .node (.node (.leaf 0x62) (.leaf 256)) (.leaf 0x61)

/-- Tree A and Table A held. -/
def tableA : State := { stateA with code := (List.range 257).map treeA.entry, tableValid := true }

/-- The serialized form of Tree A, vector S1. -/
def bitsA : BitString := bits [0,0,1,0,0,1,1,0,0,0,1,0,1,1,0,0,0,0,0,0,0,0,1,0,0,1,1,0,0,0,0,1]

/-- A tree DES can read: a leaf of symbol 300 and a PSEUDO_EOF leaf, vector D6. -/
def tree300 : Tree := .node (.leaf 300) (.leaf 256)

/-- The state DES leaves on vector D6. -/
def state300 : State :=
  { State.reset with
    node := [internalNode 0 1 2, leafNode 300 0, leafNode 256 0] ++ List.replicate 510 Node.blank, nodes := 3, leaves := 2
    treeValid := true, inp := ⟨tree300.bits, 21⟩ }

/-- Vector D6 gives this state. -/
theorem exec_des_tree300 : exec .des (withIn tree300.bits) = .next state300 := by
  obtain ⟨t, ht, h⟩ : ∃ t, exec .des (withIn tree300.bits) = .next t ∧ t = state300 := exists_of_get (f := id) (by decide +kernel)
  rw [ht, h]

/-- The state BUILD leaves on zero counts: a single PSEUDO_EOF leaf, vector B2. -/
def stateEof : State :=
  { State.reset with
    node := leafNode 256 1 :: List.replicate 512 Node.blank, nodes := 1, leaves := 1, heap := [0], treeValid := true }

/-! ### One step of each command on the vectors of spec/95_test_vectors.md -/

/-- K1. -/
theorem test_nop : get statusWord (exec .nop { State.reset with err := true, treeValid := true, errcode := 10 }) =
    some 0x00000004 := by decide +kernel

/-- K9. -/
theorem test_clear : get (fun t => (statusWord t, t.freq.getD 0x61 1, t.nodes, (readCode 0x61 t).len))
    (exec .clear { tableA with drop := true }) = some (0, 0, 0, 0) := by decide +kernel

/-- K2: an illegal word with Tree A and Table A held. -/
theorem test_illegal : get (fun t => (statusWord t, t.nodes)) (runWord 0x0000000D tableA) = some (0x000000AE, 5) := by
  decide +kernel

/-- B1: the records, by hand from R170 to R174. -/
theorem test_build_scenarioA : get (fun t => (usedRecords t, t.root, t.nodes, t.leaves)) (exec .build countsA) =
    some ([⟨true, 0x61, 3, 0, 0⟩, ⟨true, 0x62, 1, 0, 0⟩, ⟨true, 256, 1, 0, 0⟩, ⟨false, 0, 2, 1, 2⟩, ⟨false, 0, 5, 3, 0⟩],
      4, 5, 3) := by decide +kernel

/-- B5: a tie between a leaf and an internal node. -/
theorem test_build_tie : get usedRecords
    (exec .build { State.reset with freq := (State.reset.freq.set 0x61 1).set 0x62 2 }) =
    some [⟨true, 0x61, 1, 0, 0⟩, ⟨true, 0x62, 2, 0, 0⟩, ⟨true, 256, 1, 0, 0⟩, ⟨false, 0, 2, 0, 2⟩, ⟨false, 0, 4, 1, 3⟩] := by
  decide +kernel

/-- S1. -/
theorem test_ser : get (·.out.bits) (exec .ser stateA) = some bitsA := by decide +kernel

/-- S8: a closed port. -/
theorem test_ser_closed : get (fun t => (statusWord t, t.out.bits)) (exec .ser { stateA with out := ⟨[], true⟩ }) =
    some (0x000000B6, []) := by decide +kernel

/-- D2: the records in pre-order, IN.pos after the tree. -/
theorem test_des : get (fun t => (usedRecords t, t.inp.pos, statusWord t)) (exec .des (withIn bitsA)) =
    some ([⟨false, 0, 0, 1, 4⟩, ⟨false, 0, 0, 2, 3⟩, ⟨true, 0x62, 0, 0, 0⟩, ⟨true, 256, 0, 0, 0⟩, ⟨true, 0x61, 0, 0, 0⟩],
      32, 0x00000004) := by decide +kernel

/-- D5: a tag 1 and then only 4 of 9 bits; the short tail is consumed. -/
theorem test_des_short : get (fun t => (statusWord t, t.inp.pos)) (exec .des (withIn (bits [1, 1, 0, 0, 0]))) =
    some (0x00000022, 5) := by decide +kernel

/-- The 514th tag bit (R195): read, and refused. -/
theorem test_des_capacity : desNode 1 { withIn [true] with nodes := 513 } =
    .raised .capacity { withIn [true] with inp := ⟨[true], 1⟩ } := rfl

/-- G1. -/
theorem test_gentab : get (fun t => (readCode 0x61 t, readCode 0x62 t, readCode 256 t, (readCode 0x63 t).valid, statusWord t))
    (exec .gentab stateA) = some (⟨true, 1, 1⟩, ⟨true, 2, 0⟩, ⟨true, 2, 1⟩, false, 0x0000000C) := by decide +kernel

/-- G10. -/
theorem test_gentab_symRange : get (fun t => (statusWord t, (readCode 256 t).valid)) (exec .gentab state300) =
    some (0x00000096, false) := by decide +kernel

/-- N1, its second command. -/
theorem test_enc_eof : get (·.out.bits) (exec (.enc 256) { tableA with out := ⟨bits [0, 0], false⟩ }) =
    some (bits [0, 0, 0, 1]) := by decide +kernel

/-- N4: no table, although the operand is out of range. -/
theorem test_enc_noTable : get statusWord (exec (.enc 300) stateA) = some 0x00000076 := by decide +kernel

/-- N6. -/
theorem test_encall : get (fun t => (t.out.bits, t.inp.pos))
    (exec .encall { tableA with inp := ⟨bitsOfBytes [0x61, 0x61, 0x61, 0x62], 0⟩ }) =
    some (bits [1, 1, 1, 0, 0, 0, 1], 32) := by decide +kernel

/-- N7. -/
theorem test_encall_noCode : get (fun t => (t.out.bits, t.inp.pos, statusWord t))
    (exec .encall { tableA with inp := ⟨bitsOfBytes [0x61, 0x63], 0⟩ }) = some (bits [1], 16, 0x0000008E) := by decide +kernel

/-- The table of vector D8, which has no PSEUDO_EOF: 0x61 is `0` and 0x62 is `1`. -/
def tableD8 : State :=
  { stateA with code := (emptyCode.set 0x61 (pathEntry [false])).set 0x62 (pathEntry [true]), tableValid := true }

/-- N11. -/
theorem test_encall_noEof : get (fun t => (t.out.bits, t.inp.pos, t.errcode))
    (exec .encall { tableD8 with inp := ⟨bitsOfBytes [0x61], 0⟩ }) = some (bits [0], 8, 8) := by decide +kernel

/-- X5, on Tree A. -/
theorem test_decode_body : get (fun t => (bytesOfBits t.out.bits, t.inp.pos))
    (exec .decode { stateA with inp := ⟨bits [1, 1, 1, 0, 0, 0, 1, 0], 0⟩ }) = some ([0x61, 0x61, 0x61, 0x62], 7) := by
  decide +kernel

/-- X8: a symbol above 256 writes its low 8 bits. -/
theorem test_decode_low_bits : get (fun t => (bytesOfBits t.out.bits, t.err))
    (exec .decode { state300 with inp := ⟨bits [0, 1], 0⟩ }) = some ([0x2C], false) := by decide +kernel

/-- X13, on Tree A: OUT is closed at the write of 61. -/
theorem test_decode_closed : get (fun t => (t.errcode, t.inp.pos, t.out))
    (exec .decode { stateA with inp := ⟨bits [1], 0⟩, out := ⟨[], true⟩ }) = some (11, 1, ⟨[], true⟩) := by decide +kernel

/-- M6. -/
theorem test_wmagic_closed : get statusWord (exec .wmagic { State.reset with out := ⟨[], true⟩ }) = some 0x000000B2 := by
  decide +kernel

/-- M3: fewer than 32 bits. -/
theorem test_rmagic_short : get (fun t => (statusWord t, t.inp.pos)) (exec .rmagic (withIn (bitsOfBytes [0xFA, 0xCE]))) =
    some (0x00000012, 16) := by decide +kernel

/-- M7: the failed read is decided before the short stream. -/
theorem test_rmagic_fails : get (·.errcode) (exec .rmagic { withIn (bitsOfBytes [0xFA, 0xCE]) with answers := [.fails 3] }) =
    some 11 := by decide +kernel

/-- Z1, with the prefix read, write `1`, read, write `1`, read of the calls. -/
theorem test_encall_reset : get (fun t => (statusWord t, t.out.bits, t.inp.pos))
    (exec .encall { tableA with inp := ⟨bitsOfBytes [0x61, 0x61, 0x61, 0x62], 0⟩,
                                answers := List.replicate 5 .succeeds ++ [.resetFirst] }) =
    some (0, bits [1, 1], 24) := by decide +kernel

/-- The example of R290. -/
theorem test_rewind : get (·.inp.pos) (exec .rewind { State.reset with inp := ⟨bitsOfBytes [0x61, 0x61, 0x61, 0x62], 32⟩ }) =
    some 0 := by decide +kernel

/-- The example of R291: 71 bits become 72. -/
theorem test_close : get (fun t => (t.out.bits.length, t.out.closed)) (exec .close { State.reset with out := ⟨zeros 71, false⟩ }) =
    some (72, true) := by decide +kernel

/-! ### The register space, vectors A1 to A10 -/

theorem test_freq_read_back : memRead 0x0584 (memWrite 0x0584 0xFFFFFFFF State.reset) = 0xFFFFFFFF := by decide +kernel

theorem test_misaligned : memRead 0x0006 stateA = 0 ∧ memWrite 0x0006 5 stateA = stateA := by decide +kernel

theorem test_node_window : memRead 0x4000 stateA = 0x80000061 ∧ memRead 0x4034 stateA = 0x00020001 ∧
    memRead 0x4048 stateA = 0x00000005 ∧ memRead 0x4050 stateA = 0 := by decide +kernel

theorem test_code_window : memRead 0x0984 tableA = 0x80000001 ∧ memRead 0x1C20 tableA = 1 ∧
    memRead 0x0C00 tableA = 0x80000002 := by decide +kernel

/-- A8: the second write is dropped. -/
theorem test_dropped_write : (memWrite 0x0000 3 (memWrite 0x0000 2 State.reset)).drop = true ∧
    (memWrite 0x0000 3 (memWrite 0x0000 2 State.reset)).pending = some 2 := by decide +kernel

/-! ### Every opcode runs as the first command after reset -/

/-- The STATUS word after the step that runs a placed word. -/
def firstStatus (w : Nat) : Option Word := get statusWord (step (State.reset.withFetchWord 32 w))

theorem test_first_control : firstStatus 0x00 = some 0 ∧ firstStatus 0x01 = some 0 ∧ firstStatus 0x02 = some 4 := by
  decide +kernel
theorem test_first_tree : firstStatus 0x03 = some 0x62 ∧ firstStatus 0x04 = some 0x22 ∧ firstStatus 0x05 = some 0x62 := by
  decide +kernel
theorem test_first_code : firstStatus 0x06 = some 0x72 ∧ firstStatus 0x07 = some 0x72 ∧ firstStatus 0x08 = some 0x62 := by
  decide +kernel
theorem test_first_stream : firstStatus 0x09 = some 0 ∧ firstStatus 0x0A = some 0x12 ∧ firstStatus 0x0B = some 0 ∧
    firstStatus 0x0C = some 0 := by decide +kernel

/-! ### States that meet the hypotheses of the statements -/

theorem portsSucceed_of_nil {s : State} (h : s.answers = []) : PortsSucceed s := by
  intro a ha; rw [h] at ha; cases ha

theorem noResetInside_of_nil {s : State} (h : s.answers = []) : NoResetInside s := by
  intro hm; rw [h] at hm; cases hm

theorem wf_stateA : Memory.wf stateA := by decide +kernel
theorem wellFormedTree_stateA : WellFormedTree stateA := buildEffect_countsA ▸ wellFormedTree_buildEffect countsA
theorem heldTree_stateA : heldTree stateA = some treeA := by decide +kernel
theorem heldTree_tableA : heldTree tableA = some treeA := by decide +kernel
theorem heldTree_state300 : heldTree state300 = some tree300 := by decide +kernel

theorem regInv_stateA : RegInv stateA where
  memory := wf_stateA
  err_iff := by decide +kernel
  code_le := by decide +kernel
  table_tree := by decide +kernel
  no_tree := by decide +kernel
  pending := by decide +kernel
  code := fun c hc => by rw [List.eq_of_mem_replicate hc]; exact ⟨fun _ => rfl, by decide, by decide⟩
  no_table := fun _ => rfl
  in_pos := by decide +kernel
  out_closed := by decide +kernel

/-- Tree A held and BUILD accepted: the invariant holds with a tree, and the core is to move. -/
theorem witness_EveryCommandCompletes : Inv (accept 2 stateA) ∧ CoreToMove (accept 2 stateA) := by
  refine ⟨⟨?_, fun _ => ?_, fun h => ?_⟩, rfl, .inl rfl⟩
  · exact { regInv_stateA with pending := fun _ => by simp }
  · exact ⟨wellFormedTree_stateA.nodes_pos, wellFormedTree_stateA.nodes_le, wellFormedTree_stateA.root_lt,
      wellFormedTree_stateA.children, by
        obtain ⟨l, hl, hp⟩ := wellFormedTree_stateA.once
        exact ⟨l, (indicesAt_congr (s := stateA) (t := accept 2 stateA) rfl rfl _ _).trans hl, hp⟩,
      wellFormedTree_stateA.leaves_count, wellFormedTree_stateA.nodes_eq⟩
  · cases h

theorem witness_RegistersKeepTheirInvariant : RegInv stateA ∧ ∃ t, step stateA = .next t := ⟨regInv_stateA, _, rfl⟩

/-- A state with a tree and a table meets the invariant, and its core runs ENCALL. -/
theorem witness_TreeAndTableKeepTheirPromise :
    ∃ s t, Inv s ∧ s.treeValid = true ∧ s.tableValid = true ∧ step s = .next t := by
  have hcode : ∀ sym ≤ 256, readCode sym tableA = treeA.entry sym := by
    intro sym hs
    have hlt : sym < ((List.range 257).map treeA.entry).length := by simp; omega
    simp only [readCode, tableA, List.getD_eq_getElem?_getD, List.getElem?_eq_getElem hlt, Option.getD_some,
      List.getElem_map, List.getElem_range]
  refine ⟨tableA, _, ⟨?_, fun _ => ?_, fun _ => ⟨treeA, heldTree_tableA, hcode⟩⟩, rfl, rfl, rfl⟩
  · refine { regInv_stateA with memory := by decide +kernel, table_tree := fun _ => rfl, code := fun c hc => ?_,
                                no_table := fun h => by cases h }
    obtain ⟨sym, -, rfl⟩ := List.mem_map.mp hc
    unfold Tree.entry
    cases h : treeA.lastPath sym with
    | none => exact ⟨fun _ => rfl, by decide, by decide⟩
    | some p =>
      refine pathEntry_canonical (p := p) ?_
      have hm := Tree.mem_of_lastPath h
      have hall : ∀ e ∈ treeA.paths, e.2.length ≤ 256 := by decide
      exact hall _ hm
  · exact ⟨wellFormedTree_stateA.nodes_pos, wellFormedTree_stateA.nodes_le, wellFormedTree_stateA.root_lt,
      wellFormedTree_stateA.children, by
        obtain ⟨l, hl, hp⟩ := wellFormedTree_stateA.once
        exact ⟨l, (indicesAt_congr (s := stateA) (t := tableA) rfl rfl _ _).trans hl, hp⟩,
      wellFormedTree_stateA.leaves_count, wellFormedTree_stateA.nodes_eq⟩

theorem witness_CommandWordsRoundTrip : (Instr.enc 511).wellFormed = true ∧ decode 0x0001FF06 = some (.enc 511) := by decide

/-- The last legal and the first reserved opcode, the least RSVD bit, and the greatest SYM. -/
theorem witness_DecodeReadsTheFields : decode 0x0000000C = some .close ∧ decode 0x0000000D = none ∧ decode 0x00020000 = none ∧
    decode 0x0001FF06 = some (.enc 511) ∧ decode 0x0001FF0C = none := by decide

theorem witness_PendingCommandRuns_legal : CoreToMove (accept 2 stateA) ∧ (accept 2 stateA).pending = some 2 ∧
    decode 2 = some .build := ⟨⟨rfl, .inl rfl⟩, rfl, by decide⟩

theorem witness_PendingCommandRuns_illegal : CoreToMove (accept 0xD { stateA with turns := [.core] }) ∧
    (accept 0xD { stateA with turns := [.core] }).pending = some 0xD ∧ decode 0xD = none := ⟨⟨rfl, .inr rfl⟩, rfl, by decide⟩

theorem witness_PlacedWordRunsNext : decodeTableWord 32 0x00006106 = some (.enc 0x61) := by decide

theorem witness_IdleCoreHasNoStep : ({ stateA with turns := [.core] } : State).busy = false ∧
    ({ stateA with turns := [.core] } : State).turns.head? = some .core := ⟨rfl, rfl⟩

theorem witness_CommandIsAcceptedOrDropped_idle : HostToMove { stateA with script := [.wr 0x0000 3] } := .inl ⟨rfl, rfl⟩

theorem witness_CommandIsAcceptedOrDropped_busy :
    HostToMove { stateA with busy := true, turns := [.host], script := [.wr 0x0000 3] } := .inr rfl

theorem witness_ErrorsComeFromTheirCommands : ∃ t, exec .ser State.reset = .next t ∧ t.err = true :=
  exists_of_get (by decide +kernel)

theorem witness_FormatErrorsAreOneToFive : errClass .capacity = .formatError ∧ errClass .noTree = .usageError := ⟨rfl, rfl⟩

theorem witness_PreconditionsAreCheckedInOrder : State.reset.treeValid = false ∧ State.reset.tableValid = false ∧
    tableA.tableValid = true ∧ (readCode 0x63 tableA).valid = false := by decide +kernel

/-- Boundary offsets of the windows: FREQ[0], FREQ[255], and the offset after it. -/
theorem witness_IdleWritesReachCmdAndFreq : State.reset.busy = false ∧ (0x0400 : Offset).toNat = 0x0400 + 4 * 0 ∧
    (0x07FC : Offset).toNat = 0x0400 + 4 * 255 ∧ ∀ i < 256, (0x0800 : Offset).toNat ≠ 0x0400 + 4 * i := by
  refine ⟨rfl, by decide, by decide, fun i hi => ?_⟩
  have : (0x0800 : Offset).toNat = 0x0800 := by decide
  omega

/-- The last offset of FREQ, and the first and the last of CODELEN, CODEBITS and NODEWORD. -/
theorem witness_BusyAccesses : (accept 2 stateA).busy = true ∧ (0x07FC : Offset).toNat = 0x0400 + 4 * 255 ∧
    (0x0800 : Offset).toNat = 0x0800 + 4 * 0 ∧ (0x0C00 : Offset).toNat = 0x0800 + 4 * 256 ∧
    (0x1000 : Offset).toNat = 0x1000 + 32 * 0 + 4 * 0 ∧ (0x301C : Offset).toNat = 0x1000 + 32 * 256 + 4 * 7 ∧
    (0x4000 : Offset).toNat = 0x4000 + 16 * 0 + 4 * 0 ∧ (0x600C : Offset).toNat = 0x4000 + 16 * 512 + 4 * 3 := by
  decide +kernel

theorem witness_RegistersRead : stateA.busy = false := rfl

/-- The first and the last word of the window, and a record in use. -/
theorem witness_NodeWindow : (0x4000 : Offset).toNat = 0x4000 + 16 * 0 + 4 * 0 ∧
    (0x600C : Offset).toNat = 0x4000 + 16 * 512 + 4 * 3 ∧ stateA.busy = false ∧ 4 < stateA.nodes.toNat ∧
    stateA.nodes.toNat ≤ 5 ∧ stateA.node[4]? = some ⟨false, 0, 5, 3, 0⟩ := by decide +kernel

theorem witness_CodeWindows : (0x0C00 : Offset).toNat = 0x0800 + 4 * 256 ∧
    (0x301C : Offset).toNat = 0x1000 + 32 * 256 + 4 * 7 ∧ tableA.code[256]? = some ⟨true, 2, 1⟩ ∧ tableA.busy = false := by
  decide +kernel

theorem witness_FreqReadsBack : stateA.busy = false ∧ stateA.freq.length = 256 ∧
    (0x07FC : Offset).toNat = 0x0400 + 4 * 255 := by decide +kernel

/-- The ends of the unmapped ranges, and a misaligned offset. -/
theorem witness_UnmappedOffsets : (0x0018 : Offset).toNat ≤ 0x03FC ∧ (0x0C04 : Offset).toNat ≤ 0x0FFC ∧
    (0x3020 : Offset).toNat ≤ 0x3FFC ∧ (0x6010 : Offset).toNat ≤ 0xFFFC ∧ (0xFFFF : Offset).toNat % 4 ≠ 0 := by decide

theorem witness_ResetClearsTheBlock : ({ tableA with turns := [.reset] } : State).turns.head? = some .reset := rfl

/-- ENCALL draws the third of three answers: it reads, writes and reads. -/
theorem witness_ResetAbandonsTheCommand_later :
    ∃ t, exec .encall { { tableA with inp := ⟨bitsOfBytes [0x61], 0⟩ } with answers := [.succeeds, .succeeds] ++ .succeeds :: [] } =
      .next t ∧ t.answers.length = 0 := exists_of_get (by decide +kernel)

theorem firstCallReached_tableA : ∀ i ∈ [Instr.ser, .des, .enc 0x61, .encall, .decode, .wmagic, .rmagic, .rewind, .close],
    firstCallReached i { tableA with answers := [.resetFirst] } := by
  have hheld : heldTree { tableA with answers := [.resetFirst] } = some treeA := by decide +kernel
  simp only [List.forall_mem_cons]
  exact ⟨⟨rfl, ⟨_, hheld⟩, rfl⟩, trivial, ⟨rfl, by decide, by decide +kernel, by decide +kernel, rfl⟩, rfl,
    ⟨rfl, _, hheld, rfl⟩, rfl, trivial, trivial, rfl, by simp⟩

/-- Every command that makes calls reaches its first on Tree A and Table A with OUT open; RMAGIC and REWIND with OUT closed. -/
theorem witness_ResetAbandonsTheCommand :
    (∀ i ∈ [Instr.ser, .des, .enc 0x61, .encall, .decode, .wmagic, .rmagic, .rewind, .close],
      firstCallReached i { tableA with answers := [.resetFirst] }) ∧
    (∀ i ∈ [Instr.rmagic, .rewind], firstCallReached i { tableA with out := ⟨[], true⟩, answers := [.resetFirst] }) ∧
    ({ tableA with answers := [.resetFirst] } : State).answers = .resetFirst :: [] :=
  ⟨firstCallReached_tableA, by simp [firstCallReached], rfl⟩

theorem witness_ClearEmptiesTheTables : stateA.busyDrop = false := rfl

/-- For BuildMakesATree, BuildLaysOutTheLeaves, BuildMergesTheTwoLeast and BuildWeightsAreExact. -/
theorem witness_BuildMakesATree : Memory.wf countsA := by decide +kernel

theorem witness_BuildDependsOnFreqAlone : Memory.wf countsA ∧ Memory.wf stateA ∧ stateA.freq = countsA.freq := by decide +kernel

theorem witness_SerWritesTheTree : stateA.treeValid = true ∧ WellFormedTree stateA ∧ PortsSucceed stateA ∧
    stateA.out.closed = false := ⟨rfl, wellFormedTree_stateA, portsSucceed_of_nil rfl, rfl⟩

theorem witness_SerializedLength : WellFormedTree stateA ∧ heldTree stateA = some treeA :=
  ⟨wellFormedTree_stateA, heldTree_stateA⟩

theorem witness_DesReadsATree : Memory.wf (withIn (treeA.bits ++ [true])) ∧
    remaining (withIn (treeA.bits ++ [true])) = treeA.bits ++ [true] ∧ treeA.leafCount ≤ 257 ∧
    PortsSucceed (withIn (treeA.bits ++ [true])) := ⟨by decide +kernel, by decide +kernel, by decide, portsSucceed_of_nil rfl⟩

theorem witness_DesNumbersInPreOrder : Memory.wf (withIn bitsA) ∧ ∃ t, exec .des (withIn bitsA) = .next t ∧
    t.treeValid = true := ⟨by decide +kernel, exists_of_get (by decide +kernel)⟩

theorem witness_SerAndDesAreInverse_a : stateA.treeValid = true ∧ WellFormedTree stateA ∧ PortsSucceed stateA ∧
    stateA.out.closed = false ∧ (∃ v, exec .ser stateA = .next v ∧ v.out.bits = stateA.out.bits ++ bitsA) ∧
    Memory.wf (withIn (bitsA ++ [true])) ∧ PortsSucceed (withIn (bitsA ++ [true])) :=
  ⟨rfl, wellFormedTree_stateA, portsSucceed_of_nil rfl, rfl, exists_of_get (by decide +kernel), by decide +kernel,
    portsSucceed_of_nil rfl⟩

theorem witness_SerAndDesAreInverse_b : Memory.wf (withIn bitsA) ∧ ∃ t, exec .des (withIn bitsA) = .next t ∧
    t.treeValid = true ∧ PortsSucceed t ∧ t.out.closed = false := by
  refine ⟨by decide +kernel, ?_⟩
  obtain ⟨t, h1, h2⟩ := exists_of_get (f := fun t => (t.treeValid, t.answers, t.out.closed)) (o := exec .des (withIn bitsA))
    (a := (true, [], false)) (by decide +kernel)
  simp only [Prod.mk.injEq] at h2
  exact ⟨t, h1, h2.1, portsSucceed_of_nil h2.2.1, h2.2.2⟩

theorem witness_DesFailureLeavesNoTree : (withIn [false]).inp.pos ≤ (withIn [false]).inp.bits.length ∧
    ∃ t, exec .des (withIn [false]) = .next t ∧ t.err = true := ⟨by decide, exists_of_get (by decide +kernel)⟩

/-- D5: IN ends inside the value of a leaf. -/
theorem witness_DesFailureLeavesNoTree_leaf : Memory.wf (withIn (bits [1, 1, 0, 0, 0])) ∧
    PortsSucceed (withIn (bits [1, 1, 0, 0, 0])) ∧ remaining (withIn (bits [1, 1, 0, 0, 0])) <+: (Tree.leaf 256).bits ∧
    remaining (withIn (bits [1, 1, 0, 0, 0])) ≠ (Tree.leaf 256).bits ∧ (Tree.leaf 256).tagsIn 5 ≤ 513 :=
  ⟨by decide +kernel, portsSucceed_of_nil rfl, by decide +kernel, by decide +kernel, by decide⟩

/-- A right-skewed tree with one leaf more than its argument. -/
def skewed : Nat → Tree
  | 0 => .leaf 0
  | n + 1 => .node (.leaf 0) (skewed n)

theorem witness_DesRefusesOversizeTrees : Memory.wf (withIn ((skewed 257).bits ++ [])) ∧
    remaining (withIn ((skewed 257).bits ++ [])) = (skewed 257).bits ++ [] ∧ 257 < (skewed 257).leafCount ∧
    PortsSucceed (withIn ((skewed 257).bits ++ [])) :=
  ⟨by decide +kernel, by decide +kernel, by decide +kernel, portsSucceed_of_nil rfl⟩

/-- IN ends just after the 513th tag bit of a tree that is too large, and just after the 514th. -/
theorem witness_DesStops_boundary :
    remaining (withIn ((skewed 257).bits.take 2817)) <+: (skewed 257).bits ∧ (skewed 257).bits.length = 2837 ∧
    (remaining (withIn ((skewed 257).bits.take 2817))).length = 2817 ∧ (skewed 257).tagsIn 2817 = 513 ∧
    (skewed 257).tagsIn 2818 = 514 := by
  refine ⟨?_, ?_, ?_, ?_, ?_⟩
  · exact List.take_prefix _ _
  all_goals decide +kernel

theorem witness_DesRefusesOversizeTrees_part : Memory.wf (withIn ((skewed 257).bits.take 2818)) ∧
    PortsSucceed (withIn ((skewed 257).bits.take 2818)) ∧
    remaining (withIn ((skewed 257).bits.take 2818)) = (skewed 257).bits.take 2818 ++ [] ∧
    (skewed 257).bits.take 2818 <+: (skewed 257).bits ∧ 513 < (skewed 257).tagsIn ((skewed 257).bits.take 2818).length :=
  ⟨by decide +kernel, portsSucceed_of_nil rfl, by simp [remaining, withIn], List.take_prefix _ _, by decide +kernel⟩

theorem witness_MagicHeader_write : PortsSucceed stateA ∧ stateA.out.closed = false := ⟨portsSucceed_of_nil rfl, rfl⟩

theorem magic_ne_zero : Config.magic.toNat ≠ 0 := by
  have := Config.magicIndex.isLt
  simp only [Config.magic, BitVec.toNat_ofNat]
  omega

theorem witness_MagicHeader_match : 32 ≤ (remaining (withIn (bitsOf 32 Config.magic.toNat))).length ∧
    (remaining (withIn (bitsOf 32 Config.magic.toNat))).take 32 = bitsOf 32 Config.magic.toNat := ⟨Nat.le_refl _, rfl⟩

/-- A zero header (Scenario C). -/
theorem witness_MagicHeader_mismatch : 32 ≤ (remaining (withIn (zeros 32))).length ∧
    (remaining (withIn (zeros 32))).take 32 ≠ bitsOf 32 Config.magic.toNat := by
  refine ⟨by decide, fun h => magic_ne_zero ?_⟩
  have h1 := congrArg num h
  rw [num_bitsOf, Nat.mod_eq_of_lt Config.magic.isLt] at h1
  rw [← h1]
  decide

theorem witness_MagicHeader_short : (remaining (withIn (zeros 31))).length < 32 := by decide

theorem witness_GentabRecordsThePaths : stateA.treeValid = true ∧ heldTree stateA = some treeA ∧
    ∀ x ∈ treeA.symbols, x ≤ 256 := ⟨rfl, heldTree_stateA, by decide⟩

theorem witness_GentabRefusesSymbolsAbove256 : state300.treeValid = true ∧ heldTree state300 = some tree300 ∧
    ∃ x ∈ tree300.symbols, 256 < x := ⟨by decide +kernel, heldTree_state300, 300, by decide, by decide⟩

theorem witness_CodesArePrefixFree : stateA.treeValid = true ∧ heldTree stateA = some treeA ∧ treeA.symbols.Nodup ∧
    ∃ t, exec .gentab stateA = .next t ∧ (t.err, (readCode 0x61 t).valid, (readCode 0x62 t).valid) = (false, true, true) :=
  ⟨rfl, heldTree_stateA, by decide, exists_of_get (by decide +kernel)⟩

theorem witness_CodesAreComplete : stateA.treeValid = true ∧ heldTree stateA = some treeA ∧ treeA.symbols.Nodup ∧
    2 ≤ treeA.leafCount ∧ (∃ t, exec .gentab stateA = .next t ∧ t.err = false) ∧ Memory.wf countsA ∧
    ∃ u, exec .build countsA = .next u ∧ u.err = false :=
  ⟨rfl, heldTree_stateA, by decide, by decide, exists_of_get (by decide +kernel), by decide +kernel,
    exists_of_get (by decide +kernel)⟩

theorem witness_EncEmitsTheCode : tableA.tableValid = true ∧ (readCode 256 tableA).valid = true ∧
    (readCode 256 tableA).len ≠ 0 ∧ tableA.out.closed = false ∧ PortsSucceed tableA :=
  ⟨rfl, by decide +kernel, by decide +kernel, rfl, portsSucceed_of_nil rfl⟩

/-- The table of a single PSEUDO_EOF leaf: a code of length 0 (G2). -/
theorem witness_EncEmitsTheCode_zero : ∃ t, exec .gentab stateEof = .next t ∧
    (t.tableValid, (readCode 256 t).valid, (readCode 256 t).len) = (true, true, 0) := exists_of_get (by decide +kernel)

/-- N9: whole bytes, then a tail of 3 bits. -/
theorem witness_EncallEncodesTheInput :
    remaining { tableA with inp := ⟨bitsOfBytes [0x61] ++ bits [1, 0, 1], 0⟩ } = bitsOfBytes [0x61] ++ bits [1, 0, 1] ∧
    (bits [1, 0, 1]).length < 8 ∧ (∀ b ∈ [(0x61 : BitVec 8)], (readCode b.toNat tableA).valid = true) ∧
    (readCode 256 tableA).valid = true ∧ tableA.tableValid = true ∧ PortsSucceed tableA ∧ tableA.out.closed = false :=
  ⟨rfl, by decide, by decide +kernel, by decide +kernel, rfl, portsSucceed_of_nil rfl, rfl⟩

/-- Scenario A's body: ENCALL succeeds on whole bytes; and the zero-length table on a closed OUT (N8). -/
theorem witness_EncallEncodesTheInput_success :
    NoResetInside { tableA with inp := ⟨bitsOfBytes [0x61, 0x62], 0⟩ } ∧
    (∃ t, exec .encall { tableA with inp := ⟨bitsOfBytes [0x61, 0x62], 0⟩ } = .next t ∧ t.err = false) ∧
    ∃ t, exec .encall { stateEof with
      code := emptyCode.set 256 ⟨true, 0, 0⟩, tableValid := true, out := ⟨[], true⟩ } = .next t ∧ t.err = false :=
  ⟨noResetInside_of_nil rfl, exists_of_get (by decide +kernel),
    exists_of_get (by decide +kernel)⟩

/-- N7. -/
theorem witness_EncallKeepsItsOutputOnError :
    remaining { tableA with inp := ⟨bitsOfBytes [0x61, 0x63], 0⟩ } = bitsOfBytes [0x61] ++ (bitsOf 8 (0x63 : BitVec 8).toNat ++ []) ∧
    (∀ b ∈ [(0x61 : BitVec 8)], (readCode b.toNat tableA).valid = true) ∧
    (readCode (0x63 : BitVec 8).toNat tableA).valid = false ∧ tableA.tableValid = true ∧ PortsSucceed tableA :=
  ⟨by decide +kernel, by decide +kernel, by decide +kernel, rfl, portsSucceed_of_nil rfl⟩

/-- N11, and a byte with a zero-length code before one without on a closed OUT. -/
theorem witness_EncallKeepsItsOutputOnError_eof :
    remaining { tableD8 with inp := ⟨bitsOfBytes [0x61], 0⟩ } = bitsOfBytes [0x61] ++ [] ∧
    (∀ c ∈ [(0x61 : BitVec 8)], (readCode c.toNat tableD8).valid = true) ∧ (readCode 256 tableD8).valid = false ∧
    tableD8.tableValid = true ∧ PortsSucceed tableD8 ∧ tableD8.out.closed = false :=
  ⟨by decide +kernel, by decide +kernel, by decide +kernel, rfl, portsSucceed_of_nil rfl, rfl⟩

/-- A table in which 0x61 has a code of length 0, 0x62 has one of length 1, and OUT is closed. -/
def tableZero : State :=
  { stateA with code := (emptyCode.set 0x61 ⟨true, 0, 0⟩).set 0x62 ⟨true, 1, 0⟩, tableValid := true, out := ⟨[], true⟩ }

theorem witness_EncallKeepsItsOutputOnError_closed :
    remaining { tableZero with inp := ⟨bitsOfBytes [0x61, 0x63], 0⟩ } =
      bitsOfBytes [0x61] ++ (bitsOf 8 (0x63 : BitVec 8).toNat ++ []) ∧
    (∀ c ∈ [(0x61 : BitVec 8)], (readCode c.toNat tableZero).valid = true ∧ (readCode c.toNat tableZero).len = 0) ∧
    (readCode (0x63 : BitVec 8).toNat tableZero).valid = false ∧ PortsSucceed tableZero :=
  ⟨by decide +kernel, by decide +kernel, by decide +kernel, portsSucceed_of_nil rfl⟩

/-- X5: the codes of 61 and 62, the code of PSEUDO_EOF, and a pad bit. -/
theorem witness_DecodeWritesTheSymbols : stateA.treeValid = true ∧ heldTree stateA = some treeA ∧ treeA.isLeaf = false ∧
    (∀ e ∈ [(0x61, bits [1]), (0x62, bits [0, 0])], e ∈ treeA.paths ∧ e.1 ≠ 256) ∧ (256, bits [0, 1]) ∈ treeA.paths ∧
    remaining { stateA with inp := ⟨bits [1, 0, 0, 0, 1, 0], 0⟩ } =
      [(0x61, bits [1]), (0x62, bits [0, 0])].flatMap Prod.snd ++ (bits [0, 1] ++ [false]) ∧ PortsSucceed stateA ∧
    stateA.out.closed = false :=
  ⟨rfl, heldTree_stateA, rfl, by decide, by decide, by decide +kernel, portsSucceed_of_nil rfl, rfl⟩

/-- The code of PSEUDO_EOF alone, on a closed OUT. -/
theorem witness_DecodeWritesTheSymbols_closed :
    remaining { stateA with inp := ⟨bits [0, 1], 0⟩, out := ⟨[], true⟩ } =
      ([] : List (Nat × BitString)).flatMap Prod.snd ++ (bits [0, 1] ++ []) ∧
    get (·.err) (exec .decode { stateA with inp := ⟨bits [0, 1], 0⟩, out := ⟨[], true⟩ }) = some false := by decide +kernel

theorem witness_DecodeOfALeafRoot_eof : stateEof.treeValid = true ∧ heldTree stateEof = some (.leaf 256) := by decide +kernel

/-- X2: DES of a leaf 0x41. -/
theorem witness_DecodeOfALeafRoot_other : ∃ t, exec .des (withIn (Tree.leaf 0x41).bits) = .next t ∧
    (t.treeValid, heldTree t) = (true, some (.leaf 0x41)) := exists_of_get (by decide +kernel)

/-- IN ends inside the code of 62. -/
theorem witness_DecodeMeetsTheEnd : stateA.treeValid = true ∧ heldTree stateA = some treeA ∧ treeA.isLeaf = false ∧
    (∀ f ∈ [(0x61, bits [1])], f ∈ treeA.paths ∧ f.1 ≠ 256) ∧ (0x62, bits [0, 0]) ∈ treeA.paths ∧ bits [0] <+: bits [0, 0] ∧
    bits [0] ≠ bits [0, 0] ∧
    remaining { stateA with inp := ⟨bits [1, 0], 0⟩ } = [(0x61, bits [1])].flatMap Prod.snd ++ bits [0] ∧ PortsSucceed stateA :=
  ⟨rfl, heldTree_stateA, rfl, by decide, by decide, by decide, by decide, by decide +kernel, portsSucceed_of_nil rfl⟩

/-- Scenario A. -/
theorem witness_CompressThenDecompress : Memory.wf countsA ∧ PortsSucceed countsA ∧
    (∀ x < 256, (countsA.freq.getD x 0).toNat = [0x61, 0x61, 0x61, 0x62].count (BitVec.ofNat 8 x)) ∧
    countsA.out = ⟨[], false⟩ ∧
    (runAll [.build, .rewind, .ser, .gentab, .encall]
      { countsA with inp := ⟨bitsOfBytes [0x61, 0x61, 0x61, 0x62], 0⟩ }).map (·.out.bits) =
      some (bitsA ++ bits [1, 1, 1, 0, 0, 0, 1]) :=
  ⟨by decide +kernel, portsSucceed_of_nil rfl, by decide +kernel, rfl, by decide +kernel⟩

theorem witness_RewindAndClose : PortsSucceed stateA ∧ ({ stateA with answers := [.fails 0] } : State).answers = .fails 0 :: [] ∧
    stateA.out.closed = false ∧ ({ stateA with out := ⟨[], true⟩ } : State).out.closed = true :=
  ⟨portsSucceed_of_nil rfl, rfl, rfl, rfl⟩

theorem witness_FailedCallsDrawWhatTheyMay : (withIn [true]).inp.pos ≤ 1 ∧ 1 ≤ (withIn [true]).inp.bits.length ∧
    (withIn [true]).out.closed = false ∧ bits [1] <+: bitsOf 9 256 := by decide

/-- SER's second call fails; and every first call is reached (firstCallReached_tableA). -/
theorem witness_FailedCallsDrawWhatTheyMay_later :
    ∃ t, exec .ser { stateA with answers := [.succeeds] ++ .fails 1 :: [] } = .next t ∧ t.answers.length = 0 :=
  exists_of_get (by decide +kernel)

theorem witness_FailedCallsDrawWhatTheyMay_first : firstCallReached .rmagic { tableA with answers := [.fails 0] } ∧
    firstCallReached .encall { tableA with answers := [.fails 0] } ∧
    ({ tableA with answers := [.fails 0] } : State).answers = .fails 0 :: [] := ⟨trivial, rfl, rfl⟩

/-- ENCALL: a byte with a zero-length code, then one whose code has a bit; and, with Table A, the code of PSEUDO_EOF. -/
theorem witness_ClosedOutputRefusesWrites_encall :
    remaining { tableZero with inp := ⟨bitsOfBytes [0x61, 0x62], 0⟩ } =
      bitsOfBytes [0x61] ++ (bitsOf 8 (0x62 : BitVec 8).toNat ++ []) ∧
    (∀ c ∈ [(0x61 : BitVec 8)], (readCode c.toNat tableZero).valid = true ∧ (readCode c.toNat tableZero).len = 0) ∧
    (readCode (0x62 : BitVec 8).toNat tableZero).valid = true ∧ (readCode (0x62 : BitVec 8).toNat tableZero).len ≠ 0 ∧
    PortsSucceed tableZero ∧ tableZero.out.closed = true ∧
    remaining { tableA with out := ⟨[], true⟩ } = bitsOfBytes [] ++ [] ∧ (readCode 256 tableA).valid = true ∧
    (readCode 256 tableA).len ≠ 0 :=
  ⟨by decide +kernel, by decide +kernel, by decide +kernel, by decide +kernel, portsSucceed_of_nil rfl, rfl,
    by decide +kernel, by decide +kernel, by decide +kernel⟩

/-- X13, on Tree A. -/
theorem witness_ClosedOutputRefusesWrites_decode : heldTree stateA = some treeA ∧ treeA.isLeaf = false ∧
    (0x61, bits [1]) ∈ treeA.paths ∧
    remaining { stateA with inp := ⟨bits [1], 0⟩, out := ⟨[], true⟩ } = bits [1] ++ [] ∧ PortsSucceed stateA :=
  ⟨heldTree_stateA, rfl, by decide, by decide +kernel, portsSucceed_of_nil rfl⟩

theorem witness_ClosedOutputRefusesWrites : ({ tableA with out := ⟨[], true⟩ } : State).out.closed = true ∧
    tableA.treeValid = true ∧ heldTree tableA = some treeA ∧ (readCode 0x61 tableA).valid = true ∧
    (readCode 0x61 tableA).len ≠ 0 := ⟨rfl, rfl, heldTree_tableA, by decide +kernel, by decide +kernel⟩

theorem witness_PortsChangeOnlyAsStated : ∃ t, exec .close stateA = .next t ∧ t.out.closed = true :=
  exists_of_get (by decide +kernel)

theorem witness_HostStreamActions : stateA.busy = false ∧ (accept 2 stateA).busy = true := ⟨rfl, rfl⟩

theorem witness_WaitAndCheck_idle : HostToMove { stateA with script := [.wait] } ∧
    HostToMove { stateA with script := [.stopIfErr], hostWord := 0x62 } ∧ (0x62 : Word).getLsbD 1 = true ∧
    (0x04 : Word).getLsbD 1 = false := ⟨.inl ⟨rfl, rfl⟩, .inl ⟨rfl, rfl⟩, by decide, by decide⟩

theorem witness_WaitAndCheck_busy : HostToMove { stateA with busy := true, turns := [.host], script := [.wait] } := .inr rfl

theorem witness_CommandsKeepCountsAndHost : NoResetInside stateA ∧ ∃ t, exec .encall stateA = .next t ∧ t.err = true :=
  ⟨noResetInside_of_nil rfl, exists_of_get (by decide +kernel)⟩

theorem witness_StreamCommandsKeepTreeAndTable : NoResetInside stateA ∧ ∃ t, exec .ser stateA = .next t ∧ t.err = false :=
  ⟨noResetInside_of_nil rfl, exists_of_get (by decide +kernel)⟩

/-- Two states with different HEAP and CUR, and a record above NODES. -/
theorem witness_HiddenStateIsUnobservable :
    SameBlock stateA { stateA with heap := [7], cur := 9, node := stateA.node.set 512 (leafNode 1 1) } ∧
      ∃ t, step stateA = .next t := by
  refine ⟨⟨rfl, by simp, fun i hi => ?_⟩, _, rfl⟩
  have : stateA.nodes.toNat = 5 := by decide +kernel
  exact List.getElem?_set_ne (by omega)

end Sys2Proof.Machine.Tests
end

section
/-! Accesses to the windows and to the unmapped offsets of the host register space (R46, R49, R54): which register the
offset names, what a read of it returns and that a write leaves the state, and the fields of the words read. -/

namespace Sys2Proof.Machine

/-! ### The register at an offset -/

theorem regAt_codeLen {off : Offset} {sym : Nat} (hs : sym ≤ 256) (h : off.toNat = 0x0800 + 4 * sym) :
    regAt off = .codeLen sym := by
  simp (disch := omega) only [regAt, h, if_pos, if_neg]
  congr 1
  omega

theorem regAt_codeBits {off : Offset} {sym w : Nat} (hs : sym ≤ 256) (hw : w ≤ 7)
    (h : off.toNat = 0x1000 + 32 * sym + 4 * w) : regAt off = .codeBits sym w := by
  simp (disch := omega) only [regAt, h, if_pos, if_neg]
  congr 1 <;> omega

theorem regAt_nodeWord {off : Offset} {i k : Nat} (hi : i ≤ 512) (hk : k ≤ 3)
    (h : off.toNat = 0x4000 + 16 * i + 4 * k) : regAt off = .nodeWord i k := by
  simp (disch := omega) only [regAt, h, if_pos, if_neg]
  congr 1 <;> omega

theorem regAt_misaligned {off : Offset} (h : off.toNat % 4 ≠ 0) : regAt off = .unmapped := if_pos h

/-- The gaps between the registers and windows that R54 lists. -/
theorem regAt_gap {off : Offset}
    (h : (0x0018 ≤ off.toNat ∧ off.toNat ≤ 0x03FC) ∨ (0x0C04 ≤ off.toNat ∧ off.toNat ≤ 0x0FFC) ∨
      (0x3020 ≤ off.toNat ∧ off.toNat ≤ 0x3FFC) ∨ (0x6010 ≤ off.toNat ∧ off.toNat ≤ 0xFFFC)) :
    regAt off = .unmapped := by
  by_cases ha : off.toNat % 4 ≠ 0
  · exact regAt_misaligned ha
  · simp (disch := omega) only [regAt, if_neg]

/-! ### Reads and writes by the register at the offset -/

theorem memRead_of_idle (off : Offset) {s : State} (hb : s.busy = false) : memRead off s = idleRead (regAt off) s := by
  simp [memRead, hb]

theorem memRead_unmapped {off : Offset} (h : regAt off = .unmapped) (s : State) : memRead off s = 0 := by
  simp [memRead, h, busyRead, idleRead]

/-- Only CMD and FREQ take a write; everything else is read-only or unmapped, idle or busy (R85, R86 (b)). -/
theorem memWrite_eq_self {off : Offset} (hcmd : regAt off ≠ .cmd) (hfreq : ∀ i, regAt off ≠ .freq i) (s : State)
    (v : Word) : memWrite off v s = s := by
  unfold memWrite
  split
  case h_1 h => exact absurd h hcmd
  case h_2 i h => exact absurd h (hfreq i)
  all_goals rfl

/-! ### The fields of the words that the windows show -/

/-- A flag at bit 31 and nine bits at 8:0: CODELEN, and word 0 of a node record. -/
theorem flagWord_fields (b : Bool) (x : BitVec 9) :
    (bit b ++ 0#22 ++ x).getLsbD 31 = b ∧ (bit b ++ 0#22 ++ x).extractLsb' 0 9 = x ∧
      (bit b ++ 0#22 ++ x).extractLsb' 9 22 = 0 := by
  refine ⟨?_, BitVec.extractLsb'_append_eq_right, ?_⟩
  · rw [BitVec.getLsbD_append, if_neg (by decide), BitVec.getLsbD_append, if_neg (by decide)]
    cases b <;> rfl
  · rw [BitVec.extractLsb'_append_eq_of_le (by decide)]
    exact BitVec.extractLsb'_append_eq_right

theorem childrenWord_fields (right left : NodeIdx) :
    (0#6 ++ right ++ 0#6 ++ left).extractLsb' 0 10 = left ∧ (0#6 ++ right ++ 0#6 ++ left).extractLsb' 16 10 = right ∧
      (0#6 ++ right ++ 0#6 ++ left).extractLsb' 10 6 = 0 ∧ (0#6 ++ right ++ 0#6 ++ left).extractLsb' 26 6 = 0 := by
  refine ⟨BitVec.extractLsb'_append_eq_right, ?_, ?_, ?_⟩ <;> rw [BitVec.extractLsb'_append_eq_of_le (by decide)]
  · rw [BitVec.extractLsb'_append_eq_of_le (by decide)]
    exact BitVec.extractLsb'_append_eq_right
  · exact BitVec.extractLsb'_append_eq_right
  · rw [BitVec.extractLsb'_append_eq_of_le (by decide)]
    exact BitVec.extractLsb'_append_eq_left

theorem nodeRecordWord_zero (r : Node) :
    (nodeRecordWord r 0).getLsbD 31 = r.leaf ∧ (nodeRecordWord r 0).extractLsb' 0 9 = r.sym ∧
      (nodeRecordWord r 0).extractLsb' 9 22 = 0 := flagWord_fields r.leaf r.sym

theorem nodeRecordWord_one (r : Node) :
    (nodeRecordWord r 1).extractLsb' 0 10 = r.left ∧ (nodeRecordWord r 1).extractLsb' 16 10 = r.right ∧
      (nodeRecordWord r 1).extractLsb' 10 6 = 0 ∧ (nodeRecordWord r 1).extractLsb' 26 6 = 0 :=
  childrenWord_fields r.right r.left

theorem nodeRecordWord_two (r : Node) : nodeRecordWord r 2 = r.weight.extractLsb' 0 32 := rfl

theorem nodeRecordWord_three (r : Node) :
    (nodeRecordWord r 3).extractLsb' 0 8 = r.weight.extractLsb' 32 8 ∧ (nodeRecordWord r 3).extractLsb' 8 24 = 0 :=
  ⟨BitVec.extractLsb'_append_eq_right, BitVec.extractLsb'_append_eq_left⟩

theorem codeLenWord_fields (e : CodeEntry) :
    (codeLenWord e).getLsbD 31 = e.valid ∧ (codeLenWord e).extractLsb' 0 9 = e.len ∧
      (codeLenWord e).extractLsb' 9 22 = 0 := flagWord_fields e.valid e.len

theorem nodeWordAt_of_nodes_le {s : State} {i : Nat} (h : s.nodes.toNat ≤ i) (k : Nat) : nodeWordAt i k s = 0 :=
  if_neg (Nat.not_lt.mpr h)

theorem nodeWordAt_of_lt {s : State} {i : Nat} {r : Node} (h : i < s.nodes.toNat) (hr : s.node[i]? = some r) (k : Nat) :
    nodeWordAt i k s = nodeRecordWord r k := by
  simp [nodeWordAt, h, hr]

theorem readCode_of_getElem? {s : State} {i : Nat} {e : CodeEntry} (h : s.code[i]? = some e) : readCode i s = e := by
  simp [readCode, h]

/-! ### The statements -/

/-- Settles O16: the offset names the node word, which is read-only, and its fields are those of the record. -/
theorem nodeWindow : Obligations.NodeWindow := by
  intro s i k off hi hk hoff
  have hreg := regAt_nodeWord hi hk hoff
  have hread : s.busy = false → memRead off s = nodeWordAt i k s := fun hb => by
    rw [memRead_of_idle off hb, hreg, idleRead]
  refine ⟨fun hb hn => ?_, fun r hb hn hr => ?_, memWrite_eq_self (by simp [hreg]) (by simp [hreg]) s⟩
  · rw [hread hb, nodeWordAt_of_nodes_le hn]
  · rw [hread hb, nodeWordAt_of_lt hn hr]
    refine ⟨?_, ?_, ?_, ?_⟩ <;> rintro rfl
    · exact nodeRecordWord_zero r
    · exact nodeRecordWord_one r
    · exact nodeRecordWord_two r
    · exact nodeRecordWord_three r

/-- Settles O17: each offset names the word of the entry, which is read-only. -/
theorem codeWindows : Obligations.CodeWindows := by
  intro s sym e off hsym he
  have hentry := readCode_of_getElem? he
  refine ⟨fun hoff => ?_, fun w hw hoff => ?_⟩
  · have hreg := regAt_codeLen hsym hoff
    refine ⟨fun hb => ?_, memWrite_eq_self (by simp [hreg]) (by simp [hreg]) s⟩
    rw [memRead_of_idle off hb, hreg, idleRead, hentry]
    exact codeLenWord_fields e
  · have hreg := regAt_codeBits hsym hw hoff
    refine ⟨fun hb => ?_, memWrite_eq_self (by simp [hreg]) (by simp [hreg]) s⟩
    rw [memRead_of_idle off hb, hreg, idleRead, hentry, codeBitsWord]

/-- Settles O19: every such offset is unmapped. -/
theorem unmappedOffsets : Obligations.UnmappedOffsets := by
  intro s off v h
  have hreg : regAt off = .unmapped := h.elim regAt_misaligned regAt_gap
  exact ⟨memRead_unmapped hreg s, memWrite_eq_self (by simp [hreg]) (by simp [hreg]) s v⟩

end Sys2Proof.Machine
end

section
/-! Reads of the host register space leave the block as it is (R84). -/

namespace Sys2Proof.Machine

theorem hostRead_draws_of_idle (off : Offset) {s : State} (hb : s.busy = false) : (hostRead off s).draws = s.draws := by
  simp [hb]

theorem hostLine_rd (off : Offset) (s : State) :
    hostLine (.rd off) s = .next { s with hostWord := memRead off s, draws := (hostRead off s).draws } := rfl

/-- Settles O14: a read line is one `hostRead`, which sets `hostWord` and, only while BUSY = 1, counts a draw. -/
theorem readsHaveNoSideEffect : Obligations.ReadsHaveNoSideEffect := by
  intro s off
  exact ⟨(hostRead off s).draws, hostLine_rd off s, hostRead_draws_of_idle off⟩

end Sys2Proof.Machine
end

section
/-! The decoder of R124 by the fields of the word: the opcode map of R123 row by row, then the two further conditions, on
RSVD and SYM; and the outcome of an illegal word (R153). -/

namespace Sys2Proof.Machine

/-! ### The opcode map -/

/-- The rows of the map end at opcode 0x0C (R123, R125). -/
theorem instrOf_eq_none_iff {op sym : Nat} : instrOf op sym = none ↔ 0x0C < op := by
  unfold instrOf
  split
  case h_14 => grind
  all_goals simp

theorem instrOf_opcodeOf_symOf (i : Instr) : instrOf (opcodeOf i) (symOf i) = some i := by
  cases i <;> rfl

theorem instrOf_fields {op sym : Nat} {i : Instr} (h : instrOf op sym = some i) :
    opcodeOf i = op ∧ symOf i = if op = 0x06 then sym else 0 := by
  unfold instrOf at h
  split at h <;> cases h <;> exact ⟨rfl, rfl⟩

/-- Where SYM is as R124 asks, opcode and SYM pick out one command, the one with those fields. -/
theorem instrOf_eq_some_iff {op sym : Nat} {i : Instr} (hsym : op ≠ 0x06 → sym = 0) :
    instrOf op sym = some i ↔ opcodeOf i = op ∧ symOf i = sym := by
  constructor
  · intro h
    obtain ⟨hop, hs⟩ := instrOf_fields h
    refine ⟨hop, hs.trans ?_⟩
    split
    case isTrue => rfl
    case isFalse h6 => exact (hsym h6).symm
  · rintro ⟨rfl, rfl⟩
    exact instrOf_opcodeOf_symOf i

/-! ### The decoder -/

/-- Where RSVD is 0, and SYM is 0 or the operand of ENC, the word reads its row of the map; elsewhere it is ILLEGAL (R124). -/
theorem decode_eq (w : Word) :
    decode w = if rsvdField w = 0 ∧ (opcodeField w ≠ 0x06 → symField w = 0)
      then instrOf (opcodeField w) (symField w) else none := by
  unfold decode decodeNamed
  by_cases hr : rsvdField w = 0
  case neg => simp [hr]
  cases instrOf (opcodeField w) (symField w) with
  | none => simp [hr]
  | some i => by_cases h6 : opcodeField w = 0x06 <;> by_cases h0 : symField w = 0 <;> simp [hr, h6, h0]

theorem decode_eq_some_iff {w : Word} {i : Instr} :
    decode w = some i ↔ (rsvdField w = 0 ∧ (opcodeField w ≠ 0x06 → symField w = 0)) ∧
      instrOf (opcodeField w) (symField w) = some i := by
  rw [decode_eq, Option.ite_none_right_eq_some]

theorem decode_eq_none_iff {w : Word} :
    decode w = none ↔
      rsvdField w ≠ 0 ∨ 0x0C < opcodeField w ∨ (opcodeField w ≠ 0x06 ∧ symField w ≠ 0) := by
  rw [decode_eq, ite_eq_right_iff, instrOf_eq_none_iff]
  omega

theorem runWord_of_decode_none {w : Word} (h : decode w = none) (s : State) :
    runWord w s = .next (failedWith .illegal s) := by
  rw [runWord, h]
  rfl

/-- Settles O2: the decoder's conditions on RSVD and SYM, with the opcode map's row and its bound 0x0C. -/
theorem decodeReadsTheFields : Obligations.DecodeReadsTheFields := by
  refine fun w => ⟨fun i => ?_, decode_eq_none_iff, runWord_of_decode_none⟩
  rw [decode_eq_some_iff]
  constructor
  · rintro ⟨⟨hr, hsym⟩, hi⟩
    have hop : opcodeField w ≤ 0x0C := Nat.not_lt.mp fun h => by
      rw [instrOf_eq_none_iff.mpr h] at hi
      cases hi
    exact ⟨hr, hop, hsym, (instrOf_eq_some_iff hsym).mp hi⟩
  · rintro ⟨hr, -, hsym, hi⟩
    exact ⟨⟨hr, hsym⟩, (instrOf_eq_some_iff hsym).mpr hi⟩

end Sys2Proof.Machine
end

section
/-! The control of commands (R150, R153, R156): the core's move on a held word, the host's write of CMD, and NOP. -/

namespace Sys2Proof.Machine

theorem step_of_pending {s : State} {w : Word} (h : CoreToMove s) (hw : s.pending = some w) :
    step s = runWord w (passTurn s) := by
  rw [step_of_coreToMove h, executePending, passTurn_pending, hw]

theorem runWord_of_decode_some {w : Word} {i : Instr} (h : decode w = some i) (s : State) : runWord w s = exec i s := by
  rw [runWord, h]

theorem step_of_script_cons {s : State} {l : HostLine} {rest : List HostLine} (h : HostToMove s)
    (hl : s.script = l :: rest) : step s = hostLine l { passTurn s with script := rest } := by
  rw [step_of_hostToMove h, hostMove, passTurn_script, hl]

theorem hostLine_wr (off : Offset) (v : Word) (s : State) : hostLine (.wr off v) s = .next (memWrite off v s) := rfl

theorem memWrite_of_cmd {off : Offset} (h : regAt off = .cmd) (v : Word) (s : State) :
    memWrite off v s = if s.busy then setDrop s else accept v s := by
  rw [memWrite, h]

theorem memWrite_cmd_of_idle {s : State} (hb : s.busy = false) (v : Word) : memWrite 0x0000 v s = accept v s := by
  rw [memWrite_of_cmd rfl, hb, if_neg Bool.false_ne_true]

theorem memWrite_cmd_of_busy {s : State} (hb : s.busy = true) (v : Word) : memWrite 0x0000 v s = setDrop s := by
  rw [memWrite_of_cmd rfl, if_pos hb]

theorem exec_nop (s : State) : exec .nop s = .next (done (clearOutcome s)) := runCommand_ok rfl

/-! ### The statements -/

/-- Settles O4: the core's step runs the word that PENDING holds, and an ILLEGAL word only raises E_ILLEGAL. -/
theorem pendingCommandRuns : Obligations.PendingCommandRuns := by
  intro s w hc hw
  rw [step_of_pending hc hw]
  exact ⟨fun i hi => runWord_of_decode_some hi _, fun hn => runWord_of_decode_none hn _⟩

/-- Settles O7: the host's line is one write of CMD, which BUSY decides between acceptance and a drop. -/
theorem commandIsAcceptedOrDropped : Obligations.CommandIsAcceptedOrDropped := by
  intro s w rest hh hl
  rw [step_of_script_cons hh hl, hostLine_wr]
  exact ⟨fun hb => congrArg _ (memWrite_cmd_of_idle (s := { passTurn s with script := rest }) hb w),
    fun hb => congrArg _ (memWrite_cmd_of_busy (s := { passTurn s with script := rest }) hb w)⟩

/-- Settles O23: NOP's pseudocode does nothing, so only the start and the completion of a command change the state. -/
theorem nopClearsTheOutcome : Obligations.NopClearsTheOutcome :=
  ⟨by decide, exec_nop⟩

end Sys2Proof.Machine
end

section
/-! BUILD's next state (spec/41_tree_builder.md): the leaves record by record (R171, R177), the merges (R173, R174), and that
FREQ alone decides them (R179). -/

namespace Sys2Proof.Machine

/-! ### The leaves that FREQ gives -/

/-- The byte leaves are the symbols with a nonzero count, in ascending order (R171). -/
theorem byteLeaves_eq_map (freq : List Word) :
    byteLeaves freq = ((List.range 256).filter fun x => freq.getD x 0 ≠ 0).map fun x =>
      leafNode (BitVec.ofNat 9 x) ((freq.getD x 0).setWidth 40) := by
  rw [byteLeaves, ← List.filterMap_eq_map', ← List.filterMap_eq_filter, List.filterMap_filterMap]
  refine List.filterMap_congr fun x _ => ?_
  by_cases hx : freq[x]?.getD 0#32 = 0#32
  · simp [Option.guard, hx]
  · simp [Option.guard, hx, zext40]

theorem buildLeaves_length_eq {freq : List Word} (h : freq.length = 256) :
    (buildLeaves freq).length = freq.countP (· ≠ 0) + 1 := by
  rw [buildLeaves, List.length_append, byteLeaves_length freq h, List.length_singleton]

theorem buildLeaves_getElem?_byte {freq : List Word} {k : Nat} {r : Node} (h : (byteLeaves freq)[k]? = some r) :
    (buildLeaves freq)[k]? = some r := by
  obtain ⟨hk, -⟩ := List.getElem?_eq_some_iff.mp h
  rw [buildLeaves, List.getElem?_append_left hk, h]

theorem buildLeaves_getElem?_eof (freq : List Word) :
    (buildLeaves freq)[(byteLeaves freq).length]? = some (leafNode 256 1) :=
  List.getElem?_concat_length

theorem buildTree_getElem?_leaf {freq : List Word} {k : Nat} {r : Node} (h : (buildLeaves freq)[k]? = some r) :
    (buildTree freq).1[k]? = some r := by
  obtain ⟨rest, hrest, -⟩ := buildTree_split freq
  obtain ⟨hk, -⟩ := List.getElem?_eq_some_iff.mp h
  rw [hrest, List.getElem?_append_left hk, h]

/-! ### BUILD's next state -/

theorem exec_build (s : State) : exec .build s = .next (done (buildEffect (clearOutcome s))) :=
  runCommand_ok (body := fun t => .ok () (buildEffect t)) rfl

/-- BUILD completes in every state; the records in use and the three registers are those of the tree that FREQ gives (R170). -/
theorem exec_build_spec (s : State) : ∃ t, exec .build s = .next t ∧
    usedRecords t = (buildTree s.freq).1 ∧
    t.root = BitVec.ofNat 10 (2 * (buildLeaves s.freq).length - 2) ∧
    t.nodes = BitVec.ofNat 10 (2 * (buildLeaves s.freq).length - 1) ∧
    t.leaves = BitVec.ofNat 10 (buildLeaves s.freq).length := by
  refine ⟨done (buildEffect (clearOutcome s)), exec_build s, usedRecords_buildEffect (clearOutcome s), ?_, ?_, rfl⟩
  · simp [buildEffect, (buildTree_spec s.freq).1]
  · simp [buildEffect, buildTree_length]

theorem node_getElem?_of_used {s : State} {i : Nat} {r : Node} (h : (usedRecords s)[i]? = some r) :
    s.node[i]? = some r := by
  obtain ⟨hi, -⟩ := List.getElem?_eq_some_iff.mp h
  rw [usedRecords, List.length_take] at hi
  rwa [usedRecords, List.getElem?_take_of_lt (by omega)] at h

/-! ### The statements -/

/-- Settles O26: the records in use begin with the leaves that FREQ gives, and the forest that the merges keep says which
records are leaves and where children stand. -/
theorem buildLaysOutTheLeaves : Obligations.BuildLaysOutTheLeaves := by
  rintro s ⟨hfreq, -, -⟩
  obtain ⟨t, hexec, hused, hroot, hnodes, hleaves⟩ := exec_build_spec s
  obtain ⟨-, hforest, -⟩ := buildTree_spec s.freq
  have hL : (buildLeaves s.freq).length = countedSymbols s + 1 := buildLeaves_length_eq hfreq
  have hL257 := (buildLeaves_length s.freq).2
  have leaf_at {k : Nat} {r : Node} (h : (buildLeaves s.freq)[k]? = some r) : t.node[k]? = some r :=
    node_getElem?_of_used (hused ▸ buildTree_getElem?_leaf h)
  refine ⟨t, hexec, ?_, ?_, ?_, fun k x hx => ?_, ?_, fun i r hr => ?_⟩
  · rw [hleaves, BitVec.toNat_ofNat]; omega
  · rw [hnodes, BitVec.toNat_ofNat]; omega
  · rw [hroot, BitVec.toNat_ofNat]; omega
  · apply leaf_at
    apply buildLeaves_getElem?_byte
    rw [byteLeaves_eq_map, List.getElem?_map, hx, Option.map_some]
  · apply leaf_at
    rw [countedSymbols, ← byteLeaves_length s.freq hfreq]
    exact buildLeaves_getElem?_eof s.freq
  · rw [hused] at hr
    refine ⟨hL ▸ hforest.leaves i r hr, fun hl => ?_⟩
    obtain ⟨hleft, hright, -⟩ := hforest.inner i r hr hl
    exact ⟨hleft, hright⟩

/-- Settles O27: the merge loop keeps a forest whose every internal record was made from the two least keys. -/
theorem buildMergesTheTwoLeast : Obligations.BuildMergesTheTwoLeast := by
  intro s _
  obtain ⟨t, hexec, hused, -⟩ := exec_build_spec s
  obtain ⟨-, hforest, -⟩ := buildTree_spec s.freq
  refine ⟨t, hexec, fun i r hr hl => ?_⟩
  rw [hused] at hr ⊢
  obtain ⟨hleft, hright, hleast⟩ := hforest.greedy i r hr hl
  obtain ⟨-, -, hkey, hweight, hsym⟩ := hforest.inner i r hr hl
  exact ⟨hleft, hright, keyLess_iff_keyBefore.mp hkey, fun j hj => (hleast j hj).1, fun j hj => (hleast j hj).2,
    hweight, hsym⟩

/-- Settles O29: the records in use and the registers are given by FREQ alone. -/
theorem buildDependsOnFreqAlone : Obligations.BuildDependsOnFreqAlone := by
  intro s u _ _ hfreq
  obtain ⟨t, ht, htused, htroot, htnodes, htleaves⟩ := exec_build_spec s
  obtain ⟨v, hv, hvused, hvroot, hvnodes, hvleaves⟩ := exec_build_spec u
  rw [hfreq] at hvused hvroot hvnodes hvleaves
  exact ⟨t, v, ht, hv, hvused.trans htused.symm, hvroot.trans htroot.symm, hvnodes.trans htnodes.symm,
    hvleaves.trans htleaves.symm⟩

end Sys2Proof.Machine
end

section
/-! SER and DES (spec/42_tree_codec.md): the next state of each where it succeeds, what a tree read by DES looks like (R194),
and that the two are inverse to each other (R198). -/

namespace Sys2Proof.Machine

/-! ### SER -/

/-- Where no call fails SER appends the serialized form of the tree held to an open OUT, and succeeds (R191). -/
theorem exec_ser {s : State} {tr : Tree} (hv : s.treeValid = true) (htr : heldTree s = some tr) (hp : PortsSucceed s)
    (ho : s.out.closed = false) :
    ∃ k, exec .ser s = .next (succeeded (afterCalls k { s with out := ⟨s.out.bits ++ tr.bits, false⟩ })) := by
  have htr' : treeAt Config.treeDepth (clearOutcome s) s.root = some tr :=
    (treeAt_congr (s := s) (t := clearOutcome s) rfl rfl Config.treeDepth s.root).trans htr
  obtain ⟨k, hk⟩ := serNode_run htr' hp ho
  refine ⟨k, ?_⟩
  have hbody : serBody (clearOutcome s) = .ok () (appendOut tr.bits (afterCalls k (clearOutcome s))) := by
    rw [serBody, clearOutcome_treeValid, if_pos hv, clearOutcome_root, hk]
  calc exec .ser s = .next (done (appendOut tr.bits (afterCalls k (clearOutcome s)))) := runCommand_ok hbody
    _ = .next (succeeded (afterCalls k { s with out := ⟨s.out.bits ++ tr.bits, false⟩ })) := by
      rw [← ho]; rfl

/-- A well-formed tree has 1 to 257 leaves (R47 (a), (d)). -/
theorem WellFormedTree.leaves_bounds {s : State} (h : WellFormedTree s) : 1 ≤ s.leaves.toNat ∧ s.leaves.toNat ≤ 257 := by
  have := h.nodes_pos
  have := h.nodes_le
  have := h.nodes_eq
  omega

/-! ### DES -/

/-- What a DES that has read the tree `tr` with `k` port calls leaves (R193). -/
def desResult (tr : Tree) (k : Nat) (s : State) : State :=
  done { desDone tr k (desStart (clearOutcome s)) with root := 0, treeValid := true }

theorem desResult_inp (tr : Tree) (k : Nat) (s : State) :
    (desResult tr k s).inp = ⟨s.inp.bits, s.inp.pos + tr.bits.length⟩ := rfl

theorem desBody_raised_treeValid {s u : State} {e : ErrCode} (h : desBody s = .raised e u) : u.treeValid = false := by
  rcases bind_eq_raised.mp h with hnode | ⟨i, v, -, hv⟩
  · have hkeep := desNode_all (P := fun w => w.treeValid = false) (fun _ h => h) (fun _ _ h _ => h) (fun _ h _ => h)
      (fun _ _ _ h => h) (fun _ _ _ _ h => h) (fun _ h => h) (fun _ h => h) (Config.nodeCap + 1) (desStart s) rfl
    rw [hnode] at hkeep
    exact hkeep
  · cases hv

/-- A DES that ends with TREE_VALID = 1 has consumed the serialized form of a tree for which NODE has room (R193, R195). -/
theorem exec_des_eq_next {s t : State} (h : exec .des s = .next t) (hv : t.treeValid = true) :
    ∃ tr k rest, remaining s = tr.bits ++ rest ∧ tr.size ≤ 513 ∧ t = desResult tr k s := by
  obtain ⟨u, hu, rfl⟩ | ⟨e, u, hu, rfl⟩ | ⟨u, -, rfl⟩ := runCommand_cases (body := desBody) h
  · obtain ⟨tr, k, rest, hrem, hcap, rfl⟩ := desBody_eq_ok hu
    exact ⟨tr, k, rest, hrem, hcap, rfl⟩
  · exact absurd ((desBody_raised_treeValid hu).symm.trans hv) Bool.false_ne_true
  · exact absurd hv Bool.false_ne_true

/-- DES succeeds on the serialized form of a tree of at most 257 leaves, where no call fails (R193). -/
theorem exec_des {s : State} {tr : Tree} {rest : BitString} (hrem : remaining s = tr.bits ++ rest) (hp : PortsSucceed s)
    (hw : Memory.wf s) (hcap : tr.leafCount ≤ 257) : ∃ k, exec .des s = .next (desResult tr k s) := by
  obtain ⟨-, hnode, -⟩ := hw
  obtain ⟨k, hk⟩ := desBody_run (s := clearOutcome s) hrem hp hnode hcap
  exact ⟨k, runCommand_ok hk⟩

section ReadTree

variable {s : State} {tr : Tree} (k : Nat)

theorem desResult_nodes_toNat (hcap : tr.size ≤ 513) : (desResult tr k s).nodes.toNat = tr.size :=
  (toNat_add_ofNat (a := 0) (by simpa using hcap)).trans (Nat.zero_add _)

theorem heldTree_desResult (hw : Memory.wf s) (hcap : tr.size ≤ 513) : heldTree (desResult tr k s) = some tr := by
  obtain ⟨-, hnode, -⟩ := hw
  exact (wellFormedTree_of_records hnode hcap rfl (BitVec.zero_add _) (BitVec.zero_add _) rfl).1

/-- The records in use are the tree's in pre-order (R194). -/
theorem usedRecords_desResult (hw : Memory.wf s) (hcap : tr.size ≤ 513) :
    usedRecords (desResult tr k s) = tr.records 0 := by
  obtain ⟨-, hnode, -⟩ := hw
  exact usedRecords_desDone hnode hcap _ (desResult_nodes_toNat k hcap) rfl rfl

/-- The indices are met in ascending order (R194). -/
theorem indicesAt_desResult (hw : Memory.wf s) (hcap : tr.size ≤ 513) :
    indicesAt Config.nodeCap (desResult tr k s) (desResult tr k s).root =
      some (List.range (desResult tr k s).nodes.toNat) := by
  have hn : (desResult tr k s).nodes.toNat = tr.size := desResult_nodes_toNat k hcap
  have hrec : ∀ j < tr.size, (desResult tr k s).node[0 + j]? = (tr.records 0)[j]? := by
    intro j hj
    obtain ⟨r, hr⟩ : ∃ r, (tr.records 0)[j]? = some r := ⟨_, List.getElem?_eq_getElem (by simpa using hj)⟩
    rw [Nat.zero_add, hr]
    exact node_getElem?_of_used (usedRecords_desResult k hw hcap ▸ hr)
  have hheight : tr.height < Config.nodeCap := by
    have := tr.height_le
    simp only [Tree.size, Config.nodeCap] at *
    omega
  rw [hn, List.range_eq_range']
  exact (treeAt_records hrec (by omega) hheight).2

theorem usedRecords_desResult_weight (hw : Memory.wf s) (hcap : tr.size ≤ 513) :
    ∀ r ∈ usedRecords (desResult tr k s), r.weight = 0 :=
  usedRecords_desResult k hw hcap ▸ Tree.records_weight

end ReadTree

/-! ### The statements -/

/-- Settles O30: SER writes the serialized form of the tree that the well-formed store holds. -/
theorem serWritesTheTree : Obligations.SerWritesTheTree := by
  intro s hv hwf hp ho
  obtain ⟨tr, htr, -⟩ := hwf.heldTree
  obtain ⟨k, hk⟩ := exec_ser hv htr hp ho
  exact ⟨tr, k, htr, hk⟩

/-- Settles O31: 10 bits for each leaf and 1 for each internal node, of which there is one less. -/
theorem serializedLength : Obligations.SerializedLength := by
  intro s tr hwf htr
  have hleaves : tr.leafCount = s.leaves.toNat := hwf.leafCount htr
  obtain ⟨hpos, hle⟩ := hwf.leaves_bounds
  have hbits : tr.bits.length + 1 = 11 * s.leaves.toNat := hleaves ▸ tr.bits_length
  exact ⟨hleaves, by omega, by omega, by omega, by omega⟩

/-- Settles O33: the records in use are those of a tree in pre-order, from index 0 on. -/
theorem desNumbersInPreOrder : Obligations.DesNumbersInPreOrder := by
  intro s t hw hexec hv
  obtain ⟨tr, k, rest, -, hcap, rfl⟩ := exec_des_eq_next hexec hv
  refine ⟨rfl, indicesAt_desResult k hw hcap, fun i r hr => ⟨?_, fun hleaf => ?_⟩⟩
  · exact usedRecords_desResult_weight k hw hcap r (List.mem_of_getElem? hr)
  · rw [usedRecords_desResult k hw hcap] at hr
    obtain ⟨hleft, hright, -⟩ := Tree.records_children (by omega) hr hleaf
    omega

/-- R198 (a): DES of what SER wrote holds the tree that SER read. -/
theorem des_of_ser {s v u : State} {S X : BitString} (hv : s.treeValid = true) (hwf : WellFormedTree s)
    (hp : PortsSucceed s) (ho : s.out.closed = false) (hser : exec .ser s = .next v)
    (hS : v.out.bits = s.out.bits ++ S) (hw : Memory.wf u) (hpu : PortsSucceed u) (hin : u.inp = ⟨S ++ X, 0⟩) :
    ∃ tr k, heldTree s = some tr ∧ S = tr.bits ∧ tr.size ≤ 513 ∧ exec .des u = .next (desResult tr k u) := by
  obtain ⟨tr, htr, hsize⟩ := hwf.heldTree
  obtain ⟨j, hj⟩ := exec_ser hv htr hp ho
  obtain rfl : succeeded (afterCalls j { s with out := ⟨s.out.bits ++ tr.bits, false⟩ }) = v :=
    Host.Outcome.next.inj (hj.symm.trans hser)
  obtain rfl : tr.bits = S := List.append_cancel_left hS
  have hrem : remaining u = tr.bits ++ X := by rw [remaining, hin]; rfl
  have hleaves : tr.leafCount ≤ 257 := hwf.leafCount htr ▸ hwf.leaves_bounds.2
  obtain ⟨k, hk⟩ := exec_des hrem hpu hw hleaves
  exact ⟨tr, k, htr, rfl, hsize.symm.trans_le hwf.nodes_le, hk⟩

/-- R198 (b): SER of the tree DES built writes the bits DES consumed. -/
theorem ser_of_des {u t : State} (hw : Memory.wf u) (hdes : exec .des u = .next t) (hv : t.treeValid = true)
    (hp : PortsSucceed t) (ho : t.out.closed = false) :
    ∃ v, exec .ser t = .next v ∧ v.err = false ∧
      v.out.bits = t.out.bits ++ (remaining u).take (t.inp.pos - u.inp.pos) := by
  obtain ⟨tr, k, rest, hrem, hcap, rfl⟩ := exec_des_eq_next hdes hv
  obtain ⟨j, hj⟩ := exec_ser hv (heldTree_desResult k hw hcap) hp ho
  refine ⟨_, hj, rfl, ?_⟩
  have hread : (remaining u).take ((desResult tr k u).inp.pos - u.inp.pos) = tr.bits := by
    rw [hrem, desResult_inp, Nat.add_sub_cancel_left, List.take_left]
  rw [hread]
  rfl

/-- Settles O34: both directions go through the tree whose serialized form SER writes and DES reads. -/
theorem serAndDesAreInverse : Obligations.SerAndDesAreInverse := by
  constructor
  · intro s v S hv hwf hp ho hser hS u X hw hpu hin
    obtain ⟨tr, k, htr, rfl, hcap, hdes⟩ := des_of_ser hv hwf hp ho hser hS hw hpu hin
    refine ⟨_, hdes, rfl, rfl, ?_, ?_, usedRecords_desResult_weight k hw hcap, indicesAt_desResult k hw hcap⟩
    · rw [desResult_inp, hin, Nat.zero_add]
    · rw [heldTree_desResult k hw hcap, htr]
  · intro u t hw hdes hv hp ho
    exact ser_of_des hw hdes hv hp ho

end Sys2Proof.Machine
end

section
/-! GENTAB's next state (spec/43_code_table.md): the table is the tree's entry at each symbol (R230 to R235), its codes are
the paths of leaves (R237), and for distinct symbols the valid entries are the leaves' (R238). -/

namespace Sys2Proof.Machine

/-! ### What GENTAB does on the tree held -/

/-- The table that the writes leave, whole. -/
theorem code_writeEntries (t : Tree) (s : State) :
    (writeEntries t.paths (clearTable s)).code = (List.range 257).map t.entry := by
  have hlen : (writeEntries t.paths (clearTable s)).code.length = 257 := by
    rw [writeEntries_eq, foldl_set_length]; exact emptyCode_length
  refine List.ext_getElem (by simp [hlen]) fun x hx _ => ?_
  have hread := readCode_writeEntries t (clearTable s) rfl (sym := x) (by omega)
  rw [readCode, List.getD_eq_getElem _ _ hx] at hread
  simpa using hread

theorem treeAt_clearTable_clearOutcome {s : State} {tr : Tree} (htr : heldTree s = some tr) :
    treeAt Config.treeDepth (clearTable (clearOutcome s)) s.root = some tr :=
  (treeAt_congr (s := s) (t := clearTable (clearOutcome s)) rfl rfl Config.treeDepth s.root).trans htr

/-- Where the table can hold every symbol GENTAB succeeds, with the tree's entries (R230 to R234). -/
theorem exec_gentab {s : State} {tr : Tree} (hv : s.treeValid = true) (htr : heldTree s = some tr)
    (hle : ∀ x ∈ tr.symbols, x ≤ 256) :
    exec .gentab s = .next (succeeded { s with code := (List.range 257).map tr.entry, tableValid := true }) := by
  have hgen := genNode_run [] (treeAt_clearTable_clearOutcome htr) (List.forall_mem_map.mp hle)
  have hbody : gentabBody (clearOutcome s) =
      .ok () { writeEntries tr.paths (clearTable (clearOutcome s)) with tableValid := true } := by
    rw [gentabBody, clearOutcome_treeValid, if_pos hv, clearOutcome_root, hgen]
    rfl
  rw [← code_writeEntries tr (clearOutcome s)]
  refine (runCommand_ok hbody).trans ?_
  rw [writeEntries_eq]
  rfl

/-- Where a symbol is above 256 GENTAB clears the table and raises E_SYM_RANGE (R235). -/
theorem exec_gentab_symRange {s : State} {tr : Tree} (hv : s.treeValid = true) (htr : heldTree s = some tr)
    (hgt : ∃ x ∈ tr.symbols, 256 < x) :
    exec .gentab s = .next (failedWith .symRange { s with code := emptyCode, tableValid := false }) := by
  have hgen := genNode_symRange [] (treeAt_clearTable_clearOutcome htr) (by simpa [Tree.symbols, Tree.paths] using hgt)
  have hbody : gentabBody (clearOutcome s) = .raised .symRange (clearTable (clearTable (clearOutcome s))) := by
    rw [gentabBody, clearOutcome_treeValid, if_pos hv, clearOutcome_root, hgen, bind_raised]
  exact (runCommand_raised hbody).trans rfl

/-- A GENTAB that ends with ERR = 0 has met no symbol above 256, and leaves the tree's entries (R230, R235). -/
theorem code_of_exec_gentab {s t : State} {tr : Tree} (hv : s.treeValid = true) (htr : heldTree s = some tr)
    (h : exec .gentab s = .next t) (herr : t.err = false) :
    (∀ x ∈ tr.symbols, x ≤ 256) ∧ t.code = (List.range 257).map tr.entry := by
  by_cases hgt : ∃ x ∈ tr.symbols, 256 < x
  · obtain rfl := Host.Outcome.next.inj ((exec_gentab_symRange hv htr hgt).symm.trans h)
    cases herr
  · have hle : ∀ x ∈ tr.symbols, x ≤ 256 := fun x hx => Nat.not_lt.mp fun hlt => hgt ⟨x, hx, hlt⟩
    obtain rfl := Host.Outcome.next.inj ((exec_gentab hv htr hle).symm.trans h)
    exact ⟨hle, rfl⟩

/-- A symbol's entry in a table that holds a tree's entries. -/
theorem readCode_of_code_eq {t : State} {tr : Tree} (h : t.code = (List.range 257).map tr.entry) {sym : Nat}
    (hs : sym ≤ 256) : readCode sym t = tr.entry sym :=
  readCode_of_getElem? (by simp [h, Nat.lt_succ_of_le hs])

/-! ### Entries and paths -/

theorem Tree.entry_eq_of_valid {t : Tree} {sym : Nat} (h : (t.entry sym).valid = true) :
    ∃ p, (sym, p) ∈ t.paths ∧ t.entry sym = pathEntry p := by
  cases hp : t.lastPath sym with
  | none => simp [entry, hp, CodeEntry.empty] at h
  | some p => exact ⟨p, mem_of_lastPath hp, by rw [entry, hp]⟩

/-- The valid entries are those of the tree's symbols (R233, R234). -/
theorem Tree.entry_valid_iff {t : Tree} {sym : Nat} : (t.entry sym).valid = true ↔ sym ∈ t.symbols := by
  rw [← lastPath_isSome, entry]
  cases t.lastPath sym <;> simp [pathEntry, CodeEntry.empty]

/-- No leaf of the tree held is deeper than CODE_MAX (R236). -/
theorem heldTree_path_length_le {s : State} {tr : Tree} (htr : heldTree s = some tr) {e : Nat × BitString}
    (he : e ∈ tr.paths) : e.2.length ≤ 256 := by
  obtain ⟨x, hfollow, -⟩ := Tree.mem_paths.mp he
  have hdepth := Tree.follow_length hfollow
  have hheight : tr.height < 257 := treeAt_height_lt htr
  omega

/-- The only path of a symbol that one leaf alone holds is its last. -/
theorem Tree.entry_of_mem_paths {t : Tree} (hn : t.symbols.Nodup) {e : Nat × BitString} (he : e ∈ t.paths) :
    t.entry e.1 = pathEntry e.2 := by
  obtain ⟨p, hp, hentry⟩ := entry_eq_of_valid (entry_valid_iff.mpr (List.mem_map_of_mem he))
  have hep : e = (e.1, p) := List.inj_on_of_nodup_map hn he hp rfl
  rw [hentry, hep]

/-- For distinct symbols the valid entries of the table are those of the leaves' paths, up to their order. -/
theorem Tree.valid_entries_perm {t : Tree} (hn : t.symbols.Nodup) (hle : ∀ x ∈ t.symbols, x ≤ 256) :
    (((List.range 257).map t.entry).filter (·.valid)).Perm (t.paths.map fun e => pathEntry e.2) := by
  have hsyms : ((List.range 257).filter fun x => (t.entry x).valid).Perm t.symbols := by
    refine (List.perm_ext_iff_of_nodup (List.nodup_range.filter _) hn).mpr fun x => ?_
    rw [List.mem_filter, entry_valid_iff, List.mem_range]
    exact ⟨fun h => h.2, fun h => ⟨Nat.lt_succ_of_le (hle x h), h⟩⟩
  have hpaths : t.symbols.map t.entry = t.paths.map fun e => pathEntry e.2 := by
    rw [symbols, List.map_map]
    exact List.map_congr_left fun e he => entry_of_mem_paths hn he
  rw [List.filter_map, ← hpaths]
  exact hsyms.map t.entry

theorem pathEntry_len_toNat {p : BitString} (h : p.length ≤ 256) : (pathEntry p).len.toNat = p.length := by
  rw [pathEntry, BitVec.toNat_ofNat]
  omega

/-! ### How many paths there are, and how long they are -/

theorem Tree.pathsFrom_length (t : Tree) (p : BitString) : (t.pathsFrom p).length = t.leafCount := by
  induction t generalizing p with
  | leaf => rfl
  | node l r hl hr => rw [pathsFrom, List.length_append, hl, hr, leafCount]

/-- Only the path of a root that is a leaf is empty. -/
theorem Tree.path_length_pos {t : Tree} (h : 2 ≤ t.leafCount) {e : Nat × BitString} (he : e ∈ t.paths) :
    1 ≤ e.2.length := by
  refine List.length_pos_of_ne_nil fun hnil => ?_
  obtain ⟨x, hfollow, -⟩ := mem_paths.mp he
  rw [hnil, follow_nil] at hfollow
  cases hfollow
  simp [leafCount] at h

/-- Kraft's equality for a full binary tree: the paths below a node share what its own path takes (R238). -/
theorem Tree.sum_pow_pathsFrom {t : Tree} {p : BitString} {n : Nat} (h : p.length + t.height ≤ n) :
    ((t.pathsFrom p).map fun e => 2 ^ (n - e.2.length)).sum = 2 ^ (n - p.length) := by
  induction t generalizing p with
  | leaf => simp [pathsFrom]
  | node l r hl hr =>
    rw [height] at h
    have hchild (b : Bool) : (p ++ [b]).length = p.length + 1 := by simp
    rw [pathsFrom, List.map_append, List.sum_append, hl (by rw [hchild]; omega), hr (by rw [hchild]; omega),
      hchild, hchild, ← Nat.two_mul, ← Nat.pow_succ']
    congr 1
    omega

/-! ### The symbols of a tree are those of the leaf records -/

theorem Tree.symbols_node (l r : Tree) : (Tree.node l r).symbols = l.symbols ++ r.symbols := by
  simp only [symbols, paths, pathsFrom, List.map_append, fst_pathsFrom l _ [], fst_pathsFrom r _ []]

theorem mem_symbols_of_indicesAt {n : Nat} {s : State} {i : NodeIdx} {t : Tree} {m : List Nat}
    (hm : indicesAt n s i = some m) (ht : treeAt n s i = some t) {x : Nat} :
    x ∈ t.symbols ↔ ∃ j ∈ m, ∃ r, s.node[j]? = some r ∧ r.leaf = true ∧ r.sym.toNat = x := by
  induction n generalizing i t m with
  | zero => cases ht
  | succ n ih =>
    obtain ⟨r, -, hr, hrec⟩ := indicesAt_cases hm
    obtain ⟨r', -, hr', htree⟩ := treeAt_cases ht
    obtain rfl : r = r' := Option.some.inj (hr.symm.trans hr')
    cases hl : r.leaf with
    | true =>
      obtain rfl : m = [i.toNat] := by simpa [hl] using hrec
      obtain rfl : t = .leaf r.sym := by simpa [hl] using htree
      simp only [List.mem_singleton, exists_eq_left, hr, Option.some.injEq, exists_eq_left', hl, true_and]
      exact List.mem_singleton.trans eq_comm
    | false =>
      obtain ⟨ml, mu, hml, hmu, rfl⟩ : ∃ ml mu, indicesAt n s r.left = some ml ∧ indicesAt n s r.right = some mu ∧
        m = i.toNat :: (ml ++ mu) := by simpa [hl] using hrec
      obtain ⟨l, u, htl, htu, rfl⟩ : ∃ l u, treeAt n s r.left = some l ∧ treeAt n s r.right = some u ∧
        t = .node l u := by simpa [hl] using htree
      rw [Tree.symbols_node, List.mem_append, ih hml htl, ih hmu htu]
      simp [hr, hl, or_and_right, exists_or]

theorem mem_usedRecords {s : State} {r : Node} : r ∈ usedRecords s ↔ ∃ j < s.nodes.toNat, s.node[j]? = some r := by
  rw [usedRecords, List.mem_iff_getElem?]
  simp [List.getElem?_take]

/-- In a well-formed store every leaf record is a leaf of the tree held (R47 (c)). -/
theorem WellFormedTree.mem_symbols {s : State} {t : Tree} (h : WellFormedTree s) (ht : Machine.heldTree s = some t)
    {x : Nat} : x ∈ t.symbols ↔ ∃ r ∈ usedRecords s, r.leaf = true ∧ r.sym.toNat = x := by
  obtain ⟨m, hm, hperm⟩ := h.once
  have ht' : treeAt Config.nodeCap s s.root = some t :=
    treeAt_of_height ht ((treeAt_height_lt ht).trans (by decide))
  rw [mem_symbols_of_indicesAt hm ht']
  simp only [hperm.mem_iff, List.mem_range, mem_usedRecords]
  constructor
  · rintro ⟨j, hj, r, hr, hleaf⟩
    exact ⟨r, ⟨j, hj, hr⟩, hleaf⟩
  · rintro ⟨r, ⟨j, hj, hr⟩, hleaf⟩
    exact ⟨j, hj, r, hr, hleaf⟩

theorem lt_of_getD_ne_zero {freq : List Word} (hfreq : freq.length = 256) {x : Nat} (h : freq.getD x 0 ≠ 0) : x < 256 := by
  by_contra hx
  exact h (List.getD_eq_default _ _ (by omega))

/-- The leaves that BUILD writes have the counted symbols and PSEUDO_EOF (R171). -/
theorem exists_buildLeaves_sym {freq : List Word} (hfreq : freq.length = 256) {x : Nat} :
    (∃ r ∈ buildLeaves freq, r.sym.toNat = x) ↔ x = 256 ∨ freq.getD x 0 ≠ 0 := by
  simp only [buildLeaves, byteLeaves_eq_map, List.mem_append, List.mem_singleton, List.mem_map, List.mem_filter,
    List.mem_range, decide_eq_true_eq]
  constructor
  · rintro ⟨_, ⟨y, ⟨hy, hcount⟩, rfl⟩ | rfl, hx⟩
    · have hyx : y = x := by rw [← hx, leafNode, BitVec.toNat_ofNat]; omega
      exact .inr (hyx ▸ hcount)
    · exact .inl hx.symm
  · rintro (rfl | hcount)
    · exact ⟨_, .inr rfl, rfl⟩
    · have hx := lt_of_getD_ne_zero hfreq hcount
      exact ⟨_, .inl ⟨x, ⟨hx, hcount⟩, rfl⟩, by rw [leafNode, BitVec.toNat_ofNat]; omega⟩

theorem mem_symbols_of_build {s : State} {t : Tree} (hfreq : s.freq.length = 256)
    (ht : heldTree (buildEffect s) = some t) {x : Nat} : x ∈ t.symbols ↔ x = 256 ∨ s.freq.getD x 0 ≠ 0 := by
  rw [(wellFormedTree_buildEffect s).mem_symbols ht, usedRecords_buildEffect, ← exists_buildLeaves_sym hfreq]
  obtain ⟨rest, hsplit, hrest⟩ := buildTree_split s.freq
  constructor
  · rintro ⟨r, hr, hleaf, hx⟩
    rw [hsplit, List.mem_append] at hr
    exact ⟨r, hr.resolve_right fun h => by simp [(hrest r h).1] at hleaf, hx⟩
  · rintro ⟨r, hr, hx⟩
    exact ⟨r, hsplit ▸ List.mem_append_left rest hr, buildLeaves_leaf hr, hx⟩

/-! ### The statements -/

/-- Settles O39: GENTAB stops at the first such symbol with the table cleared. -/
theorem gentabRefusesSymbolsAbove256 : Obligations.GentabRefusesSymbolsAbove256 :=
  fun _ _ hv htr hgt => exec_gentab_symRange hv htr hgt

/-- Settles O40: valid codes are paths to leaves, and one such path is no front part of another. -/
theorem codesArePrefixFree : Obligations.CodesArePrefixFree := by
  intro s t tr hv htr _ hexec herr a ha b hb hab hva hvb hprefix
  obtain ⟨-, hcode⟩ := code_of_exec_gentab hv htr hexec herr
  rw [codeOf, codeOf] at hprefix
  rw [readCode_of_code_eq hcode ha] at hva hprefix
  rw [readCode_of_code_eq hcode hb] at hvb hprefix
  obtain ⟨p, hp, hpa⟩ := Tree.entry_eq_of_valid hva
  obtain ⟨q, hq, hqb⟩ := Tree.entry_eq_of_valid hvb
  rw [hpa, hqb, pathEntry_path p (heldTree_path_length_le htr hp), pathEntry_path q (heldTree_path_length_le htr hq)]
    at hprefix
  obtain ⟨x, hfp, rfl⟩ := Tree.mem_paths.mp hp
  obtain ⟨y, hfq, rfl⟩ := Tree.mem_paths.mp hq
  obtain ⟨-, hxy⟩ := Tree.paths_prefix_free hfp hfq hprefix
  exact hab (congrArg BitVec.toNat hxy)

/-- R238: the valid entries are as many as the leaves, none is empty, and they meet Kraft's equality. -/
theorem gentab_complete {s t : State} {tr : Tree} (hv : s.treeValid = true) (htr : heldTree s = some tr)
    (hn : tr.symbols.Nodup) (hcount : 2 ≤ tr.leafCount) (hexec : exec .gentab s = .next t) (herr : t.err = false) :
    t.code.countP (·.valid) = tr.leafCount ∧ (∀ e ∈ t.code, e.valid = true → 1 ≤ e.len.toNat) ∧
      ((t.code.filter (·.valid)).map fun e => 2 ^ (256 - e.len.toNat)).sum = 2 ^ 256 := by
  obtain ⟨hle, hcode⟩ := code_of_exec_gentab hv htr hexec herr
  have hperm := Tree.valid_entries_perm hn hle
  rw [← hcode] at hperm
  have hlen {e : Nat × BitString} (he : e ∈ tr.paths) : (pathEntry e.2).len.toNat = e.2.length :=
    pathEntry_len_toNat (heldTree_path_length_le htr he)
  refine ⟨?_, fun e he hve => ?_, ?_⟩
  · rw [List.countP_eq_length_filter, hperm.length_eq, List.length_map]
    exact tr.pathsFrom_length []
  · obtain ⟨f, hf, rfl⟩ := List.mem_map.mp (hperm.mem_iff.mp (List.mem_filter.mpr ⟨he, hve⟩))
    exact (Tree.path_length_pos hcount hf).trans_eq (hlen hf).symm
  · have hheight : tr.height < 257 := treeAt_height_lt htr
    calc ((t.code.filter (·.valid)).map fun e => 2 ^ (256 - e.len.toNat)).sum
        = (tr.paths.map fun e => 2 ^ (256 - (pathEntry e.2).len.toNat)).sum := by
          rw [(hperm.map _).sum_eq, List.map_map]; rfl
      _ = (tr.paths.map fun e => 2 ^ (256 - e.2.length)).sum := by
          rw [List.map_congr_left fun e he => by rw [hlen he]]
      _ = 2 ^ 256 := Tree.sum_pow_pathsFrom (p := []) (by rw [List.length_nil]; omega)

/-- R238: GENTAB after BUILD succeeds, with the entries of the counted symbols and of PSEUDO_EOF. -/
theorem gentab_after_build {s u : State} (hfreq : s.freq.length = 256) (hbuild : exec .build s = .next u) :
    ∃ t, exec .gentab u = .next t ∧ t.err = false ∧
      ∀ sym ≤ 256, (readCode sym t).valid = true ↔ sym = 256 ∨ s.freq.getD sym 0 ≠ 0 := by
  obtain rfl : buildEffect (succeeded s) = u := Host.Outcome.next.inj ((exec_build s).symm.trans hbuild)
  obtain ⟨tr, htr, -⟩ := (wellFormedTree_buildEffect (succeeded s)).heldTree
  have hsyms {x : Nat} : x ∈ tr.symbols ↔ x = 256 ∨ s.freq.getD x 0 ≠ 0 :=
    mem_symbols_of_build (s := succeeded s) hfreq htr
  have hle : ∀ x ∈ tr.symbols, x ≤ 256 := fun x hx =>
    (hsyms.mp hx).elim Nat.le_of_eq fun hcount => (lt_of_getD_ne_zero hfreq hcount).le
  refine ⟨_, exec_gentab rfl htr hle, rfl, fun sym hs => ?_⟩
  rw [readCode_of_code_eq rfl hs, Tree.entry_valid_iff, hsyms]

/-- Settles O41: the valid entries are those of the leaves' paths, and the leaves are those that FREQ gives. -/
theorem codesAreComplete : Obligations.CodesAreComplete :=
  ⟨fun _ _ _ hv htr hn hcount hexec herr => gentab_complete hv htr hn hcount hexec herr,
    fun _ _ hw hbuild => gentab_after_build hw.1 hbuild⟩

end Sys2Proof.Machine
end

section
/-! ENCALL's next state (spec/44_encoder.md): what its pseudocode leaves where it ends uncut with a value, and that it does
so where every byte and PSEUDO_EOF have codes and no call fails (R251 to R253). -/

namespace Sys2Proof.Machine

/-! ### Pieces of pseudocode that no reset cuts -/

/-- No reset cuts the piece, and where it ends with a value, `Q` holds of the value and of the state left. -/
def Flow.Ensures {α : Type} (Q : α → State → Prop) : Flow α → Prop
  | .ok a t => Q a t
  | .raised _ _ => True
  | .abandoned _ => False
  | .stuck _ => True

theorem ensures_bind {α β : Type} {Q : α → State → Prop} {R : β → State → Prop} {x : Flow α} {f : α → State → Flow β}
    (hx : x.Ensures Q) (hf : ∀ a t, Q a t → (f a t).Ensures R) : (x.bind f).Ensures R := by
  cases x with
  | ok a t => exact hf a t hx
  | raised e t => trivial
  | abandoned t => exact hx.elim
  | stuck r => trivial

theorem ensures_mono {α : Type} {Q R : α → State → Prop} {x : Flow α} (hx : x.Ensures Q) (h : ∀ a t, Q a t → R a t) :
    x.Ensures R := by
  cases x with
  | ok a t => exact h a t hx
  | raised e t => trivial
  | abandoned t => exact hx.elim
  | stuck r => trivial

/-- A command that ends with ERR = 0 and that no reset cuts has run its pseudocode to the end (R154, R303, R331). -/
theorem exists_done_of_ensures {Q : Unit → State → Prop} {body : State → Flow Unit} {s t : State}
    (h : runCommand body s = .next t) (herr : t.err = false) (hbody : (body (clearOutcome s)).Ensures Q) :
    ∃ u, Q () u ∧ t = done u := by
  obtain ⟨u, hu, rfl⟩ | ⟨e, u, -, rfl⟩ | ⟨u, hu, rfl⟩ := runCommand_cases h
  · rw [hu] at hbody
    exact ⟨u, hbody, rfl⟩
  · cases herr
  · rw [hu] at hbody
    exact hbody.elim

theorem noResetInside_afterCalls {s : State} (h : NoResetInside s) (k : Nat) : NoResetInside (afterCalls k s) :=
  fun ha => h (List.mem_of_mem_drop ha)

/-- What a read that gives no IOFAIL returns and leaves (R91). -/
theorem readBits_ensures {n : Nat} {s : State} (h : NoResetInside s) :
    (readBits n s).Ensures fun r t => r = .ioFail ∨
      (s.inp.bits.length < s.inp.pos + n ∧ r = .eos ∧ t = moveIn s.inp.bits.length (afterCalls 1 s)) ∨
      (s.inp.pos + n ≤ s.inp.bits.length ∧ r = .val (num ((remaining s).take n)) ∧
        t = moveIn (s.inp.pos + n) (afterCalls 1 s)) := by
  cases ha : nextAnswer s with
  | resetFirst => exact absurd ha (nextAnswer_of_noResetInside h)
  | fails k =>
    rw [readBits_fails ha]
    exact .inl rfl
  | succeeds =>
    by_cases hlt : s.inp.bits.length < s.inp.pos + n
    · rw [readBits_eos ha hlt]
      exact .inr (.inl ⟨hlt, rfl, rfl⟩)
    · rw [readBits_val ha (Nat.not_lt.mp hlt)]
      exact .inr (.inr ⟨Nat.not_lt.mp hlt, rfl, rfl⟩)

theorem emitBits_ensures {n v : Nat} {s : State} (h : NoResetInside s) :
    (emitBits n v s).Ensures fun _ t => ∃ k, t = appendOut (bitsOf n v) (afterCalls k s) := by
  cases ho : s.out.closed with
  | true =>
    rw [emitBits_closed ho]
    trivial
  | false =>
    cases ha : nextAnswer s with
    | resetFirst => exact absurd ha (nextAnswer_of_noResetInside h)
    | fails k =>
      rw [emitBits, writeBits_fails ha ho]
      trivial
    | succeeds =>
      rw [emitBits_ok ha ho]
      exact ⟨1, rfl⟩

/-! ### What ENCALL leaves where it succeeds -/

theorem codeOf_of_len_eq_zero {s : State} {sym : Nat} (h : (readCode sym s).len.toNat = 0) : codeOf s sym = [] := by
  rw [codeOf, CodeEntry.path, h, bitsOf]

/-- An emission that succeeds has appended the whole code (R250, R252). -/
theorem lookupAndEmit_ensures {sym : Nat} {s : State} (h : NoResetInside s) :
    (lookupAndEmit sym s).Ensures fun _ t => ∃ k, t = appendOut (codeOf s sym) (afterCalls k s) := by
  cases hv : (readCode sym s).valid with
  | false =>
    rw [lookupAndEmit_noCode hv]
    trivial
  | true =>
    rw [lookupAndEmit, if_pos hv, emitCode]
    split
    case isTrue => exact emitBits_ensures h
    case isFalse hl =>
      refine ⟨0, ?_⟩
      rw [codeOf_of_len_eq_zero (by omega), appendOut_nil, afterCalls_zero]

/-- The next 8 bits of IN, where they are a byte, and the bits after them (R97). -/
theorem remaining_byte {s : State} {b : BitVec 8} {rest : BitString} (h : remaining s = bitsOf 8 b.toNat ++ rest) :
    num ((remaining s).take 8) = b.toNat ∧ s.inp.bits.drop (s.inp.pos + 8) = rest := by
  have hlen : (bitsOf 8 b.toNat).length = 8 := bitsOf_length 8 b.toNat
  constructor
  · rw [h, List.take_left' hlen, num_bitsOf]
    exact Nat.mod_eq_of_lt b.isLt
  · rw [← List.drop_drop, ← remaining, h, List.drop_left' hlen]

/-- ENCALL's loop on whole bytes, where it ends with a value, has appended the bytes' codes in order (R251, R253). -/
theorem encLoop_ensures {n : Nat} {bs : List (BitVec 8)} {s : State} (hb : remaining s = bitsOfBytes bs)
    (h : NoResetInside s) :
    (encLoop n s).Ensures fun _ t => ∃ p k,
      t = moveIn p (appendOut (bs.flatMap fun b => codeOf s b.toNat) (afterCalls k s)) := by
  induction n generalizing bs s with
  | zero => trivial
  | succ n ih =>
    have hlen := remaining_length_eq hb
    rw [bitsOfBytes_length] at hlen
    refine ensures_bind (readBits_ensures h) ?_
    rintro _ _ (rfl | ⟨hshort, rfl, rfl⟩ | ⟨hlong, rfl, rfl⟩)
    · trivial
    · obtain rfl : bs = [] := List.length_eq_zero_iff.mp (by omega)
      exact ⟨s.inp.bits.length, 1, by rw [List.flatMap_nil, appendOut_nil]⟩
    · cases bs with
      | nil => rw [List.length_nil] at hlen; omega
      | cons b bs =>
        obtain ⟨hbyte, hrest⟩ := remaining_byte hb
        rw [hbyte]
        refine ensures_bind (lookupAndEmit_ensures (noResetInside_afterCalls h 1)) ?_
        rintro _ _ ⟨j, rfl⟩
        refine ensures_mono (ih hrest (noResetInside_afterCalls (noResetInside_afterCalls h 1) j)) ?_
        rintro _ _ ⟨p, k, rfl⟩
        refine ⟨p, 1 + j + k, ?_⟩
        rw [afterCalls_moveIn, appendOut_moveIn, afterCalls_moveIn, appendOut_moveIn, moveIn_moveIn, afterCalls_afterCalls,
          appendOut_afterCalls, List.flatMap_cons]
        rfl

/-- ENCALL's pseudocode on whole bytes: PSEUDO_EOF's code follows the codes of the bytes (R251, R253). -/
theorem encallBody_ensures {bs : List (BitVec 8)} {s : State} (hb : remaining s = bitsOfBytes bs)
    (h : NoResetInside s) :
    (encallBody s).Ensures fun _ t =>
      t.out.bits = s.out.bits ++ (bs.flatMap fun b => codeOf s b.toNat) ++ codeOf s 256 := by
  unfold encallBody
  split
  case isTrue =>
    refine ensures_bind (encLoop_ensures hb h) ?_
    rintro _ _ ⟨p, j, rfl⟩
    refine ensures_mono (lookupAndEmit_ensures (noResetInside_afterCalls h j)) ?_
    rintro _ _ ⟨k, rfl⟩
    rfl
  case isFalse => trivial

theorem exec_encall_out {s t : State} {bs : List (BitVec 8)} (hb : remaining s = bitsOfBytes bs) (h : NoResetInside s)
    (hexec : exec .encall s = .next t) (herr : t.err = false) :
    t.out.bits = s.out.bits ++ (bs.flatMap fun b => codeOf s b.toNat) ++ codeOf s 256 := by
  obtain ⟨u, hu, rfl⟩ := exists_done_of_ensures hexec herr (encallBody_ensures (s := clearOutcome s) hb h)
  exact hu

/-! ### Where ENCALL succeeds -/

/-- ENCALL's pseudocode where every byte and PSEUDO_EOF have codes and no call fails: a tail of fewer than 8 bits is consumed
and not encoded (R251, R253), and on a closed OUT there is to be nothing to write (R252). -/
theorem encallBody_run {bs : List (BitVec 8)} {tail : BitString} {s : State} (htable : s.tableValid = true)
    (hb : remaining s = bitsOfBytes bs ++ tail) (ht : tail.length < 8)
    (hv : ∀ b ∈ bs, (readCode b.toNat s).valid = true) (heof : (readCode 256 s).valid = true) (hp : PortsSucceed s)
    (ho : s.out.closed = false ∨ (bs = [] ∧ (readCode 256 s).len = 0)) :
    ∃ k, encallBody s = .ok () (moveIn s.inp.bits.length
      (appendOut ((bs.flatMap fun b => codeOf s b.toNat) ++ codeOf s 256) (afterCalls k s))) := by
  have hreads : bs.length < encReads s := by
    have hlen := remaining_length_eq hb
    rw [List.length_append, bitsOfBytes_length] at hlen
    rw [encReads]
    omega
  have hbytes : s.out.closed = false ∨ ∀ b ∈ bs, (readCode b.toNat s).len = 0 :=
    ho.imp_right fun ⟨hnil, _⟩ b hb => absurd (hnil ▸ hb) List.not_mem_nil
  obtain ⟨j, hloop⟩ := encLoop_run hb ht hv hp hbytes hreads
  -- the code of PSEUDO_EOF, in the state that the loop leaves
  have hemit := lookupAndEmit_run (sym := 256)
    (s := moveIn s.inp.bits.length (appendOut (bs.flatMap fun b => codeOf s b.toNat) (afterCalls j s)))
    heof (portsSucceed_afterCalls hp j) (ho.imp_right And.right)
  refine ⟨j + emitCalls 256 s, ?_⟩
  rw [encallBody, if_pos htable, hloop, bind_ok, Config.pseudoEof, hemit, ← appendOut_afterCalls]
  rfl

/-- Settles O43: what ENCALL leaves where it succeeds, and that it succeeds on bytes that have codes. -/
theorem encallEncodesTheInput : Obligations.EncallEncodesTheInput := by
  refine ⟨fun _ _ _ _ => exec_encall_out, ?_⟩
  intro s bs tail htable _ hb ht hv heof hp ho
  obtain ⟨k, hk⟩ := encallBody_run (s := clearOutcome s) htable hb ht hv heof hp ho
  refine ⟨k, ?_⟩
  rw [List.append_assoc]
  exact runCommand_ok hk

end Sys2Proof.Machine
end

section
/-! DECODE's next state (spec/45_decoder.md) where the root is a leaf (R271), and where IN ends before PSEUDO_EOF, at
the start of a code or inside one (R274). -/

namespace Sys2Proof.Machine

/-! ### What DECODE does at the root -/

theorem readNode_of_treeAt_leaf {n : Nat} {s : State} {i : NodeIdx} {x : Sym} (h : treeAt n s i = some (.leaf x)) :
    ∃ r, readNode i s = .ok r s ∧ r.leaf = true ∧ r.sym = x := by
  cases n with
  | zero => cases h
  | succ n =>
    obtain ⟨r, hi, hr, ⟨hl, hx⟩ | ⟨-, l, u, -, -, hx⟩⟩ := treeAt_cases h
    · cases hx
      exact ⟨r, readNode_eq_ok.mpr ⟨hi, hr, rfl⟩, hl, rfl⟩
    · cases hx

theorem heldTree_clearOutcome {s : State} {tr : Tree} (htr : heldTree s = some tr) :
    heldTree (clearOutcome s) = some tr :=
  (treeAt_congr (s := s) (t := clearOutcome s) rfl rfl Config.treeDepth s.root).trans htr

/-- A root that is a leaf is decided before any read (R271). -/
theorem decodeBody_of_leaf {s : State} {x : Sym} (hv : s.treeValid = true) (htr : heldTree s = some (.leaf x)) :
    decodeBody s = if x.toNat = Config.pseudoEof then .ok () (moveCur s.root s)
      else .raised .rootLeaf (moveCur s.root s) := by
  obtain ⟨r, hr, hleaf, rfl⟩ := readNode_of_treeAt_leaf (s := moveCur s.root s) ((treeAt_moveCur ..).trans htr)
  simp only [decodeBody, if_pos hv, moveCur_root, hr, bind_ok, if_pos hleaf]

/-- A root that is no leaf starts the walk (R272). -/
theorem decodeBody_of_node {s : State} {l u : Tree} (hv : s.treeValid = true)
    (htr : heldTree s = some (.node l u)) : decodeBody s = decodeLoop (decodeReads s) (moveCur s.root s) := by
  obtain ⟨r, hr, hleaf⟩ := readNode_of_treeAt (s := moveCur s.root s) ((treeAt_moveCur ..).trans htr)
  simp only [decodeBody, if_pos hv, moveCur_root, hr, bind_ok, hleaf, Tree.isLeaf, if_neg Bool.false_ne_true,
    decodeReads, moveCur_inp]

/-! ### Paths of the tree held -/

/-- Paths of a tree, with their symbols as the leaf records hold them. -/
theorem Tree.exists_syms_of_paths {t : Tree} {es : List (Nat × BitString)} (h : ∀ e ∈ es, e ∈ t.paths) :
    ∃ fs : List (Sym × BitString), fs.map (Prod.map BitVec.toNat id) = es ∧
      ∀ f ∈ fs, t.follow f.2 = some (.leaf f.1) := by
  induction es with
  | nil => exact ⟨[], rfl, by simp⟩
  | cons e es ih =>
    obtain ⟨he, hes⟩ := List.forall_mem_cons.mp h
    obtain ⟨x, hx, hsym⟩ := mem_paths.mp he
    obtain ⟨fs, rfl, hfs⟩ := ih hes
    exact ⟨(x, e.2) :: fs, by simp [hsym], List.forall_mem_cons.mpr ⟨hx, hfs⟩⟩

/-- A proper front part of a path leads to an internal node. -/
theorem Tree.follow_of_proper_prefix {t : Tree} {e : Nat × BitString} {q : BitString} (he : e ∈ t.paths)
    (hq : q <+: e.2) (hne : q ≠ e.2) : ∃ v, t.follow q = some v ∧ v.isLeaf = false := by
  obtain ⟨x, hx, -⟩ := mem_paths.mp he
  obtain ⟨p, hp⟩ := hq
  rw [← hp, follow_append] at hx
  obtain ⟨v, hv, hvp⟩ := Option.bind_eq_some_iff.mp hx
  refine ⟨v, hv, ?_⟩
  cases v with
  | node l r => rfl
  | leaf y =>
    cases p with
    | nil => exact absurd (by simpa using hp) hne
    | cons b p => cases hvp

/-! ### Where IN ends before PSEUDO_EOF -/

/-- The walk over whole paths of symbols other than PSEUDO_EOF (R273); OUT may be closed where there is none. -/
theorem decodeLoop_paths {m n : Nat} {s : State} {l u : Tree} {es : List (Nat × BitString)} {rest : BitString}
    (hroot : treeAt m s s.root = some (.node l u)) (hcur : s.cur = s.root)
    (hes : ∀ e ∈ es, e ∈ (Tree.node l u).paths ∧ e.1 ≠ 256) (hb : remaining s = es.flatMap Prod.snd ++ rest)
    (hp : PortsSucceed s) (ho : s.out.closed = false ∨ es = []) :
    ∃ k, decodeLoop (n + (es.flatMap Prod.snd).length) s =
      decodeLoop n (moveIn (s.inp.pos + (es.flatMap Prod.snd).length)
        (appendOut (es.flatMap fun e => bitsOf 8 (e.1 % 256)) (afterCalls k s))) := by
  obtain ho | rfl := ho
  · obtain ⟨fs, rfl, hfs⟩ := Tree.exists_syms_of_paths fun e he => (hes e he).1
    simp only [List.flatMap_map] at hb ⊢
    refine decodeLoop_symbols fs hroot hcur (fun f hf => ⟨hfs f hf, ?_⟩) hb hp ho
    exact (hes _ (List.mem_map_of_mem hf)).2
  · exact ⟨0, by simp [moveIn]⟩

/-- The walk from ROOT over whole paths and into a front part of one, where IN ends (R274). -/
theorem decodeLoop_paths_exhausted {m : Nat} {s : State} {l u v : Tree} {es : List (Nat × BitString)} {q : BitString}
    (hroot : treeAt m s s.root = some (.node l u)) (hcur : s.cur = s.root)
    (hes : ∀ f ∈ es, f ∈ (Tree.node l u).paths ∧ f.1 ≠ 256) (hfollow : (Tree.node l u).follow q = some v)
    (hinner : v.isLeaf = false) (hpos : s.inp.pos ≤ s.inp.bits.length)
    (hb : remaining s = es.flatMap Prod.snd ++ q) (hp : PortsSucceed s) (ho : s.out.closed = false ∨ es = []) :
    ∃ k c, decodeLoop (decodeReads s) s = .raised .eosBody (moveCur c (moveIn s.inp.bits.length
      (appendOut (es.flatMap fun f => bitsOf 8 (f.1 % 256)) (afterCalls k s)))) := by
  have hlen := remaining_length_eq hb
  rw [List.length_append] at hlen
  have hreads : decodeReads s = 0 + q.length + 1 + (es.flatMap Prod.snd).length := by
    rw [decodeReads, hlen]
    omega
  obtain ⟨j, hpaths⟩ := decodeLoop_paths (n := 0 + q.length + 1) hroot hcur hes hb hp ho
  -- the state after the whole paths, where CUR is at ROOT
  generalize hw : moveIn (s.inp.pos + (es.flatMap Prod.snd).length)
    (appendOut (es.flatMap fun f => bitsOf 8 (f.1 % 256)) (afterCalls j s)) = w at hpaths
  have hwinp : w.inp = { s.inp with pos := s.inp.pos + (es.flatMap Prod.snd).length } := by rw [← hw]; rfl
  have hwtree : treeAt m w w.cur = some (.node l u) := by
    rw [← hw, treeAt_moveIn, treeAt_appendOut, treeAt_afterCalls]
    exact hcur ▸ hroot
  have hwrem : remaining w = q := by rw [remaining_moveIn _ s w hwinp, hb, List.drop_left]
  have hwpos : w.inp.pos ≤ w.inp.bits.length := by
    rw [hwinp]
    exact Nat.add_le_of_le_sub' hpos (hlen ▸ Nat.le_add_right _ _)
  obtain ⟨c, k, hend⟩ := decodeLoop_exhausted (n := 0) hwtree hfollow hinner hwrem hwpos
    (hw ▸ portsSucceed_afterCalls hp j)
  refine ⟨j + k, c, ?_⟩
  rw [hreads, hpaths, hend, hwinp, ← hw, ← afterCalls_afterCalls]
  rfl

/-- DECODE's pseudocode where IN holds whole paths and then a front part of one (R274). -/
theorem decodeBody_exhausted {s : State} {tr v : Tree} {es : List (Nat × BitString)} {q : BitString}
    (hv : s.treeValid = true) (htr : heldTree s = some tr) (hinner : tr.isLeaf = false)
    (hes : ∀ f ∈ es, f ∈ tr.paths ∧ f.1 ≠ 256) (hfollow : tr.follow q = some v) (hvinner : v.isLeaf = false)
    (hpos : s.inp.pos ≤ s.inp.bits.length) (hb : remaining s = es.flatMap Prod.snd ++ q) (hp : PortsSucceed s)
    (ho : s.out.closed = false ∨ es = []) :
    ∃ k c, decodeBody s = .raised .eosBody (moveCur c (moveIn s.inp.bits.length
      (appendOut (es.flatMap fun f => bitsOf 8 (f.1 % 256)) (afterCalls k s)))) := by
  cases tr with
  | leaf x => cases hinner
  | node l u =>
    rw [decodeBody_of_node hv htr]
    exact decodeLoop_paths_exhausted (s := moveCur s.root s) ((treeAt_moveCur ..).trans htr) rfl hes hfollow hvinner
      hpos hb hp ho

/-! ### The statements -/

/-- Settles O46: the root's symbol alone decides. -/
theorem decodeOfALeafRoot : Obligations.DecodeOfALeafRoot := by
  intro s x hv htr
  have hbody := decodeBody_of_leaf (s := clearOutcome s) hv (heldTree_clearOutcome htr)
  exact ⟨fun heof => runCommand_ok (hbody.trans (if_pos heof)),
    fun hother => (runCommand_raised (hbody.trans (if_neg hother))).trans rfl⟩

/-- Settles O47: after the whole paths CUR is at ROOT, and the front part of a path leads to an internal node, where the
next read returns EOS. -/
theorem decodeMeetsTheEnd : Obligations.DecodeMeetsTheEnd := by
  intro s tr es q e hv htr hinner hes he hq hne hpos hb hp ho
  obtain ⟨v, hfollow, hvinner⟩ := Tree.follow_of_proper_prefix he hq hne
  obtain ⟨k, c, hk⟩ := decodeBody_exhausted (s := clearOutcome s) hv (heldTree_clearOutcome htr) hinner hes hfollow
    hvinner hpos hb hp ho
  exact ⟨k, c, (runCommand_raised hk).trans rfl⟩

end Sys2Proof.Machine
end

section
/-! The error codes and their classes (spec/60_exceptions.md, R300, R302). -/

namespace Sys2Proof.Machine

/-- Settles O10: the two tables of R300, one for the numbers and one for the classes, compared code by code. -/
theorem formatErrorsAreOneToFive : Obligations.FormatErrorsAreOneToFive := by
  intro e
  cases e <;> decide

end Sys2Proof.Machine
end

section
/-! The command words (R121 to R125): every word is its three fields put together, so the encoder undoes the decoder. -/

namespace Sys2Proof.Machine

/-- A word is RSVD, SYM and OPCODE put together from the most significant end (R121). -/
theorem word_eq_fields (w : Word) :
    (BitVec.ofNat 15 (rsvdField w) ++ BitVec.ofNat 9 (symField w)) ++ BitVec.ofNat 8 (opcodeField w) = w := by
  simp only [rsvdField, symField, opcodeField, BitVec.ofNat_toNat, BitVec.setWidth_eq]
  rw [BitVec.extractLsb'_append_extractLsb'_eq_extractLsb' (by rfl), BitVec.extractLsb'_append_extractLsb'_eq_extractLsb' (by rfl)]
  exact BitVec.extractLsb'_eq_self

theorem symField_lt (w : Word) : symField w < 512 := (w.extractLsb' 8 9).isLt

/-- A command whose SYM is inside its 9-bit field is well formed (R122). -/
theorem wellFormed_of_symOf_lt {i : Instr} (h : symOf i < 512) : i.wellFormed = true := by
  cases i with
  | enc sym => exact decide_eq_true h
  | _ => rfl

theorem decode_encode {i : Instr} (h : i.wellFormed = true) : decode (encode i) = some i := by
  cases i with
  | nop => exact Laws.Words.nop h
  | clear => exact Laws.Words.clear h
  | build => exact Laws.Words.build h
  | ser => exact Laws.Words.ser h
  | des => exact Laws.Words.des h
  | gentab => exact Laws.Words.gentab h
  | enc sym => exact Laws.Words.enc sym h
  | encall => exact Laws.Words.encall h
  | decode => exact Laws.Words.decode h
  | wmagic => exact Laws.Words.wmagic h
  | rmagic => exact Laws.Words.rmagic h
  | rewind => exact Laws.Words.rewind h
  | close => exact Laws.Words.close h

/-- Settles O1: one fact for each command one way; the other way the word's fields are those of the command it selects. -/
theorem commandWordsRoundTrip : Obligations.CommandWordsRoundTrip := by
  refine ⟨fun i => decode_encode, fun w i h => ?_⟩
  obtain ⟨⟨hrsvd, hsym⟩, hi⟩ := decode_eq_some_iff.mp h
  obtain ⟨hop, hs⟩ := (instrOf_eq_some_iff hsym).mp hi
  refine ⟨wellFormed_of_symOf_lt (hs ▸ symField_lt w), ?_⟩
  calc encode i = (BitVec.ofNat 15 (rsvdField w) ++ BitVec.ofNat 9 (symField w)) ++ BitVec.ofNat 8 (opcodeField w) := by
        rw [encode, hop, hs, hrsvd]
    _ = w := word_eq_fields w

/-- Settles O3: the words are closed terms, which the decoder is run on. -/
theorem sampleWordsDecode : Obligations.SampleWordsDecode := by
  unfold Obligations.SampleWordsDecode
  decide

end Sys2Proof.Machine
end

section
/-! The host register space: CMD and FREQ, and every register by name, while BUSY = 0 and while BUSY = 1 (R34 to R44, R84 to R86),
and after a reset (R33). -/

namespace Sys2Proof.Machine

/-! ### The registers that a write can reach -/

theorem regAt_freq {off : Offset} {i : Nat} (hi : i < 256) (h : off.toNat = 0x0400 + 4 * i) : regAt off = .freq i := by
  simp (disch := omega) only [regAt, h, if_pos, if_neg]
  congr 1
  omega

theorem eq_zero_of_regAt_cmd {off : Offset} (h : regAt off = .cmd) : off = 0x0000 := by
  by_contra hne
  have hne' : ¬ off.toNat = 0x0000 := fun h0 => hne (BitVec.eq_of_toNat_eq h0)
  simp only [regAt, if_neg hne'] at h
  repeat' split at h
  all_goals cases h

theorem eq_of_regAt_magic {off : Offset} (h : regAt off = .magic) : off = 0x0014 := by
  by_contra hne
  have hne' : ¬ off.toNat = 0x0014 := fun h0 => hne (BitVec.eq_of_toNat_eq h0)
  simp only [regAt, if_neg hne'] at h
  repeat' split at h
  all_goals cases h

theorem toNat_of_regAt_freq {off : Offset} {i : Nat} (h : regAt off = .freq i) : i < 256 ∧ off.toNat = 0x0400 + 4 * i := by
  have haligned : off.toNat % 4 = 0 := by
    by_contra hmis
    rw [regAt_misaligned hmis] at h
    cases h
  by_cases hwindow : 0x0400 ≤ off.toNat ∧ off.toNat ≤ 0x07FC
  · have hreg := regAt_freq (off := off) (i := (off.toNat - 0x0400) / 4) (by omega) (by omega)
    injection hreg.symm.trans h with hi
    omega
  · simp only [regAt, if_neg hwindow] at h
    repeat' split at h
    all_goals cases h

theorem memWrite_of_freq {off : Offset} {i : Nat} (h : regAt off = .freq i) (v : Word) (s : State) :
    memWrite off v s = if s.busy then setDrop s else writeFreq i v s := by
  rw [memWrite, h]

/-- An offset that is neither CMD's nor FREQ's ignores a write, whatever BUSY is (R85, R86 (b)). -/
theorem memWrite_of_other {off : Offset} (hcmd : off ≠ 0x0000) (hfreq : ∀ i < 256, off.toNat ≠ 0x0400 + 4 * i) (v : Word)
    (s : State) : memWrite off v s = s :=
  memWrite_eq_self (fun h => hcmd (eq_zero_of_regAt_cmd h))
    (fun i h => let ⟨hi, hoff⟩ := toNat_of_regAt_freq h; hfreq i hi hoff) s v

/-- Settles O12: the offset decides the register, and only two of the registers take a write. -/
theorem idleWritesReachCmdAndFreq : Obligations.IdleWritesReachCmdAndFreq := by
  intro s off v hb
  refine ⟨?_, fun i hi hoff => ?_, fun hcmd hfreq => memWrite_of_other hcmd hfreq v s⟩
  · rintro rfl
    exact memWrite_cmd_of_idle hb v
  · rw [memWrite_of_freq (regAt_freq hi hoff)]
    exact if_neg (by simp [hb])

/-! ### FREQ -/

theorem memRead_freq_of_idle {s : State} {off : Offset} {i : Nat} (hb : s.busy = false) (hi : i < 256)
    (h : off.toNat = 0x0400 + 4 * i) : memRead off s = readFreq i s := by
  rw [memRead_of_idle off hb, regAt_freq hi h, idleRead]

theorem readFreq_writeFreq_same {s : State} {i : Nat} (hi : i < s.freq.length) (v : Word) :
    readFreq i (writeFreq i v s) = v := by
  simp [readFreq, writeFreq, hi]

theorem readFreq_writeFreq_of_ne {i j : Nat} (h : j ≠ i) (v : Word) (s : State) :
    readFreq j (writeFreq i v s) = readFreq j s := by
  simp [readFreq, writeFreq, List.getElem?_set_ne h.symm]

/-- Settles O18: the write is one entry's, which the two reads look at. -/
theorem freqReadsBack : Obligations.FreqReadsBack := by
  intro s i off v hb hlen hi hoff
  have hwrite : memWrite off v s = writeFreq i v s := by
    rw [memWrite_of_freq (regAt_freq hi hoff), hb, if_neg Bool.false_ne_true]
  rw [hwrite]
  constructor
  · rw [memRead_freq_of_idle (s := writeFreq i v s) hb hi hoff, readFreq_writeFreq_same (hlen ▸ hi)]
  · intro j off' hj hne hoff'
    rw [memRead_freq_of_idle (s := writeFreq i v s) hb hj hoff', memRead_freq_of_idle hb hj hoff',
      readFreq_writeFreq_of_ne hne]

/-! ### The words of the registers -/

theorem bit_getLsbD_zero (b : Bool) : (bit b).getLsbD 0 = b := by cases b <;> rfl

/-- The fields of the STATUS word (R35). -/
theorem statusWord_fields (s : State) :
    (statusWord s).getLsbD 0 = s.busy ∧ (statusWord s).getLsbD 1 = s.err ∧ (statusWord s).getLsbD 2 = s.treeValid ∧
      (statusWord s).getLsbD 3 = s.tableValid ∧ (statusWord s).extractLsb' 4 4 = s.errcode ∧
      (statusWord s).getLsbD 8 = s.drop ∧ (statusWord s).extractLsb' 9 23 = 0 := by
  unfold statusWord
  refine ⟨?_, ?_, ?_, ?_, ?_, ?_, ?_⟩
  case refine_5 =>
    rw [BitVec.extractLsb'_append_eq_of_le (by decide), BitVec.extractLsb'_append_eq_of_le (by decide),
      BitVec.extractLsb'_append_eq_of_le (by decide), BitVec.extractLsb'_append_eq_of_le (by decide)]
    exact BitVec.extractLsb'_append_eq_right
  case refine_7 =>
    rw [BitVec.extractLsb'_append_eq_of_le (by decide), BitVec.extractLsb'_append_eq_of_le (by decide),
      BitVec.extractLsb'_append_eq_of_le (by decide), BitVec.extractLsb'_append_eq_of_le (by decide),
      BitVec.extractLsb'_append_eq_of_le (by decide)]
    exact BitVec.extractLsb'_append_eq_left
  all_goals
    simp only [BitVec.getLsbD_append, bit_getLsbD_zero, Nat.reduceLT, Nat.reduceSub, if_true, if_false]

/-- The fields of the word that STATUS reads while BUSY = 1 (R86 (c)). -/
theorem busyStatusWord_fields (s : State) (d : Word) :
    (busyStatusWord s d).getLsbD 0 = true ∧ (busyStatusWord s d).getLsbD 8 = s.drop ∧
      (busyStatusWord s d).extractLsb' 1 7 = d.extractLsb' 1 7 ∧
      (busyStatusWord s d).extractLsb' 9 23 = d.extractLsb' 9 23 := by
  unfold busyStatusWord
  refine ⟨?_, ?_, ?_, ?_⟩
  · rw [BitVec.getLsbD_append, if_pos (by decide)]
    rfl
  · simp only [BitVec.getLsbD_append, bit_getLsbD_zero, Nat.reduceLT, Nat.reduceSub, if_true, if_false]
  · rw [BitVec.extractLsb'_append_eq_of_le (by decide)]
    exact BitVec.extractLsb'_append_eq_right
  · rw [BitVec.extractLsb'_append_eq_of_le (by decide), BitVec.extractLsb'_append_eq_of_le (by decide)]
    exact BitVec.extractLsb'_append_eq_left

theorem word10_fields (v : BitVec 10) : (word10 v).extractLsb' 0 10 = v ∧ (word10 v).extractLsb' 10 22 = 0 := by
  have hv := v.isLt
  constructor <;> apply BitVec.eq_of_toNat_eq
  · simp only [word10, BitVec.extractLsb'_toNat, BitVec.toNat_setWidth, Nat.shiftRight_zero]
    omega
  · simp only [word10, BitVec.extractLsb'_toNat, BitVec.toNat_setWidth, Nat.shiftRight_eq_div_pow]
    simp
    omega

theorem magic_ne_zero : Config.magic ≠ 0 := by
  intro h
  have hlt := Config.magicIndex.isLt
  have h0 : (Config.magicIndex.val + 1) % 2 ^ 32 = 0 := congrArg BitVec.toNat h
  omega

/-- Settles O15: each offset names its register, whose word's fields are as R35 and R41 to R44 give them. -/
theorem registersRead : Obligations.RegistersRead := by
  intro s hb
  have hread (off : Offset) : memRead off s = idleRead (regAt off) s := memRead_of_idle off hb
  obtain ⟨hbusy, herr, htree, htable, hcode, hdrop, hzero⟩ := statusWord_fields s
  have hstatus : memRead 0x0004 s = statusWord s := hread 0x0004
  have hroot : memRead 0x0008 s = word10 s.root := hread 0x0008
  have hnodes : memRead 0x000C s = word10 s.nodes := hread 0x000C
  have hleaves : memRead 0x0010 s = word10 s.leaves := hread 0x0010
  rw [hstatus, hroot, hnodes, hleaves]
  exact ⟨hbusy.trans hb, herr, htree, htable, hcode, hdrop, hzero, (word10_fields _).1, (word10_fields _).2,
    (word10_fields _).1, (word10_fields _).2, (word10_fields _).1, (word10_fields _).2, hread 0x0014, magic_ne_zero,
    hread 0x0000⟩

/-! ### Accesses while BUSY = 1 -/

theorem memRead_of_busy (off : Offset) {s : State} (hb : s.busy = true) :
    memRead off s = busyRead (regAt off) (Config.busyRead s.draws) s := by
  rw [memRead, if_pos hb]

theorem hostRead_draws_of_busy {off : Offset} {s : State} (hb : s.busy = true) (h : drawnWhileBusy (regAt off) = true) :
    (hostRead off s).draws = s.draws + 1 := by
  simp [hostRead, hb, h]

/-- A read that is a draw returns all of it, but for STATUS (R86 (d)). -/
theorem busyRead_of_drawn {r : Reg} (h : drawnWhileBusy r = true) (hs : r ≠ .status) (d : Word) (s : State) :
    busyRead r d s = d := by
  cases r with
  | status => exact absurd rfl hs
  | cmd => cases h
  | magic => cases h
  | unmapped => cases h
  | _ => rfl

theorem memRead_drawn {off : Offset} {s : State} (hb : s.busy = true) (h : drawnWhileBusy (regAt off) = true)
    (hs : regAt off ≠ .status) :
    memRead off s = Config.busyRead s.draws ∧ (hostRead off s).draws = s.draws + 1 := by
  rw [memRead_of_busy off hb, busyRead_of_drawn h hs]
  exact ⟨rfl, hostRead_draws_of_busy hb h⟩

/-- Settles O13: writes by the register they reach, reads by the register's place in the table of R86. -/
theorem busyAccesses : Obligations.BusyAccesses := by
  intro s off v hb
  obtain ⟨hbusy, hdrop, hlow, hhigh⟩ := busyStatusWord_fields s (Config.busyRead s.draws)
  have hstatus : memRead 0x0004 s = busyStatusWord s (Config.busyRead s.draws) := memRead_of_busy 0x0004 hb
  rw [hstatus]
  refine ⟨?_, fun hcmd hfreq => memWrite_of_other hcmd hfreq v s, hbusy, hdrop, hlow, hhigh, hostRead_draws_of_busy hb rfl,
    ?_, memRead_of_busy 0x0014 hb, memRead_of_busy 0x0000 hb⟩
  · rintro (rfl | ⟨i, hi, hoff⟩)
    · exact memWrite_cmd_of_busy hb v
    · rw [memWrite_of_freq (regAt_freq hi hoff), if_pos hb, setDrop]
  · have drawn (r : Reg) (hreg : regAt off = r) (hd : drawnWhileBusy r = true) (hs : r ≠ .status) :
        memRead off s = Config.busyRead s.draws ∧ (hostRead off s).draws = s.draws + 1 :=
      memRead_drawn hb (hreg ▸ hd) (hreg ▸ hs)
    rintro (rfl | rfl | rfl | ⟨i, hi, hoff⟩ | ⟨sym, hsym, hoff⟩ | ⟨sym, hsym, w, hw, hoff⟩ | ⟨i, hi, k, hk, hoff⟩)
    · exact drawn .root rfl rfl (by simp)
    · exact drawn .nodes rfl rfl (by simp)
    · exact drawn .leaves rfl rfl (by simp)
    · exact drawn _ (regAt_freq hi hoff) rfl (by simp)
    · exact drawn _ (regAt_codeLen hsym hoff) rfl (by simp)
    · exact drawn _ (regAt_codeBits hsym hw hoff) rfl (by simp)
    · exact drawn _ (regAt_nodeWord hi hk hoff) rfl (by simp)

/-! ### Reads after a reset -/

theorem codeBitsWord_empty (w : Nat) : codeBitsWord CodeEntry.empty w = 0 := by
  simp [codeBitsWord, CodeEntry.empty]

/-- Every register but MAGIC reads 0 in the state that a reset leaves (R33, R330). -/
theorem idleRead_coreReset {r : Reg} (h : r ≠ .magic) (s : State) : idleRead r (coreReset s) = 0 := by
  have hcode (i : Nat) : readCode i (coreReset s) = CodeEntry.empty := by
    exact List.getElem?_getD_replicate_default_eq CodeEntry.empty 257 i
  cases r with
  | magic => exact absurd rfl h
  | status => exact (by decide : statusWord State.reset = 0)
  | freq i => exact List.getElem?_getD_replicate_default_eq 0 256 i
  | codeLen i => rw [idleRead, hcode]; rfl
  | codeBits i w => rw [idleRead, hcode, codeBitsWord_empty]
  | nodeWord i k => exact nodeWordAt_of_nodes_le (Nat.zero_le i) k
  | _ => rfl

theorem memRead_coreReset (off : Offset) (s : State) :
    memRead off (coreReset s) = if off = 0x0014 then Config.magic else 0 := by
  rw [memRead_of_idle off rfl]
  split
  case isTrue h => rw [h]; rfl
  case isFalse h => exact idleRead_coreReset (fun hreg => h (eq_of_regAt_magic hreg)) s

/-- Settles O21: only MAGIC's word is not given by the state, and the model's first state is that of a reset of itself. -/
theorem everyWordReadsZeroAfterReset : Obligations.EveryWordReadsZeroAfterReset :=
  fun s off => ⟨memRead_coreReset off s, memRead_coreReset off State.reset⟩

end Sys2Proof.Machine
end

section
/-! The agents' moves that run no pseudocode, and the commands that are one operation: a placed word, an idle core, the reset
input, the host's stream actions and tests, CLEAR, REWIND and CLOSE. -/

namespace Sys2Proof.Machine

/-! ### Whose move it is -/

/-- Settles O5: the placed word is pending, and the turn put in front is the core's. -/
theorem placedWordRunsNext : Obligations.PlacedWordRunsNext := by
  intro s nbits w i h
  have hcore : CoreToMove (s.withFetchWord nbits w) := ⟨rfl, .inr rfl⟩
  rw [step_of_pending hcore rfl, runWord_of_decode_some h]
  rfl

theorem exists_turns_of_head? {s : State} {a : Turn} (h : s.turns.head? = some a) : ∃ as, s.turns = a :: as := by
  cases hts : s.turns with
  | nil => simp [hts] at h
  | cons b bs => exact ⟨bs, by simpa [hts] using h⟩

/-- Settles O6: an idle core's move is none. -/
theorem idleCoreHasNoStep : Obligations.IdleCoreHasNoStep := by
  intro s hb ht
  obtain ⟨as, hts⟩ := exists_turns_of_head? ht
  simp [step, hts, coreMove, hb, passTurn]

theorem step_of_reset {s : State} (h : s.turns.head? = some .reset) : step s = .next (coreReset (passTurn s)) := by
  obtain ⟨as, hts⟩ := exists_turns_of_head? h
  simp [step, hts, passTurn]

/-- Settles O20: the step is a reset of the state with the turn used up. -/
theorem resetClearsTheBlock : Obligations.ResetClearsTheBlock := by
  intro s ht
  have hstatus : statusWord (coreReset (passTurn s)) = 0 := idleRead_coreReset (r := .status) (by simp) (passTurn s)
  exact ⟨coreReset (passTurn s), step_of_reset ht, rfl, rfl, rfl, rfl, rfl, rfl, hstatus, rfl, rfl, rfl, rfl, rfl, rfl, rfl,
    rfl, rfl, rfl, rfl, rfl⟩

/-! ### The host's lines -/

theorem memWrite_ports (off : Offset) (v : Word) (s : State) :
    (memWrite off v s).inp = s.inp ∧ (memWrite off v s).out = s.out := by
  unfold memWrite
  split
  case h_1 => split <;> exact ⟨rfl, rfl⟩
  case h_2 => split <;> exact ⟨rfl, rfl⟩
  all_goals exact ⟨rfl, rfl⟩

/-- Settles O53: BUSY decides whether the host has the move. -/
theorem hostStreamActions : Obligations.HostStreamActions := by
  refine fun s => ⟨fun hb => ⟨fun b => ?_, ?_, ?_⟩, fun hb => ⟨fun b => ?_, fun r => ?_⟩, fun off v => ?_⟩
  · exact if_neg (by simp [hb])
  · exact if_neg (by simp [hb])
  · exact if_neg (by simp [hb])
  · exact if_pos hb
  · exact if_pos hb
  · obtain ⟨hinp, hout⟩ := memWrite_ports off v s
    exact ⟨hinp, hout, hostRead_inp off s⟩

theorem hostRead_status_of_idle {s : State} (hb : s.busy = false) :
    hostRead 0x0004 s = { s with hostWord := statusWord s } := by
  have hread : memRead 0x0004 s = statusWord s := memRead_of_idle 0x0004 hb
  simp only [hostRead, hread, hb, Bool.false_and, Bool.false_eq_true, if_false]

theorem hostRead_status_of_busy {s : State} (hb : s.busy = true) :
    hostRead 0x0004 s =
      { s with hostWord := busyStatusWord s (Config.busyRead s.draws), draws := s.draws + 1 } := by
  have hread : memRead 0x0004 s = busyStatusWord s (Config.busyRead s.draws) := memRead_of_busy 0x0004 hb
  have hdrawn : drawnWhileBusy (regAt 0x0004) = true := rfl
  simp only [hostRead, hread, hb, hdrawn, Bool.and_true, if_true]

/-- One pass of `wait` while BUSY = 0: it goes on (R129). -/
theorem hostLine_wait_of_idle {s : State} (hb : s.busy = false) :
    hostLine .wait s = .next { s with hostWord := statusWord s } := by
  obtain ⟨hbit, -⟩ := statusWord_fields s
  simp only [hostLine, hostRead_status_of_idle hb, hbit, hb, Bool.false_eq_true, if_false]

/-- One pass of `wait` while BUSY = 1: the line stays in front (R129). -/
theorem hostLine_wait_of_busy {s : State} (hb : s.busy = true) :
    hostLine .wait s = .next { s with
      script := .wait :: s.script, hostWord := busyStatusWord s (Config.busyRead s.draws), draws := s.draws + 1 } := by
  obtain ⟨hbit, -⟩ := busyStatusWord_fields s (Config.busyRead s.draws)
  simp only [hostLine, hostRead_status_of_busy hb, hbit, if_true]

/-- Settles O54: bit 0 of the STATUS word is BUSY, and the line in front is put back where it is 1. -/
theorem waitAndCheck : Obligations.WaitAndCheck := by
  intro s rest hh
  refine ⟨fun hl hb => ?_, fun hl hb => ?_, fun hl herr => ?_, fun hl herr => ?_⟩ <;> rw [step_of_script_cons hh hl]
  · exact hostLine_wait_of_idle (s := { passTurn s with script := rest }) hb
  · refine ⟨busyStatusWord s (Config.busyRead s.draws), (busyStatusWord_fields _ _).1, ?_⟩
    rw [hostLine_wait_of_busy (s := { passTurn s with script := rest }) hb]
    simp only [passTurn, hl, busyStatusWord]
  · simp only [hostLine, passTurn_hostWord, herr, if_true]
  · simp only [hostLine, passTurn_hostWord, herr, Bool.false_eq_true, if_false]

/-! ### Preconditions -/

/-- A command whose pseudocode raises an error at once (R303, R306 (2)). -/
theorem exec_of_raised {i : Instr} {s : State} {e : ErrCode}
    (h : bodyOf i (clearOutcome s) = .raised e (clearOutcome s)) : exec i s = .next (failedWith e s) := by
  rw [exec_eq_runCommand, runCommand_raised h]
  rfl

theorem encBody_of_table {s : State} {sym : Nat} (ht : s.tableValid = true) (hs : sym ≤ 256) :
    encBody sym s = lookupAndEmit sym s := by
  have hs' : ¬ symOutOfRange sym = true := by simpa [symOutOfRange] using hs
  rw [encBody, if_pos ht, if_neg hs']

/-- Settles O11: each command's pseudocode starts with its tests, in this order. -/
theorem preconditionsAreCheckedInOrder : Obligations.PreconditionsAreCheckedInOrder := by
  refine fun s => ⟨fun ht => ⟨?_, ?_, ?_⟩, fun ht => ⟨?_, fun sym => ?_⟩, fun ht => ⟨fun sym hs => ?_, fun sym hs hv => ?_⟩⟩ <;>
    apply exec_of_raised
  · exact if_neg (by simp [ht])
  · exact if_neg (by simp [ht])
  · exact if_neg (by simp [ht])
  · exact if_neg (by simp [ht])
  · exact if_neg (by simp [ht])
  · have hs' : symOutOfRange sym = true := decide_eq_true hs
    rw [bodyOf, encBody, clearOutcome_tableValid, if_pos ht, if_pos hs']
  · exact (encBody_of_table (s := clearOutcome s) ht hs).trans (lookupAndEmit_noCode hv)

/-! ### CLEAR, REWIND and CLOSE -/

theorem exec_clear (s : State) : exec .clear s = .next (done (clearAll (clearOutcome s))) :=
  runCommand_ok (body := fun t => .ok () (clearAll t)) rfl

/-- Settles O24: the fields that CLEAR writes are literal but for DROP and the count of draws. -/
theorem clearEmptiesTheTables : Obligations.ClearEmptiesTheTables := by
  refine fun s => ⟨_, exec_clear s, rfl, fun hb => ⟨?_, ?_⟩⟩
  · simp [clearAll, dropAfterClear, hb]
  · simp [clearAll, hb]

theorem resetIn_okay {s : State} (hp : nextAnswer s = .succeeds) : resetIn s = .ok .okay (moveIn 0 (afterCalls 1 s)) := by
  simp [resetIn, hp, dropAnswer_eq]

theorem resetIn_fails {s : State} {k : Nat} (hp : nextAnswer s = .fails k) : resetIn s = .ok .ioFail (afterCalls 1 s) := by
  simp [resetIn, hp, dropAnswer_eq]

theorem closeOut_closed {s : State} (ho : s.out.closed = true) : closeOut s = .ok .okay s := by simp [closeOut, ho]

theorem closeOut_okay {s : State} (hp : nextAnswer s = .succeeds) (ho : s.out.closed = false) :
    closeOut s = .ok .okay (finishOut (afterCalls 1 s)) := by
  simp [closeOut, hp, ho, dropAnswer_eq]

/-- A failed close took effect or it did not (R95). -/
theorem closeOut_fails {s : State} {k : Nat} (hp : nextAnswer s = .fails k) (ho : s.out.closed = false) :
    closeOut s = .ok .ioFail (if k = 0 then afterCalls 1 s else finishOut (afterCalls 1 s)) := by
  simp [closeOut, hp, ho, dropAnswer_eq]

/-- A command whose one call ends well. -/
theorem exec_of_okay {i : Instr} {s u : State} {f : State → Flow PortResult} (hi : bodyOf i = fun t => orIoError (f t))
    (h : f (clearOutcome s) = .ok .okay u) : exec i s = .next (done u) := by
  rw [exec_eq_runCommand, runCommand_ok]
  simp only [hi, h, orIoError, bind_ok]

/-- A command whose one call fails. -/
theorem exec_of_ioFail {i : Instr} {s u : State} {f : State → Flow PortResult} (hi : bodyOf i = fun t => orIoError (f t))
    (h : f (clearOutcome s) = .ok .ioFail u) : exec i s = .next (raiseError .io u) := by
  rw [exec_eq_runCommand, runCommand_raised]
  simp only [hi, h, orIoError, bind_ok]

theorem nextAnswer_of_cons {s : State} {a : PortAnswer} {as : List PortAnswer} (h : s.answers = a :: as) :
    nextAnswer s = a := by
  rw [nextAnswer, h, List.headD_cons]

/-- Settles O49: each command is one call, and the answer decides how it ends. -/
theorem rewindAndClose : Obligations.RewindAndClose := by
  intro s as
  have drop {a : PortAnswer} (h : s.answers = a :: as) : s.answers.drop 1 = as := by rw [h, List.drop_one, List.tail_cons]
  refine ⟨fun hp => ?_, fun k ha => ?_, fun ho => ?_, fun ho hp => ?_, fun ho ha => ?_, fun k ho ha => ?_⟩
  · rw [exec_of_okay (i := .rewind) rfl (resetIn_okay (s := clearOutcome s) (nextAnswer_of_portsSucceed hp))]
    rfl
  · rw [exec_of_ioFail (i := .rewind) rfl (resetIn_fails (s := clearOutcome s) (nextAnswer_of_cons ha)), ← drop ha]
    rfl
  · rw [exec_of_okay (i := .close) rfl (closeOut_closed (s := clearOutcome s) ho)]
    rfl
  · rw [exec_of_okay (i := .close) rfl (closeOut_okay (s := clearOutcome s) (nextAnswer_of_portsSucceed hp) ho)]
    rfl
  · rw [exec_of_ioFail (i := .close) rfl (closeOut_fails (s := clearOutcome s) (nextAnswer_of_cons ha) ho), ← drop ha]
    rfl
  · rw [exec_of_ioFail (i := .close) rfl (closeOut_fails (s := clearOutcome s) (nextAnswer_of_cons ha) ho), ← drop ha,
      if_neg (Nat.succ_ne_zero k)]
    rfl

end Sys2Proof.Machine
end

section
/-! What each command can do, said once for all thirteen: which updates of the state its pseudocode is made of, which errors it
raises and when a reset can cut it, and that it completes (R158, R300, R331). -/

namespace Sys2Proof.Machine

/-! ### The updates a command is made of -/

/-- The commands that read IN or move IN.pos (R193, R200, R251, R270, R290). -/
def movesIn : Instr → Bool
  | .des | .encall | .decode | .rmagic | .rewind => true
  | .nop | .clear | .build | .ser | .gentab | .enc _ | .wmagic | .close => false

/-- The commands that write bits to OUT (R190, R199, R250, R251, R273). -/
def writesOut : Instr → Bool
  | .ser | .enc _ | .encall | .decode | .wmagic => true
  | .nop | .clear | .build | .des | .gentab | .rmagic | .rewind | .close => false

/-- `P` is kept by each update that the command's pseudocode makes. A field left out is an update that changes nothing `P`
speaks of. -/
structure KeptBy (i : Instr) (P : State → Prop) : Prop where
  dropAnswer : ∀ t, P t → P (dropAnswer t) := by exact fun _ h => h
  moveIn : movesIn i = true → ∀ p t, P t → (t.inp.pos ≤ t.inp.bits.length → p ≤ t.inp.bits.length) → P (moveIn p t) := by
    exact fun _ _ _ h _ => h
  appendOut : writesOut i = true → ∀ b t, P t → t.out.closed = false → P (appendOut b t) := by exact fun _ _ _ h _ => h
  finishOut : i = .close → ∀ t, P t → t.out.closed = false → P (finishOut t) := by exact fun _ _ h _ => h
  moveCur : i = .decode → ∀ j t, P t → P (moveCur j t) := by exact fun _ _ _ h => h
  clearAll : i = .clear → ∀ t, P t → P (clearAll t) := by exact fun _ _ h => h
  buildEffect : i = .build → ∀ t, P t → P (buildEffect t) := by exact fun _ _ h => h
  clearTable : i = .gentab ∨ i = .des → ∀ t, P t → P (clearTable t) := by exact fun _ _ h => h
  writeCode : i = .gentab → ∀ j p t, P t → p.length ≤ 256 → P (writeCode j (pathEntry p) t) := by exact fun _ _ _ _ h _ => h
  tableValid : i = .gentab → ∀ t, P t → P { t with tableValid := true } := by exact fun _ _ h => h
  treeRegs : i = .des → ∀ r n l v t, P t → P { t with root := r, nodes := n, leaves := l, treeValid := v } := by
    exact fun _ _ _ _ _ _ h => h
  writeNode : i = .des → ∀ j r t, P t → P (writeNode j r t) := by exact fun _ _ _ _ h => h
  setChildren : i = .des → ∀ j l r t, P t → P (setChildren j l r t) := by exact fun _ _ _ _ _ h => h

/-- A close keeps what a dropped answer and the close of an open OUT keep. -/
theorem closeOut_all {P : State → Prop} (hd : ∀ t, P t → P (dropAnswer t))
    (hf : ∀ t, P t → t.out.closed = false → P (finishOut t)) {s : State} (h : P s) : (orIoError (closeOut s)).All P := by
  cases ho : s.out.closed with
  | true => rw [closeOut_closed ho]; exact h
  | false =>
    have hdrop : P (afterCalls 1 s) := dropAnswer_eq s ▸ hd s h
    cases ha : nextAnswer s with
    | resetFirst => simp only [closeOut, ho, ha, Bool.false_eq_true, if_false]; exact hd s h
    | succeeds => rw [closeOut_okay ha ho]; exact hf _ hdrop ho
    | fails k =>
      rw [closeOut_fails ha ho]
      split
      · exact hdrop
      · exact hf _ hdrop ho

theorem desBody_all {P : State → Prop} (h : KeptBy .des P) {s : State} (hs : P s) : (desBody s).All P := by
  have hstart : P (desStart s) := h.clearTable (.inr rfl) _ (h.treeRegs rfl 0 0 0 false s hs)
  refine all_bind (desNode_all h.dropAnswer (h.moveIn rfl)
    (fun t ht _ => h.treeRegs rfl t.root (t.nodes + 1) t.leaves t.treeValid t ht) (h.writeNode rfl) (h.setChildren rfl)
    (fun t ht => h.treeRegs rfl t.root t.nodes (t.leaves + 1) t.treeValid t ht)
    (fun t ht => h.treeRegs rfl 0 0 0 t.treeValid t ht) _ _ hstart) fun r t ht => ?_
  exact h.treeRegs rfl r t.nodes t.leaves true t ht

theorem gentabBody_all {P : State → Prop} (h : KeptBy .gentab P) {s : State} (hs : P s) : (gentabBody s).All P := by
  unfold gentabBody
  split
  · exact all_bind (genNode_all (h.writeCode rfl) (h.clearTable (.inl rfl)) _ _ [] _ (by simp)
      (h.clearTable (.inl rfl) s hs)) fun _ t ht => h.tableValid rfl t ht
  · exact hs

/-- What its updates keep, a command's pseudocode keeps. -/
theorem bodyOf_all {i : Instr} {P : State → Prop} (h : KeptBy i P) {s : State} (hs : P s) : (bodyOf i s).All P := by
  cases i with
  | nop => exact hs
  | clear => exact h.clearAll rfl s hs
  | build => exact h.buildEffect rfl s hs
  | ser => exact serBody_all h.dropAnswer (h.appendOut rfl) hs
  | des => exact desBody_all h hs
  | gentab => exact gentabBody_all h hs
  | enc sym => exact encBody_all h.dropAnswer (h.appendOut rfl) sym hs
  | encall => exact encallBody_all h.dropAnswer (h.moveIn rfl) (h.appendOut rfl) hs
  | decode => exact decodeBody_all h.dropAnswer (h.moveIn rfl) (h.appendOut rfl) (h.moveCur rfl) hs
  | wmagic => exact emitBits_all h.dropAnswer (h.appendOut rfl) hs
  | rmagic => exact rmagicBody_all h.dropAnswer (h.moveIn rfl) hs
  | rewind => exact orIoError_resetIn_all h.dropAnswer (fun t ht => h.moveIn rfl 0 t ht fun _ => Nat.zero_le _) hs
  | close => exact closeOut_all h.dropAnswer (h.finishOut rfl) hs

/-! ### The errors a command raises, and the reset that cuts it -/

/-- No reset is asserted inside the command, unless `R` allows one. -/
def ResetOnlyIf (R : Prop) (s : State) : Prop := R ∨ NoResetInside s

/-- The piece raises errors of `E` only, and a reset cuts it only where `R` allows one. -/
def Flow.Within {α : Type} (E : ErrCode → Prop) (R : Prop) : Flow α → Prop
  | .ok _ t => ResetOnlyIf R t
  | .raised e _ => E e
  | .abandoned _ => R
  | .stuck _ => True

theorem resetOnlyIf_dropAnswer {R : Prop} {s : State} (h : ResetOnlyIf R s) : ResetOnlyIf R (dropAnswer s) :=
  h.imp_right fun hn => dropAnswer_eq s ▸ noResetInside_afterCalls hn 1

theorem allowed_of_resetFirst {R : Prop} {s : State} (h : ResetOnlyIf R s) (ha : nextAnswer s = .resetFirst) : R :=
  h.resolve_right fun hn => nextAnswer_of_noResetInside hn ha

section Within

variable {E : ErrCode → Prop} {R : Prop}

theorem within_bind {α β : Type} {x : Flow α} {f : α → State → Flow β} (hx : x.Within E R)
    (hf : ∀ a t, ResetOnlyIf R t → (f a t).Within E R) : (x.bind f).Within E R := by
  cases x with
  | ok a t => exact hf a t hx
  | raised e t => exact hx
  | abandoned t => exact hx
  | stuck r => trivial

theorem readBits_within {n : Nat} {s : State} (h : ResetOnlyIf R s) : (readBits n s).Within E R := by
  unfold readBits
  cases ha : nextAnswer s with
  | resetFirst => exact allowed_of_resetFirst h ha
  | fails k => exact resetOnlyIf_dropAnswer h
  | succeeds => simp only; split <;> exact resetOnlyIf_dropAnswer h

theorem readNode_within {i : NodeIdx} {s : State} (h : ResetOnlyIf R s) : (readNode i s).Within E R := by
  unfold readNode
  split
  · cases s.node[i.toNat]? with
    | some r => exact h
    | none => trivial
  · trivial

variable (hio : E .io)
include hio

theorem orIoError_within {x : Flow PortResult} (hx : x.Within E R) : (orIoError x).Within E R :=
  within_bind hx fun r _ ht => by
    cases r with
    | okay => exact ht
    | ioFail => exact hio

theorem emitBits_within {n v : Nat} {s : State} (h : ResetOnlyIf R s) : (emitBits n v s).Within E R := by
  refine orIoError_within hio ?_
  unfold writeBits
  split
  · exact h
  · cases ha : nextAnswer s with
    | resetFirst => exact allowed_of_resetFirst h ha
    | fails k => exact resetOnlyIf_dropAnswer h
    | succeeds => exact resetOnlyIf_dropAnswer h

theorem resetIn_within {s : State} (h : ResetOnlyIf R s) : (orIoError (resetIn s)).Within E R := by
  refine orIoError_within hio ?_
  unfold resetIn
  cases ha : nextAnswer s with
  | resetFirst => exact allowed_of_resetFirst h ha
  | fails k => exact resetOnlyIf_dropAnswer h
  | succeeds => exact resetOnlyIf_dropAnswer h

theorem closeOut_within {s : State} (h : ResetOnlyIf R s) : (orIoError (closeOut s)).Within E R := by
  refine orIoError_within hio ?_
  unfold closeOut
  split
  · exact h
  · cases ha : nextAnswer s with
    | resetFirst => exact allowed_of_resetFirst h ha
    | fails k => simp only; split <;> exact resetOnlyIf_dropAnswer h
    | succeeds => exact resetOnlyIf_dropAnswer h

theorem serNode_within (n : Nat) (i : NodeIdx) {s : State} (h : ResetOnlyIf R s) : (serNode n i s).Within E R := by
  induction n generalizing i s with
  | zero => trivial
  | succ n ih =>
    refine within_bind (readNode_within h) fun r s h => ?_
    cases r.leaf with
    | true => exact within_bind (emitBits_within hio h) fun _ s h => emitBits_within hio h
    | false =>
      exact within_bind (emitBits_within hio h) fun _ s h => within_bind (ih _ h) fun _ s h => ih _ h

theorem desNode_within (heos : E .eosTree) (hcap : E .capacity) (n : Nat) {s : State} (h : ResetOnlyIf R s) :
    (desNode n s).Within E R := by
  induction n generalizing s with
  | zero => trivial
  | succ n ih =>
    refine within_bind (readBits_within h) fun t s h => ?_
    cases t with
    | ioFail => exact hio
    | eos => exact heos
    | val t =>
      simp only
      split
      · exact hcap
      · split
        · exact within_bind (ih h) fun l s h => within_bind (ih h) fun r s h => h
        · refine within_bind (readBits_within h) fun v s h => ?_
          cases v with
          | ioFail => exact hio
          | eos => exact heos
          | val v => exact h

theorem lookupAndEmit_within (hno : E .noCode) (sym : Nat) {s : State} (h : ResetOnlyIf R s) :
    (lookupAndEmit sym s).Within E R := by
  unfold lookupAndEmit emitCode
  simp only
  split
  · split
    · exact emitBits_within hio h
    · exact h
  · exact hno

theorem encLoop_within (hno : E .noCode) (n : Nat) {s : State} (h : ResetOnlyIf R s) : (encLoop n s).Within E R := by
  induction n generalizing s with
  | zero => trivial
  | succ n ih =>
    refine within_bind (readBits_within h) fun r s h => ?_
    cases r with
    | ioFail => exact hio
    | eos => exact h
    | val v => exact within_bind (lookupAndEmit_within hio hno v h) fun _ s h => ih h

theorem decodeLoop_within (heos : E .eosBody) (n : Nat) {s : State} (h : ResetOnlyIf R s) :
    (decodeLoop n s).Within E R := by
  induction n generalizing s with
  | zero => trivial
  | succ n ih =>
    refine within_bind (readBits_within h) fun b s h => ?_
    cases b with
    | ioFail => exact hio
    | eos => exact heos
    | val b =>
      refine within_bind (readNode_within h) fun r s h => within_bind (readNode_within h) fun r s h => ?_
      split
      · split
        · exact h
        · exact within_bind (emitBits_within hio h) fun _ s h => ih h
      · exact ih h

end Within

theorem genNode_within {E : ErrCode → Prop} {R : Prop} (hrange : E .symRange) (n : Nat) (i : NodeIdx) (p : BitString)
    {s : State} (h : ResetOnlyIf R s) : (genNode n i p s).Within E R := by
  induction n generalizing i p s with
  | zero => trivial
  | succ n ih =>
    refine within_bind (readNode_within h) fun r s h => ?_
    split
    · split
      · exact hrange
      · exact h
    · exact within_bind (ih _ _ h) fun _ s h => ih _ _ h

/-- A command raises the errors whose rows name it, and nothing but a reset cuts it (R300, R331). -/
theorem bodyOf_within (i : Instr) {R : Prop} {s : State} (h : ResetOnlyIf R s) :
    (bodyOf i s).Within (fun e => raisedBy e i) R := by
  cases i with
  | nop => exact h
  | clear => exact h
  | build => exact h
  | ser =>
    simp only [bodyOf, serBody]
    split
    · exact serNode_within (by simp [raisedBy]) _ _ h
    · exact .inl rfl
  | des =>
    exact within_bind (desNode_within (E := fun e => raisedBy e .des) (by simp [raisedBy]) rfl rfl _ h) fun _ _ ht => ht
  | gentab =>
    simp only [bodyOf, gentabBody]
    split
    · exact within_bind (genNode_within (.inr rfl) _ _ _ h) fun _ _ ht => ht
    · exact .inr (.inl rfl)
  | enc sym =>
    simp only [bodyOf, encBody]
    split
    · split
      · exact .inl ⟨sym, rfl⟩
      · exact lookupAndEmit_within (by simp [raisedBy]) (.inl ⟨sym, rfl⟩) sym h
    · exact .inl ⟨sym, rfl⟩
  | encall =>
    simp only [bodyOf, encallBody]
    split
    · exact within_bind (encLoop_within (by simp [raisedBy]) (.inr rfl) _ h) fun _ _ ht =>
        lookupAndEmit_within (by simp [raisedBy]) (.inr rfl) _ ht
    · exact .inr rfl
  | decode =>
    simp only [bodyOf, decodeBody]
    split
    · refine within_bind (readNode_within h) fun r s h => ?_
      split
      · split
        · exact h
        · exact rfl
      · exact decodeLoop_within (E := fun e => raisedBy e .decode) (by simp [raisedBy]) rfl _ h
    · exact .inr (.inr rfl)
  | wmagic => exact emitBits_within (by simp [raisedBy]) h
  | rmagic =>
    refine within_bind (readBits_within h) fun r s h => ?_
    cases r with
    | ioFail => exact (by simp [raisedBy] : raisedBy .io .rmagic)
    | eos => exact rfl
    | val v =>
      simp only
      split
      · exact rfl
      · exact h
  | rewind => exact resetIn_within (by simp [raisedBy]) h
  | close => exact closeOut_within (by simp [raisedBy]) h

/-! ### What a command leaves -/

/-- A command leaves its pseudocode's state, completed or reset (R154, R303, R331). -/
theorem exec_cases {i : Instr} {P : State → Prop} {s t : State} (h : exec i s = .next t) (hk : KeptBy i P)
    (hs : P (clearOutcome s)) : ∃ u, P u ∧ (t = done u ∨ (∃ e, raisedBy e i ∧ t = raiseError e u) ∨ t = coreReset u) := by
  have hall := bodyOf_all hk hs
  have hwithin := bodyOf_within i (R := True) (s := clearOutcome s) (.inl trivial)
  rw [exec_eq_runCommand] at h
  obtain ⟨u, hu, rfl⟩ | ⟨e, u, hu, rfl⟩ | ⟨u, hu, rfl⟩ := runCommand_cases h <;> rw [hu] at hall hwithin
  · exact ⟨u, hall, .inl rfl⟩
  · exact ⟨u, hall, .inr (.inl ⟨e, hwithin, rfl⟩)⟩
  · exact ⟨u, hall, .inr (.inr rfl)⟩

/-- Where no reset is asserted inside it, a command completes with success or an error. -/
theorem exec_cases_uncut {i : Instr} {P : State → Prop} {s t : State} (h : exec i s = .next t) (hn : NoResetInside s)
    (hk : KeptBy i P) (hs : P (clearOutcome s)) : ∃ u, P u ∧ (t = done u ∨ ∃ e, t = raiseError e u) := by
  have hall := bodyOf_all hk hs
  have hwithin := bodyOf_within i (R := False) (s := clearOutcome s) (.inr hn)
  rw [exec_eq_runCommand] at h
  obtain ⟨u, hu, rfl⟩ | ⟨e, u, hu, rfl⟩ | ⟨u, hu, rfl⟩ := runCommand_cases h <;> rw [hu] at hall hwithin
  · exact ⟨u, hall, .inl rfl⟩
  · exact ⟨u, hall, .inr ⟨e, rfl⟩⟩
  · exact hwithin.elim

/-! ### The statements -/

/-- Settles O9: ERR is cleared at the start of a command and set by `raise` alone, and its pseudocode raises its own errors. -/
theorem errorsComeFromTheirCommands : Obligations.ErrorsComeFromTheirCommands := by
  refine ⟨by decide, fun i s t h herr => ?_⟩
  obtain ⟨u, hu, rfl | ⟨e, he, rfl⟩ | rfl⟩ := exec_cases (P := fun u => u.err = false) h {} rfl
  · exact absurd (hu.symm.trans herr) Bool.false_ne_true
  · exact ⟨e, he, rfl⟩
  · cases herr

/-- Settles O52: the ports change by the updates of `KeptBy` alone, each of which some of the commands do not make; a
completion and a reset change neither port. -/
theorem portsChangeOnlyAsStated : Obligations.PortsChangeOnlyAsStated := by
  intro i s t h
  have ports {P : State → Prop} (hk : KeptBy i P) (hs : P (clearOutcome s)) :
      ∃ u, P u ∧ t.inp = u.inp ∧ t.out = u.out := by
    obtain ⟨u, hu, rfl | ⟨e, -, rfl⟩ | rfl⟩ := exec_cases h hk hs <;> exact ⟨u, hu, rfl, rfl⟩
  refine ⟨?_, ?_, fun hi => ?_, fun hdes hencall hdecode hrmagic hrewind => ?_, fun hi => ?_⟩
  · obtain ⟨u, hu, hinp, -⟩ := ports (P := fun u => u.inp.bits = s.inp.bits) {} rfl
    rw [hinp, hu]
  · obtain ⟨u, hu, -, hout⟩ := ports (P := fun u => s.out.bits <+: u.out.bits)
      { appendOut := fun _ b t ht _ => ht.trans (List.prefix_append _ b)
        finishOut := fun _ t ht _ => ht.trans (List.prefix_append _ _) } (List.prefix_refl _)
    rw [hout]
    exact hu
  · obtain ⟨u, hu, -, hout⟩ := ports (P := fun u => u.out.closed = s.out.closed)
      { finishOut := fun hclose => absurd hclose hi } rfl
    rw [hout, hu]
  · have hreads : movesIn i ≠ true := by cases i <;> simp_all [movesIn]
    obtain ⟨u, hu, hinp, -⟩ := ports (P := fun u => u.inp = s.inp) { moveIn := fun hm => absurd hm hreads } rfl
    rw [hinp, hu]
  · have hwrites : writesOut i ≠ true ∧ i ≠ .close := by
      rcases hi with rfl | rfl | rfl | rfl | rfl | rfl | rfl <;> exact ⟨by decide, by decide⟩
    obtain ⟨u, hu, -, hout⟩ := ports (P := fun u => u.out = s.out)
      { appendOut := fun hw => absurd hw hwrites.1, finishOut := fun hclose => absurd hclose hwrites.2 } rfl
    rw [hout, hu]

/-- The fields that no command writes. -/
def SameHost (s t : State) : Prop :=
  t.pending = s.pending ∧ t.script = s.script ∧ t.turns = s.turns ∧ t.hostWord = s.hostWord ∧ t.hostOut = s.hostOut ∧
    t.hostFail = s.hostFail

/-- The fields that CLEAR alone writes, with the count of draws. -/
def SameCounts (s t : State) : Prop := t.freq = s.freq ∧ t.drop = s.drop ∧ t.draws = s.draws

/-- Settles O58: no update of a command's pseudocode writes the host's fields, and only CLEAR's writes the counts. -/
theorem commandsKeepCountsAndHost : Obligations.CommandsKeepCountsAndHost := by
  intro i s t h hn
  have hhost : SameHost s t := by
    obtain ⟨u, hu, rfl | ⟨e, rfl⟩⟩ := exec_cases_uncut (P := SameHost s) h hn {} ⟨rfl, rfl, rfl, rfl, rfl, rfl⟩ <;> exact hu
  have hcounts (hi : i ≠ .clear) : SameCounts s t := by
    obtain ⟨u, hu, rfl | ⟨e, rfl⟩⟩ := exec_cases_uncut (P := SameCounts s) h hn
      { clearAll := fun hclear => absurd hclear hi } ⟨rfl, rfl, rfl⟩ <;> exact hu
  obtain ⟨hpending, hrest⟩ := hhost
  exact ⟨hpending, hcounts, hrest⟩

/-- `t` with CUR, the ports and the answers of `s`. -/
def withStreamsOf (s t : State) : State := { t with cur := s.cur, inp := s.inp, out := s.out, answers := s.answers }

/-- Settles O59: the updates of these commands' pseudocode are those of CUR, the ports and the answers. -/
theorem streamCommandsKeepTreeAndTable : Obligations.StreamCommandsKeepTreeAndTable := by
  intro i s t hi h hn
  have hother : i ≠ .clear ∧ i ≠ .build ∧ i ≠ .gentab ∧ i ≠ .des := by
    rcases hi with rfl | ⟨sym, rfl⟩ | rfl | rfl | rfl | rfl | rfl | rfl <;> simp
  obtain ⟨hclear, hbuild, hgentab, hdes⟩ := hother
  constructor
  · obtain ⟨u, hu, ht⟩ := exec_cases_uncut (P := fun u => withStreamsOf s u = clearOutcome s) h hn
      { clearAll := fun he => absurd he hclear
        buildEffect := fun he => absurd he hbuild
        clearTable := fun he => he.elim (absurd · hgentab) (absurd · hdes)
        writeCode := fun he => absurd he hgentab
        tableValid := fun he => absurd he hgentab
        treeRegs := fun he => absurd he hdes
        writeNode := fun he => absurd he hdes
        setChildren := fun he => absurd he hdes } rfl
    have hframe : u = { s with
        err := u.err, errcode := u.errcode, cur := u.cur, inp := u.inp, out := u.out, answers := u.answers } := by
      have hback := congrArg (withStreamsOf u) hu
      rw [show withStreamsOf u (withStreamsOf s u) = u from rfl] at hback
      rw [hback]
      rfl
    rw [hframe] at ht
    obtain rfl | ⟨e, rfl⟩ := ht <;> rfl
  · intro hdecode
    obtain ⟨u, hu, rfl | ⟨e, rfl⟩⟩ := exec_cases_uncut (P := fun u => u.cur = s.cur) h hn
      { moveCur := fun he => absurd he hdecode } rfl <;> exact hu

/-! ### Completion -/

/-- GENTAB does not stop on a tree (R158, R236). -/
theorem gentabBody_notStuck {s : State} {tr : Tree} (ht : s.treeValid = true → heldTree s = some tr) :
    (gentabBody s).NotStuck := by
  unfold gentabBody
  split
  case isFalse => trivial
  case isTrue hv =>
    have htree : treeAt Config.treeDepth (clearTable s) s.root = some tr :=
      (treeAt_congr (s := s) (t := clearTable s) rfl rfl _ _).trans (ht hv)
    by_cases hle : ∀ e ∈ tr.pathsFrom [], e.1 ≤ 256
    · rw [genNode_run [] htree hle]
      trivial
    · rw [genNode_symRange [] htree (by push Not at hle; exact hle)]
      trivial

theorem serBody_notStuck {s : State} {tr : Tree} (ht : s.treeValid = true → heldTree s = some tr) :
    (serBody s).NotStuck := by
  unfold serBody
  split
  case isTrue hv => exact serNode_notStuck (ht hv)
  case isFalse => trivial

theorem resetIn_notStuck (s : State) : (orIoError (resetIn s)).NotStuck := by
  unfold orIoError resetIn
  cases nextAnswer s <;> trivial

theorem closeOut_notStuck (s : State) : (orIoError (closeOut s)).NotStuck := by
  unfold orIoError closeOut
  split
  · trivial
  · cases nextAnswer s <;> trivial

theorem rmagicBody_notStuck (s : State) : (rmagicBody s).NotStuck := by
  refine notStuck_bind (readBits_notStuck _ _) fun r t _ => ?_
  cases r with
  | ioFail => trivial
  | eos => trivial
  | val v => simp only; split <;> trivial

/-- No command stops while TREE_VALID = 1 only with a tree held (R158). -/
theorem bodyOf_notStuck (i : Instr) {s : State} (ht : s.treeValid = true → ∃ tr, heldTree s = some tr) :
    (bodyOf i s).NotStuck := by
  obtain ⟨tr, htr⟩ : ∃ tr, s.treeValid = true → heldTree s = some tr := by
    by_cases hv : s.treeValid = true
    · obtain ⟨tr, htr⟩ := ht hv
      exact ⟨tr, fun _ => htr⟩
    · exact ⟨.leaf 0, fun h => absurd h hv⟩
  cases i with
  | nop => trivial
  | clear => trivial
  | build => trivial
  | ser => exact serBody_notStuck htr
  | des => exact desBody_notStuck s
  | gentab => exact gentabBody_notStuck htr
  | enc sym => exact encBody_notStuck sym s
  | encall => exact encallBody_notStuck s
  | decode => exact decodeBody_notStuck htr
  | wmagic => exact emitBits_notStuck _ _ s
  | rmagic => exact rmagicBody_notStuck s
  | rewind => exact resetIn_notStuck s
  | close => exact closeOut_notStuck s

theorem exec_completes (i : Instr) {s : State} (ht : TreeInv s) : ∃ t, exec i s = .next t ∧ t.busy = false := by
  have hheld : (clearOutcome s).treeValid = true → ∃ tr, heldTree (clearOutcome s) = some tr := fun hv =>
    let ⟨tr, htr, _⟩ := (ht hv).heldTree
    ⟨tr, heldTree_clearOutcome htr⟩
  obtain ⟨t, h⟩ := runCommand_completes (bodyOf_notStuck i hheld)
  exact ⟨t, (exec_eq_runCommand i s).trans h, runCommand_not_busy h⟩

theorem treeInv_passTurn {s : State} (h : TreeInv s) : TreeInv (passTurn s) := by
  intro hv
  obtain ⟨hpos, hle, hroot, hchildren, ⟨l, hl, hperm⟩, hleaves, hnodes⟩ := h hv
  exact ⟨hpos, hle, hroot, hchildren, ⟨l, (indicesAt_congr (s := s) (t := passTurn s) rfl rfl _ _).trans hl, hperm⟩, hleaves,
    hnodes⟩

/-- Settles O8: no command stops on a tree, and BUSY = 1 only with a word pending. -/
theorem everyCommandCompletes : Obligations.EveryCommandCompletes := by
  rintro s ⟨hreg, htree, -⟩
  refine ⟨fun i => exec_completes i htree, fun hcore => ?_⟩
  obtain ⟨w, hw⟩ := Option.ne_none_iff_exists'.mp (hreg.pending hcore.1)
  rw [step_of_pending hcore hw]
  cases hd : decode w with
  | none => exact ⟨_, runWord_of_decode_none hd _, rfl⟩
  | some i =>
    rw [runWord_of_decode_some hd]
    exact exec_completes i (treeInv_passTurn htree)

end Sys2Proof.Machine
end

section
/-! The invariant of the block (R36 to R43, R47, R48, R53, R97, R300): what a command leaves of the tree and the table, what the
host's moves leave, and that every step keeps the registers' clauses and what TREE_VALID and TABLE_VALID promise. -/

namespace Sys2Proof.Machine

/-! ### What a command leaves of the tree and the table -/

/-- The tree, its registers, the CODE table and the two valid bits are those of `s`. -/
def SameTables (s t : State) : Prop :=
  t.treeValid = s.treeValid ∧ t.tableValid = s.tableValid ∧ t.root = s.root ∧ t.nodes = s.nodes ∧ t.leaves = s.leaves ∧
    t.node = s.node ∧ t.code = s.code

/-- Neither a tree nor a table is held (R157, R197, R330). -/
def NoTables (t : State) : Prop :=
  t.treeValid = false ∧ t.tableValid = false ∧ t.root = 0 ∧ t.nodes = 0 ∧ t.leaves = 0 ∧ t.code = emptyCode

/-- A GENTAB over a tree: the tree stands, and the table is made or empty (R230, R235). -/
def TableMade (s t : State) : Prop :=
  s.treeValid = true ∧ t.treeValid = true ∧ (t.tableValid = true ∨ (t.tableValid = false ∧ t.code = emptyCode)) ∧
    t.root = s.root ∧ t.nodes = s.nodes ∧ t.leaves = s.leaves ∧ t.node = s.node

theorem sameTables_refl (s : State) : SameTables s s := ⟨rfl, rfl, rfl, rfl, rfl, rfl, rfl⟩

theorem noTables_coreReset (s : State) : NoTables (coreReset s) := ⟨rfl, rfl, rfl, rfl, rfl, rfl⟩

/-- A `des()` that fails has gone through `fail` (R193, R197). -/
theorem desNode_eq_raised {n : Nat} {s u : State} {e : ErrCode} (h : desNode n s = .raised e u) :
    ∃ v, u = clearTreeRegs v := by
  induction n generalizing s u with
  | zero => cases h
  | succ n ih =>
    obtain h | ⟨t, s1, -, h⟩ := bind_eq_raised.mp h
    · exact absurd h (readBits_not_raised 1 s)
    cases t with
    | ioFail => cases h; exact ⟨_, rfl⟩
    | eos => cases h; exact ⟨_, rfl⟩
    | val t =>
      simp only at h
      split at h
      · cases h; exact ⟨_, rfl⟩
      split at h
      · obtain h | ⟨l, s2, -, h⟩ := bind_eq_raised.mp h
        · exact ih h
        obtain h | ⟨r, s3, -, h⟩ := bind_eq_raised.mp h
        · exact ih h
        · cases h
      · obtain h | ⟨v, s2, -, h⟩ := bind_eq_raised.mp h
        · exact absurd h (readBits_not_raised 9 _)
        cases v with
        | ioFail => cases h; exact ⟨_, rfl⟩
        | eos => cases h; exact ⟨_, rfl⟩
        | val v => cases h
where
  readBits_not_raised (n : Nat) (s : State) {e : ErrCode} {u : State} : readBits n s ≠ .raised e u := by
    unfold readBits
    cases nextAnswer s with
    | resetFirst => simp
    | fails k => simp
    | succeeds => simp only; split <;> simp

theorem noTables_of_desBody_raised {s u : State} {e : ErrCode} (h : desBody s = .raised e u) : NoTables u := by
  obtain hnode | ⟨r, v, -, hv⟩ := bind_eq_raised.mp h
  · have hkeep := desNode_all
      (P := fun w => w.treeValid = false ∧ w.tableValid = false ∧ w.code = emptyCode) (fun _ h => h) (fun _ _ h _ => h)
      (fun _ h _ => h) (fun _ _ _ h => h) (fun _ _ _ _ h => h) (fun _ h => h) (fun _ h => h) (Config.nodeCap + 1)
      (desStart s) ⟨rfl, rfl, rfl⟩
    rw [hnode] at hkeep
    obtain ⟨htree, htable, hcode⟩ := hkeep
    obtain ⟨v, rfl⟩ := desNode_eq_raised hnode
    exact ⟨htree, htable, rfl, rfl, rfl, hcode⟩
  · cases hv

/-- A `gen()` that raises has cleared the table (R235). -/
theorem genNode_eq_raised {n : Nat} {i : NodeIdx} {p : BitString} {s u : State} {e : ErrCode}
    (h : genNode n i p s = .raised e u) : ∃ v, u = clearTable v := by
  induction n generalizing i p s u with
  | zero => cases h
  | succ n ih =>
    obtain h | ⟨r, s1, -, h⟩ := bind_eq_raised.mp h
    · exact absurd h (readNode_not_raised i s)
    split at h
    · split at h
      · cases h; exact ⟨_, rfl⟩
      · cases h
    · obtain h | ⟨_, s2, -, h⟩ := bind_eq_raised.mp h
      · exact ih h
      · exact ih h
where
  readNode_not_raised (i : NodeIdx) (s : State) {e : ErrCode} {u : State} : readNode i s ≠ .raised e u := by
    unfold readNode
    split
    · cases s.node[i.toNat]? <;> simp
    · simp

theorem gentab_tables {s t : State} (h : exec .gentab s = .next t) : SameTables s t ∨ NoTables t ∨ TableMade s t := by
  by_cases hv : s.treeValid = true
  case neg =>
    have hbody : bodyOf .gentab (clearOutcome s) = .raised .noTree (clearOutcome s) := if_neg hv
    obtain rfl := Host.Outcome.next.inj ((exec_of_raised hbody).symm.trans h)
    exact .inl (sameTables_refl s)
  have hbody : gentabBody (clearOutcome s) = (genNode Config.treeDepth s.root [] (clearTable (clearOutcome s))).bind
      fun _ s => .ok () { s with tableValid := true } := if_pos hv
  have hkeep := genNode_all (P := fun u => u.treeValid = true ∧ u.root = s.root ∧ u.nodes = s.nodes ∧
    u.leaves = s.leaves ∧ u.node = s.node) (fun _ _ _ h _ => h) (fun _ h => h) Config.treeDepth s.root []
    (clearTable (clearOutcome s)) (by simp) ⟨hv, rfl, rfl, rfl, rfl⟩
  obtain ⟨u, hu, rfl⟩ | ⟨e, u, hu, rfl⟩ | ⟨u, -, rfl⟩ := runCommand_cases (body := gentabBody) h
  · rw [hbody] at hu
    obtain ⟨_, v, hgen, hu⟩ := bind_eq_ok.mp hu
    rw [hgen] at hkeep
    cases hu
    exact .inr (.inr ⟨hv, hkeep.1, .inl rfl, hkeep.2⟩)
  · rw [hbody] at hu
    obtain hgen | ⟨_, v, -, hu⟩ := bind_eq_raised.mp hu
    · rw [hgen] at hkeep
      obtain ⟨v, rfl⟩ := genNode_eq_raised hgen
      exact .inr (.inr ⟨hv, hkeep.1, .inr ⟨rfl, rfl⟩, hkeep.2⟩)
    · cases hu
  · exact .inr (.inl (noTables_coreReset u))

theorem des_tables {s t : State} (h : exec .des s = .next t) :
    NoTables t ∨ ∃ tr k, tr.size ≤ 513 ∧ t = desResult tr k s := by
  obtain ⟨u, hu, rfl⟩ | ⟨e, u, hu, rfl⟩ | ⟨u, -, rfl⟩ := runCommand_cases (body := desBody) h
  · obtain ⟨tr, k, rest, -, hcap, rfl⟩ := desBody_eq_ok hu
    exact .inr ⟨tr, k, hcap, rfl⟩
  · have hno : NoTables u := noTables_of_desBody_raised hu
    exact .inl hno
  · exact .inl (noTables_coreReset u)

theorem stream_tables {i : Instr} {s t : State} (h : exec i s = .next t)
    (hi : i ≠ .clear ∧ i ≠ .build ∧ i ≠ .gentab ∧ i ≠ .des) : SameTables s t ∨ NoTables t := by
  obtain ⟨hclear, hbuild, hgentab, hdes⟩ := hi
  obtain ⟨u, hu, ht⟩ := exec_cases (P := SameTables s) h
    { clearAll := fun he => absurd he hclear
      buildEffect := fun he => absurd he hbuild
      clearTable := fun he => he.elim (absurd · hgentab) (absurd · hdes)
      writeCode := fun he => absurd he hgentab
      tableValid := fun he => absurd he hgentab
      treeRegs := fun he => absurd he hdes
      writeNode := fun he => absurd he hdes
      setChildren := fun he => absurd he hdes } (sameTables_refl s)
  obtain rfl | ⟨e, -, rfl⟩ | rfl := ht
  · exact .inl hu
  · exact .inl hu
  · exact .inr (noTables_coreReset u)

/-- What a command leaves of the tree and the table: both as they were, neither, BUILD's tree, the tree DES read, or GENTAB's
table for the tree held. -/
theorem exec_tables {i : Instr} {s t : State} (h : exec i s = .next t) :
    SameTables s t ∨ NoTables t ∨ t = done (buildEffect (clearOutcome s)) ∨
      (∃ tr k, tr.size ≤ 513 ∧ t = desResult tr k s) ∨ (i = .gentab ∧ TableMade s t) := by
  cases i with
  | clear =>
    obtain rfl := Host.Outcome.next.inj ((exec_clear s).symm.trans h)
    exact .inr (.inl ⟨rfl, rfl, rfl, rfl, rfl, rfl⟩)
  | build =>
    obtain rfl := Host.Outcome.next.inj ((exec_build s).symm.trans h)
    exact .inr (.inr (.inl rfl))
  | des =>
    obtain hno | hread := des_tables h
    · exact .inr (.inl hno)
    · exact .inr (.inr (.inr (.inl hread)))
  | gentab =>
    obtain hsame | hno | hmade := gentab_tables h
    · exact .inl hsame
    · exact .inr (.inl hno)
    · exact .inr (.inr (.inr (.inr ⟨rfl, hmade⟩)))
  | _ =>
    obtain hsame | hno := stream_tables h (by simp)
    · exact .inl hsame
    · exact .inr (.inl hno)

/-! ### What the host's moves are made of -/

/-- `P` is kept by each update that a move of the host makes. A field left out is an update that changes nothing `P` speaks of. -/
structure KeptByHost (P : State → Prop) : Prop where
  hostFields : ∀ sc w f d t, P t → P { t with script := sc, hostWord := w, hostFail := f, draws := d } := by
    exact fun _ _ _ _ _ h => h
  accept : ∀ w t, P t → P (accept w t) := by exact fun _ _ h => h
  setDrop : ∀ t, P t → P (setDrop t) := by exact fun _ h => h
  writeFreq : ∀ i v t, P t → P (writeFreq i v t) := by exact fun _ _ _ h => h
  attachIn : ∀ b t, P t → P (attachIn b t) := by exact fun _ _ h => h
  takeOut : ∀ r t, P t → P (takeOut r t) := by exact fun _ _ h => h

section KeptByHost

variable {P : State → Prop}

theorem memWrite_keeps (h : KeptByHost P) {s : State} (off : Offset) (v : Word) (hs : P s) : P (memWrite off v s) := by
  unfold memWrite
  split
  case h_1 =>
    split
    · exact h.setDrop s hs
    · exact h.accept v s hs
  case h_2 =>
    split
    · exact h.setDrop s hs
    · exact h.writeFreq _ v s hs
  all_goals exact hs

theorem hostLine_keeps (h : KeptByHost P) {l : HostLine} {s t : State} (hline : hostLine l s = .next t) (hs : P s) : P t := by
  cases l with
  | rd off =>
    obtain rfl := Host.Outcome.next.inj hline
    exact h.hostFields s.script _ s.hostFail _ s hs
  | wr off v =>
    obtain rfl := Host.Outcome.next.inj hline
    exact memWrite_keeps h off v hs
  | attach b =>
    simp only [hostLine] at hline
    split at hline
    · cases hline
    · obtain rfl := Host.Outcome.next.inj hline
      exact h.attachIn b s hs
  | take r =>
    simp only [hostLine] at hline
    split at hline
    · cases hline
    · obtain rfl := Host.Outcome.next.inj hline
      exact h.takeOut r s hs
  | wait =>
    obtain rfl := Host.Outcome.next.inj hline
    split
    · exact h.hostFields (.wait :: s.script) _ s.hostFail _ s hs
    · exact h.hostFields s.script _ s.hostFail _ s hs
  | stopIfErr =>
    obtain rfl := Host.Outcome.next.inj hline
    split
    · exact h.hostFields [] s.hostWord _ s.draws s hs
    · exact hs

theorem hostMove_keeps (h : KeptByHost P) {s t : State} (hmove : hostMove s = .next t) (hs : P s) : P t := by
  unfold hostMove at hmove
  split at hmove
  case h_1 => exact Host.Outcome.next.inj hmove ▸ hs
  case h_2 l rest _ => exact hostLine_keeps h hmove (h.hostFields rest s.hostWord s.hostFail s.draws s hs)

end KeptByHost

/-! ### The registers' invariant -/

/-- The clauses of the registers' invariant that every update of a command keeps. -/
structure RegBase (s : State) : Prop where
  memory : Memory.wf s
  err_iff : s.err = false ↔ s.errcode = 0
  code_le : s.errcode.toNat ≤ 11
  pending : s.busy = true → s.pending ≠ none
  code : ∀ c ∈ s.code, c.canonical
  in_pos : s.inp.pos ≤ s.inp.bits.length
  out_closed : s.out.closed = true → s.out.bits.length % 8 = 0

/-- The clauses that tie TREE_VALID and TABLE_VALID to the registers and the table. -/
structure FlagInv (s : State) : Prop where
  table_tree : s.tableValid = true → s.treeValid = true
  no_tree : s.treeValid = false → s.root = 0 ∧ s.nodes = 0 ∧ s.leaves = 0
  no_table : s.tableValid = false → s.code = emptyCode

theorem regInv_iff {s : State} : RegInv s ↔ RegBase s ∧ FlagInv s :=
  ⟨fun h => ⟨{ h with }, { h with }⟩, fun ⟨h, hf⟩ => { h, hf with }⟩

theorem canonical_of_mem_emptyCode : ∀ c ∈ emptyCode, c.canonical :=
  fun _ hc => List.eq_of_mem_replicate hc ▸ empty_canonical

/-- The clauses at the start of a command. -/
theorem regBase_clearOutcome {s : State} (h : RegBase s) : RegBase (clearOutcome s) :=
  { h with err_iff := ⟨fun _ => rfl, fun _ => rfl⟩, code_le := Nat.zero_le _ }

theorem regBase_done {s : State} (h : RegBase s) : RegBase (done s) :=
  { h with pending := fun hb => absurd hb Bool.false_ne_true }

/-- Every error has a number from 1 to 11 (R300). -/
theorem errNumber_bounds (e : ErrCode) : errNumber e ≠ 0 ∧ (errNumber e).toNat ≤ 11 := by
  cases e <;> decide

theorem regBase_raiseError {s : State} (h : RegBase s) (e : ErrCode) : RegBase (raiseError e s) :=
  { h with
    err_iff := ⟨fun herr => absurd herr.symm Bool.false_ne_true, fun hcode => absurd hcode (errNumber_bounds e).1⟩
    code_le := (errNumber_bounds e).2
    pending := fun hb => absurd hb Bool.false_ne_true }

theorem regBase_coreReset {s : State} (hpos : s.inp.pos ≤ s.inp.bits.length)
    (hout : s.out.closed = true → s.out.bits.length % 8 = 0) : RegBase (coreReset s) where
  memory := wf_coreReset s
  err_iff := ⟨fun _ => rfl, fun _ => rfl⟩
  code_le := Nat.zero_le _
  pending := fun hb => absurd hb Bool.false_ne_true
  code := canonical_of_mem_emptyCode
  in_pos := hpos
  out_closed := hout

/-- Every update of a command keeps the clauses: a read moves inside IN, a write finds OUT open, a close pads it. -/
theorem keptBy_regBase (i : Instr) : KeptBy i RegBase where
  dropAnswer := fun _ h => { h with }
  moveIn := fun _ _ _ h hp => { h with in_pos := hp h.in_pos }
  appendOut := fun _ _ _ h ho => { h with out_closed := fun hc => absurd (ho.symm.trans hc) Bool.false_ne_true }
  finishOut := fun _ t h _ => { h with out_closed := fun _ => closedOut_length t.out }
  moveCur := fun _ _ _ h => { h with }
  clearAll := fun _ _ h => { h with memory := wf_clearAll h.memory, code := canonical_of_mem_emptyCode }
  buildEffect := fun _ _ h => { h with memory := wf_buildEffect h.memory, code := canonical_of_mem_emptyCode }
  clearTable := fun _ _ h => { h with memory := wf_clearTable h.memory, code := canonical_of_mem_emptyCode }
  writeCode := fun _ _ p _ h hp =>
    { h with
      memory := wf_writeCode h.memory _ _
      code := fun c hc => (List.mem_or_eq_of_mem_set hc).elim (h.code c) fun he => he ▸ pathEntry_canonical p hp }
  tableValid := fun _ _ h => { h with }
  treeRegs := fun _ _ _ _ _ _ h => { h with }
  writeNode := fun _ _ _ _ h => { h with memory := wf_writeNode h.memory _ _ }
  setChildren := fun _ _ _ _ _ h => { h with memory := wf_setChildren h.memory _ _ _ }

theorem regBase_takeOut {s : State} (h : RegBase s) (r : Bool) : RegBase (takeOut r s) := by
  cases r with
  | true => exact { h with out_closed := fun hc => absurd hc Bool.false_ne_true }
  | false => exact { h with }

theorem keptByHost_regBase : KeptByHost RegBase where
  hostFields := fun _ _ _ _ _ h => { h with }
  accept := fun _ _ h => { h with pending := fun _ => Option.some_ne_none _ }
  setDrop := fun _ h => { h with }
  writeFreq := fun _ _ _ h => { h with memory := wf_writeFreq h.memory _ _ }
  attachIn := fun _ _ h => { h with in_pos := Nat.zero_le _ }
  takeOut := fun _ _ h => regBase_takeOut h _

theorem flagInv_of_sameTables {s t : State} (h : FlagInv s) (hst : SameTables s t) : FlagInv t := by
  obtain ⟨htree, htable, hroot, hnodes, hleaves, -, hcode⟩ := hst
  constructor
  · rw [htree, htable]; exact h.table_tree
  · rw [htree, hroot, hnodes, hleaves]; exact h.no_tree
  · rw [htable, hcode]; exact h.no_table

theorem flagInv_of_noTables {t : State} (h : NoTables t) : FlagInv t := by
  obtain ⟨-, htable, hroot, hnodes, hleaves, hcode⟩ := h
  exact ⟨fun h => absurd (htable.symm.trans h) Bool.false_ne_true, fun _ => ⟨hroot, hnodes, hleaves⟩, fun _ => hcode⟩

/-- A tree without a table. -/
theorem flagInv_of_tree {t : State} (htree : t.treeValid = true) (hcode : t.tableValid = false → t.code = emptyCode) :
    FlagInv t :=
  ⟨fun _ => htree, fun h => absurd (h.symm.trans htree) Bool.false_ne_true, hcode⟩

theorem flagInv_exec {i : Instr} {s t : State} (h : FlagInv s) (hexec : exec i s = .next t) : FlagInv t := by
  obtain hsame | hno | rfl | ⟨tr, k, -, rfl⟩ | ⟨-, -, htree, hmade, -⟩ := exec_tables hexec
  · exact flagInv_of_sameTables h hsame
  · exact flagInv_of_noTables hno
  · exact flagInv_of_tree rfl fun _ => rfl
  · exact flagInv_of_tree rfl fun _ => rfl
  · exact flagInv_of_tree htree fun hv => hmade.elim (fun ht => absurd (hv.symm.trans ht) Bool.false_ne_true) And.right

theorem regInv_exec {i : Instr} {s t : State} (h : RegInv s) (hexec : exec i s = .next t) : RegInv t := by
  obtain ⟨hbase, hflags⟩ := regInv_iff.mp h
  refine regInv_iff.mpr ⟨?_, flagInv_exec hflags hexec⟩
  obtain ⟨u, hu, rfl | ⟨e, -, rfl⟩ | rfl⟩ := exec_cases hexec (keptBy_regBase i) (regBase_clearOutcome hbase)
  · exact regBase_done hu
  · exact regBase_raiseError hu e
  · exact regBase_coreReset hu.in_pos hu.out_closed

theorem regInv_failedWith {s : State} (h : RegInv s) (e : ErrCode) : RegInv (failedWith e s) := by
  obtain ⟨hbase, hflags⟩ := regInv_iff.mp h
  exact regInv_iff.mpr ⟨regBase_raiseError hbase e, { hflags with }⟩

theorem regInv_passTurn {s : State} (h : RegInv s) : RegInv (passTurn s) := { h with }

theorem regInv_coreReset {s : State} (hpos : s.inp.pos ≤ s.inp.bits.length)
    (hout : s.out.closed = true → s.out.bits.length % 8 = 0) : RegInv (coreReset s) :=
  regInv_iff.mpr ⟨regBase_coreReset hpos hout, flagInv_of_noTables (noTables_coreReset s)⟩

theorem keptByHost_sameTables (s : State) : KeptByHost (SameTables s) := {}

theorem regInv_hostMove {s t : State} (h : RegInv s) (hmove : hostMove s = .next t) : RegInv t := by
  obtain ⟨hbase, hflags⟩ := regInv_iff.mp h
  exact regInv_iff.mpr ⟨hostMove_keeps keptByHost_regBase hmove hbase,
    flagInv_of_sameTables hflags (hostMove_keeps (keptByHost_sameTables s) hmove (sameTables_refl s))⟩

/-- What the core's move is: a command on its word, or E_ILLEGAL (R153). -/
theorem executePending_cases {s t : State} (h : executePending s = .next t) :
    (∃ i, exec i s = .next t) ∨ t = failedWith .illegal s := by
  unfold executePending at h
  split at h
  case h_1 w _ =>
    obtain ⟨i, -, hi⟩ | ⟨-, rfl⟩ := runWord_cases h
    · exact .inl ⟨i, hi⟩
    · exact .inr rfl
  case h_2 => cases h

/-- Settles O56: each agent's move keeps the clauses, a command's by the updates its pseudocode is made of. -/
theorem registersKeepTheirInvariant : Obligations.RegistersKeepTheirInvariant := by
  intro s t h hstep
  have hpass := regInv_passTurn h
  obtain ⟨-, hcore⟩ | ⟨-, hhost⟩ | rfl | rfl := step_cases hstep
  · obtain ⟨i, hexec⟩ | rfl := executePending_cases hcore
    · exact regInv_exec hpass hexec
    · exact regInv_failedWith hpass .illegal
  · exact regInv_hostMove hpass hhost
  · exact regInv_coreReset hpass.in_pos hpass.out_closed
  · exact hpass

/-! ### What TREE_VALID and TABLE_VALID promise -/

theorem wellFormedTree_congr {s t : State} (h : WellFormedTree s) (hroot : t.root = s.root) (hnodes : t.nodes = s.nodes)
    (hleaves : t.leaves = s.leaves) (hnode : t.node = s.node) : WellFormedTree t := by
  have hused : usedRecords t = usedRecords s := by rw [usedRecords, usedRecords, hnodes, hnode]
  obtain ⟨l, hl, hperm⟩ := h.once
  constructor
  · rw [hnodes]; exact h.nodes_pos
  · rw [hnodes]; exact h.nodes_le
  · rw [hroot, hnodes]; exact h.root_lt
  · rw [hused, hnodes]; exact h.children
  · rw [hroot, hnodes]; exact ⟨l, (indicesAt_congr hnodes hnode _ _).trans hl, hperm⟩
  · rw [hused, hleaves]; exact h.leaves_count
  · rw [hnodes, hleaves]; exact h.nodes_eq

theorem heldTree_congr {s t : State} (hroot : t.root = s.root) (hnodes : t.nodes = s.nodes) (hnode : t.node = s.node) :
    heldTree t = heldTree s := by
  rw [heldTree, heldTree, hroot, treeAt_congr hnodes hnode]

theorem promise_of_sameTables {s t : State} (htree : TreeInv s) (htable : TableInv s) (h : SameTables s t) :
    TreeInv t ∧ TableInv t := by
  obtain ⟨hv, htv, hroot, hnodes, hleaves, hnode, hcode⟩ := h
  refine ⟨fun hvt => wellFormedTree_congr (htree (hv ▸ hvt)) hroot hnodes hleaves hnode, fun hvt => ?_⟩
  obtain ⟨tr, htr, hentry⟩ := htable (htv ▸ hvt)
  exact ⟨tr, (heldTree_congr hroot hnodes hnode).trans htr, fun sym hs => (readCode_congr hcode sym).trans (hentry sym hs)⟩

theorem promise_of_noTables {t : State} (h : NoTables t) : TreeInv t ∧ TableInv t := by
  obtain ⟨hv, htv, -⟩ := h
  exact ⟨fun h => absurd (hv.symm.trans h) Bool.false_ne_true, fun h => absurd (htv.symm.trans h) Bool.false_ne_true⟩

theorem wellFormedTree_desResult {s : State} {tr : Tree} (k : Nat) (hw : Memory.wf s) (hcap : tr.size ≤ 513) :
    WellFormedTree (desResult tr k s) := by
  obtain ⟨-, hnode, -⟩ := hw
  exact (wellFormedTree_of_records hnode hcap rfl (BitVec.zero_add _) (BitVec.zero_add _) rfl).2

/-- GENTAB over a well-formed tree leaves that tree's table, or none (R230, R235). -/
theorem tableInv_exec_gentab {s t : State} (htree : TreeInv s) (hv : s.treeValid = true) (hexec : exec .gentab s = .next t) :
    TableInv t := by
  obtain ⟨tr, htr, -⟩ := (htree hv).heldTree
  by_cases hgt : ∃ x ∈ tr.symbols, 256 < x
  · obtain rfl := Host.Outcome.next.inj ((exec_gentab_symRange hv htr hgt).symm.trans hexec)
    exact fun h => absurd h Bool.false_ne_true
  · have hle : ∀ x ∈ tr.symbols, x ≤ 256 := fun x hx => Nat.not_lt.mp fun hlt => hgt ⟨x, hx, hlt⟩
    obtain rfl := Host.Outcome.next.inj ((exec_gentab hv htr hle).symm.trans hexec)
    refine fun _ => ⟨tr, .trans ?_ htr, fun sym hs => readCode_of_code_eq rfl hs⟩
    exact heldTree_congr rfl rfl rfl

theorem promise_exec {i : Instr} {s t : State} (hw : Memory.wf s) (htree : TreeInv s) (htable : TableInv s)
    (hexec : exec i s = .next t) : TreeInv t ∧ TableInv t := by
  obtain hsame | hno | rfl | ⟨tr, k, hcap, rfl⟩ | ⟨rfl, hv, -, -, hroot, hnodes, hleaves, hnode⟩ := exec_tables hexec
  · exact promise_of_sameTables htree htable hsame
  · exact promise_of_noTables hno
  · exact ⟨fun _ => wellFormedTree_congr (wellFormedTree_buildEffect (clearOutcome s)) rfl rfl rfl rfl,
      fun h => absurd h Bool.false_ne_true⟩
  · exact ⟨fun _ => wellFormedTree_desResult k hw hcap, fun h => absurd h Bool.false_ne_true⟩
  · exact ⟨fun _ => wellFormedTree_congr (htree hv) hroot hnodes hleaves hnode, tableInv_exec_gentab htree hv hexec⟩

/-- Settles O57: BUILD and DES leave well-formed trees without a table, GENTAB the table of the tree held, and every other
move leaves both as they were or neither. -/
theorem treeAndTableKeepTheirPromise : Obligations.TreeAndTableKeepTheirPromise := by
  rintro s t ⟨hreg, htree, htable⟩ hstep
  obtain ⟨htree', htable'⟩ := promise_of_sameTables htree htable (t := passTurn s) (sameTables_refl s)
  obtain ⟨-, hcore⟩ | ⟨-, hhost⟩ | rfl | rfl := step_cases hstep
  · obtain ⟨i, hexec⟩ | rfl := executePending_cases hcore
    · exact promise_exec (s := passTurn s) hreg.memory htree' htable' hexec
    · exact promise_of_sameTables htree htable (t := failedWith .illegal (passTurn s)) (sameTables_refl s)
  · exact promise_of_sameTables htree' htable'
      (hostMove_keeps (keptByHost_sameTables (passTurn s)) hhost (sameTables_refl _))
  · exact promise_of_noTables (noTables_coreReset _)
  · exact ⟨htree', htable'⟩

/-- Settles O55: the model's first state is what a reset of it leaves. -/
theorem resetMeetsTheInvariant : Obligations.ResetMeetsTheInvariant := by
  obtain ⟨htree, htable⟩ := promise_of_noTables (noTables_coreReset State.reset)
  exact ⟨regInv_coreReset (s := State.reset) (Nat.le_refl 0) fun h => absurd h Bool.false_ne_true, htree, htable⟩

end Sys2Proof.Machine
end

section
/-! Records at or above NODES, HEAP and CUR are unobservable (R45, R46, R50, R51): two runs of a command, or of any step, from
states that differ in them alone end alike. -/

namespace Sys2Proof.Machine

/-! ### States that differ in hidden fields -/

/-- The state with other contents in the node store, HEAP and CUR. -/
def withHidden (N : List Node) (H : List Nat) (C : NodeIdx) (s : State) : State := { s with node := N, heap := H, cur := C }

/-- The two states differ at most in HEAP, CUR and the records at or above `n`. -/
def SameBelow (n : Nat) (s u : State) : Prop :=
  ∃ N H C, u = withHidden N H C s ∧ N.length = s.node.length ∧ ∀ i < n, N[i]? = s.node[i]?

theorem sameBlock_iff {s u : State} : SameBlock s u ↔ SameBelow s.nodes.toNat s u := by
  constructor
  · rintro ⟨hu, hlen, hbelow⟩
    exact ⟨u.node, u.heap, u.cur, hu, hlen, hbelow⟩
  · rintro ⟨N, H, C, rfl, hlen, hbelow⟩
    exact ⟨rfl, hlen, hbelow⟩

/-- As `SameBlock`, with the same CUR: what DECODE's walk keeps. -/
def SameWalk (s u : State) : Prop := SameBlock s u ∧ u.cur = s.cur

/-- A relation between states that differ in hidden fields alone, and that the ports and the answers do not feel. -/
structure PortBlind (R : State → State → Prop) : Prop where
  hidden : ∀ s u, R s u → ∃ N H C, u = withHidden N H C s
  ports : ∀ s u as i o, R s u → R { s with answers := as, inp := i, out := o } { u with answers := as, inp := i, out := o }

theorem portBlind_sameBlock : PortBlind SameBlock where
  hidden := fun _ _ h => let ⟨N, H, C, hu, _⟩ := sameBlock_iff.mp h; ⟨N, H, C, hu⟩
  ports := by
    intro s u as i o h
    obtain ⟨N, H, C, rfl, hlen, hbelow⟩ := sameBlock_iff.mp h
    exact sameBlock_iff.mpr ⟨N, H, C, rfl, hlen, hbelow⟩

theorem portBlind_sameWalk : PortBlind SameWalk where
  hidden := fun s u h => portBlind_sameBlock.hidden s u h.1
  ports := fun s u as i o h => ⟨portBlind_sameBlock.ports s u as i o h.1, h.2⟩

/-! ### Pieces of pseudocode that end alike -/

/-- The two runs end in the same way, with the same value or error, in states related by `R`; a reset leaves hidden fields
alone to differ. -/
def Flow.Alike {α : Type} (R : State → State → Prop) : Flow α → Flow α → Prop
  | .ok a s, .ok b u => a = b ∧ R s u
  | .raised e s, .raised f u => e = f ∧ R s u
  | .abandoned s, .abandoned u => ∃ N H C, u = withHidden N H C s
  | .stuck _, .stuck _ => True
  | _, _ => False

section Alike

variable {R : State → State → Prop} {α β : Type}

theorem alike_ok {a : α} {s u : State} (h : R s u) : (Flow.ok a s).Alike R (.ok a u) := ⟨rfl, h⟩

theorem alike_raised {e : ErrCode} {s u : State} (h : R s u) : (Flow.raised e s : Flow α).Alike R (.raised e u) := ⟨rfl, h⟩

/-- Two runs that are alike end in the same way. -/
theorem alike_cases {x y : Flow α} (h : x.Alike R y) :
    (∃ a s u, x = .ok a s ∧ y = .ok a u ∧ R s u) ∨ (∃ e s u, x = .raised e s ∧ y = .raised e u ∧ R s u) ∨
      (∃ s u, x = .abandoned s ∧ y = .abandoned u ∧ ∃ N H C, u = withHidden N H C s) ∨ ∃ f g, x = .stuck f ∧ y = .stuck g := by
  unfold Flow.Alike at h
  split at h
  · obtain ⟨rfl, h⟩ := h
    exact .inl ⟨_, _, _, rfl, rfl, h⟩
  · obtain ⟨rfl, h⟩ := h
    exact .inr (.inl ⟨_, _, _, rfl, rfl, h⟩)
  · exact .inr (.inr (.inl ⟨_, _, rfl, rfl, h⟩))
  · exact .inr (.inr (.inr ⟨_, _, rfl, rfl⟩))
  · exact h.elim

theorem alike_bind {x y : Flow α} {f g : α → State → Flow β} (hx : x.Alike R y)
    (hf : ∀ a s u, R s u → (f a s).Alike R (g a u)) : (x.bind f).Alike R (y.bind g) := by
  obtain ⟨a, s, u, rfl, rfl, h⟩ | ⟨e, s, u, rfl, rfl, h⟩ | ⟨s, u, rfl, rfl, hhidden⟩ | ⟨r, q, rfl, rfl⟩ := alike_cases hx
  · exact hf a s u h
  · exact alike_raised h
  · exact hhidden
  · trivial

theorem alike_mono {Q : State → State → Prop} {x y : Flow α} (hx : x.Alike R y) (h : ∀ s u, R s u → Q s u) :
    x.Alike Q y := by
  obtain ⟨a, s, u, rfl, rfl, hR⟩ | ⟨e, s, u, rfl, rfl, hR⟩ | ⟨s, u, rfl, rfl, hhidden⟩ | ⟨r, q, rfl, rfl⟩ := alike_cases hx
  · exact alike_ok (h s u hR)
  · exact alike_raised (h s u hR)
  · exact hhidden
  · trivial

/-- A test that comes out the same for both runs. -/
theorem alike_ite {c d : Prop} [Decidable c] [Decidable d] (hcd : c ↔ d) {x y x' y' : Flow α} (hx : x.Alike R x')
    (hy : y.Alike R y') : (if c then x else y).Alike R (if d then x' else y') := by
  by_cases hc : c
  · rw [if_pos hc, if_pos (hcd.mp hc)]; exact hx
  · rw [if_neg hc, if_neg (mt hcd.mpr hc)]; exact hy

/-- A read returns the same to both runs; it raises nothing, so what follows may keep another relation. -/
theorem alike_readBits {Q : State → State → Prop} {n : Nat} {s u : State} {f g : ReadResult → State → Flow β}
    (hR : PortBlind R) (h : R s u) (hf : ∀ r s u, R s u → (f r s).Alike Q (g r u)) :
    ((readBits n s).bind f).Alike Q ((readBits n u).bind g) := by
  obtain ⟨N, H, C, rfl⟩ := hR.hidden s u h
  have hmove (p : Nat) : R (moveIn p (dropAnswer s)) (moveIn p (dropAnswer (withHidden N H C s))) :=
    hR.ports s (withHidden N H C s) s.answers.tail ⟨s.inp.bits, p⟩ s.out h
  have hnext : nextAnswer (withHidden N H C s) = nextAnswer s := rfl
  unfold readBits
  rw [hnext]
  cases nextAnswer s with
  | resetFirst => exact ⟨N, H, C, rfl⟩
  | fails k => exact hf _ _ _ (hmove _)
  | succeeds =>
    by_cases hlt : s.inp.bits.length < s.inp.pos + n
    · simp only [withHidden, hlt, if_true]
      exact hf _ _ _ (hmove _)
    · simp only [withHidden, hlt, if_false]
      exact hf _ _ _ (hmove _)

theorem alike_emitBits {n v : Nat} {s u : State} (hR : PortBlind R) (h : R s u) :
    (emitBits n v s).Alike R (emitBits n v u) := by
  obtain ⟨N, H, C, rfl⟩ := hR.hidden s u h
  have happend (b : BitString) : R (appendOut b (dropAnswer s)) (appendOut b (dropAnswer (withHidden N H C s))) :=
    hR.ports s (withHidden N H C s) s.answers.tail s.inp ⟨s.out.bits ++ b, s.out.closed⟩ h
  have hout : (withHidden N H C s).out = s.out := rfl
  have hnext : nextAnswer (withHidden N H C s) = nextAnswer s := rfl
  unfold emitBits orIoError writeBits
  rw [hout, hnext]
  split
  · exact alike_raised h
  · cases nextAnswer s with
    | resetFirst => exact ⟨N, H, C, rfl⟩
    | fails k => exact alike_raised (happend _)
    | succeeds => exact alike_ok (happend _)

/-- Only records below NODES are read (R45, R88). -/
theorem alike_readNode {i : NodeIdx} {s u : State} (hR : ∀ s u, R s u → SameBlock s u) (h : R s u) :
    (readNode i s).Alike R (readNode i u) := by
  obtain ⟨N, H, C, rfl, -, hbelow⟩ := sameBlock_iff.mp (hR s u h)
  unfold readNode
  by_cases hi : i.toNat < s.nodes.toNat
  · simp only [withHidden, hi, if_true, hbelow _ hi]
    cases s.node[i.toNat]? with
    | none => trivial
    | some r => exact alike_ok h
  · simp only [withHidden, hi, if_false]
    trivial

end Alike

/-! ### The commands -/

theorem alike_serNode (n : Nat) (i : NodeIdx) {s u : State} (h : SameBlock s u) :
    (serNode n i s).Alike SameBlock (serNode n i u) := by
  induction n generalizing i s u with
  | zero => trivial
  | succ n ih =>
    refine alike_bind (alike_readNode (fun _ _ h => h) h) fun r s u h => ?_
    cases r.leaf with
    | true =>
      exact alike_bind (alike_emitBits portBlind_sameBlock h) fun _ s u h => alike_emitBits portBlind_sameBlock h
    | false =>
      exact alike_bind (alike_emitBits portBlind_sameBlock h) fun _ s u h => alike_bind (ih _ h) fun _ s u h => ih _ h

theorem sameBlock_clearTable {s u : State} (h : SameBlock s u) : SameBlock (clearTable s) (clearTable u) := by
  obtain ⟨N, H, C, rfl, hlen, hbelow⟩ := sameBlock_iff.mp h
  exact sameBlock_iff.mpr ⟨N, H, C, rfl, hlen, hbelow⟩

theorem sameBlock_writeCode {s u : State} (h : SameBlock s u) (i : Nat) (c : CodeEntry) :
    SameBlock (writeCode i c s) (writeCode i c u) := by
  obtain ⟨N, H, C, rfl, hlen, hbelow⟩ := sameBlock_iff.mp h
  exact sameBlock_iff.mpr ⟨N, H, C, rfl, hlen, hbelow⟩

theorem alike_genNode (n : Nat) (i : NodeIdx) (p : BitString) {s u : State} (h : SameBlock s u) :
    (genNode n i p s).Alike SameBlock (genNode n i p u) := by
  induction n generalizing i p s u with
  | zero => trivial
  | succ n ih =>
    refine alike_bind (alike_readNode (fun _ _ h => h) h) fun r s u h => ?_
    split
    · split
      · exact alike_raised (sameBlock_clearTable h)
      · exact alike_ok (sameBlock_writeCode h _ _)
    · exact alike_bind (ih _ _ h) fun _ s u h => ih _ _ h

theorem alike_lookupAndEmit (sym : Nat) {s u : State} (h : SameBlock s u) :
    (lookupAndEmit sym s).Alike SameBlock (lookupAndEmit sym u) := by
  obtain ⟨N, H, C, rfl⟩ := portBlind_sameBlock.hidden s u h
  have hcode : readCode sym (withHidden N H C s) = readCode sym s := rfl
  unfold lookupAndEmit emitCode
  rw [hcode]
  simp only
  split
  · split
    · exact alike_emitBits portBlind_sameBlock h
    · exact alike_ok h
  · exact alike_raised h

theorem alike_encLoop (n : Nat) {s u : State} (h : SameBlock s u) : (encLoop n s).Alike SameBlock (encLoop n u) := by
  induction n generalizing s u with
  | zero => trivial
  | succ n ih =>
    refine alike_readBits portBlind_sameBlock h fun r s u h => ?_
    cases r with
    | ioFail => exact alike_raised h
    | eos => exact alike_ok h
    | val v => exact alike_bind (alike_lookupAndEmit v h) fun _ s u h => ih h

theorem sameWalk_moveCur {s u : State} (h : SameBlock s u) (i : NodeIdx) : SameWalk (moveCur i s) (moveCur i u) := by
  obtain ⟨N, H, C, rfl, hlen, hbelow⟩ := sameBlock_iff.mp h
  exact ⟨sameBlock_iff.mpr ⟨N, H, i, rfl, hlen, hbelow⟩, rfl⟩

theorem sameBlock_root {s u : State} (h : SameBlock s u) : u.root = s.root := by
  obtain ⟨N, H, C, rfl⟩ := portBlind_sameBlock.hidden s u h
  rfl

/-- The walk of DECODE reads CUR, which its start has set (R51, R270). -/
theorem alike_decodeLoop (n : Nat) {s u : State} (h : SameWalk s u) : (decodeLoop n s).Alike SameWalk (decodeLoop n u) := by
  induction n generalizing s u with
  | zero => trivial
  | succ n ih =>
    refine alike_readBits portBlind_sameWalk h fun b s u h => ?_
    cases b with
    | ioFail => exact alike_raised h
    | eos => exact alike_raised h
    | val b =>
      simp only [h.2]
      refine alike_bind (alike_readNode (fun _ _ h => h.1) h) fun r s u h => ?_
      refine alike_bind (alike_readNode (fun _ _ h => h.1) (sameWalk_moveCur h.1 _)) fun r s u h => ?_
      split
      · split
        · exact alike_ok h
        · refine alike_bind (alike_emitBits portBlind_sameWalk h) fun _ s u h => ?_
          rw [sameBlock_root h.1]
          exact ih (sameWalk_moveCur h.1 _)
      · exact ih h

theorem alike_decodeBody {s u : State} (h : SameBlock s u) : (decodeBody s).Alike SameBlock (decodeBody u) := by
  obtain ⟨N, H, C, rfl⟩ := portBlind_sameBlock.hidden s u h
  unfold decodeBody
  refine alike_ite Iff.rfl (alike_mono (R := SameWalk) ?_ fun _ _ h => h.1) (alike_raised h)
  refine alike_bind (alike_readNode (fun _ _ h => h.1) (sameWalk_moveCur h s.root)) fun r s u h => ?_
  obtain ⟨N, H, C, rfl⟩ := portBlind_sameWalk.hidden s u h
  exact alike_ite Iff.rfl (alike_ite Iff.rfl (alike_ok h) (alike_raised h)) (alike_decodeLoop _ h)

/-- With NODES = 0 no record is observable. -/
theorem sameBlock_clearTreeRegs {n : Nat} {s u : State} (h : SameBelow n s u) :
    SameBlock (clearTreeRegs s) (clearTreeRegs u) := by
  obtain ⟨N, H, C, rfl, hlen, -⟩ := h
  exact sameBlock_iff.mpr ⟨N, H, C, rfl, hlen, fun i hi => absurd hi (Nat.not_lt_zero i)⟩

/-- A record allocated is written before any rule reads it (R193, R194). -/
theorem sameBlock_writeNode {i : NodeIdx} {s u : State} (h : SameBelow i.toNat s u) (hn : s.nodes = i + 1) (r : Node) :
    SameBlock (writeNode i r s) (writeNode i r u) := by
  obtain ⟨N, H, C, rfl, hlen, hbelow⟩ := h
  refine sameBlock_iff.mpr ⟨N.set i.toNat r, H, C, rfl, by simp [writeNode, hlen], fun j hj => ?_⟩
  have hji : j ≤ i.toNat := by
    have hlt : j < (i + 1).toNat := hn ▸ hj
    have hle := Nat.mod_le (i.toNat + 1) (2 ^ 10)
    have hadd : (i + 1).toNat = (i.toNat + 1) % 2 ^ 10 := BitVec.toNat_add i 1
    omega
  simp only [writeNode, List.getElem?_set, hlen]
  split
  · rfl
  · exact hbelow j (by omega)

theorem sameBlock_setChildren {s u : State} (h : SameBlock s u) (i l r : NodeIdx) :
    SameBlock (setChildren i l r s) (setChildren i l r u) := by
  obtain ⟨N, H, C, rfl, hlen, hbelow⟩ := sameBlock_iff.mp h
  refine sameBlock_iff.mpr ⟨N.modify i.toNat fun n => { n with left := l, right := r }, H, C, rfl,
    by simp [setChildren, hlen], fun j hj => ?_⟩
  simp only [setChildren, List.getElem?_modify, hbelow j hj]

/-- A record is allocated and not yet written. -/
def Allocated (i : NodeIdx) (s u : State) : Prop := SameBelow i.toNat s u ∧ s.nodes = i + 1

theorem portBlind_allocated (i : NodeIdx) : PortBlind (Allocated i) where
  hidden := fun _ _ h => let ⟨N, H, C, hu, _⟩ := h.1; ⟨N, H, C, hu⟩
  ports := by
    rintro s u as inp o ⟨⟨N, H, C, rfl, hlen, hbelow⟩, hn⟩
    exact ⟨⟨N, H, C, rfl, hlen, hbelow⟩, hn⟩

theorem allocated_of_sameBlock {s u : State} (h : SameBlock s u) :
    Allocated s.nodes { s with nodes := s.nodes + 1 } { u with nodes := s.nodes + 1 } := by
  obtain ⟨N, H, C, rfl, hlen, hbelow⟩ := sameBlock_iff.mp h
  exact ⟨⟨N, H, C, rfl, hlen, hbelow⟩, rfl⟩

theorem alike_desLeaf {i : NodeIdx} {s u : State} (h : Allocated i s u) : (desLeaf i s).Alike SameBlock (desLeaf i u) := by
  refine alike_readBits (portBlind_allocated i) h fun v s u h => ?_
  cases v with
  | ioFail => exact alike_raised (sameBlock_clearTreeRegs h.1)
  | eos => exact alike_raised (sameBlock_clearTreeRegs h.1)
  | val v =>
    have hwrite := sameBlock_writeNode h.1 h.2 (leafNode (BitVec.ofNat 9 v) 0)
    obtain ⟨⟨N, H, C, rfl, -⟩, -⟩ := h
    obtain ⟨hu, hlen, hbelow⟩ := hwrite
    exact alike_ok ⟨rfl, hlen, hbelow⟩

theorem alike_desNode (n : Nat) {s u : State} (h : SameBlock s u) : (desNode n s).Alike SameBlock (desNode n u) := by
  induction n generalizing s u with
  | zero => trivial
  | succ n ih =>
    refine alike_readBits portBlind_sameBlock h fun t s u h => ?_
    have hnodes : u.nodes = s.nodes := by
      obtain ⟨N, H, C, rfl⟩ := portBlind_sameBlock.hidden s u h
      rfl
    have hfail (e : ErrCode) : (desFail e s : Flow NodeIdx).Alike SameBlock (desFail e u) :=
      alike_raised (sameBlock_clearTreeRegs (sameBlock_iff.mp h))
    cases t with
    | ioFail => exact hfail .io
    | eos => exact hfail .eosTree
    | val t =>
      simp only [hnodes]
      split
      · exact hfail .capacity
      · have halloc := allocated_of_sameBlock h
        split
        · exact alike_bind (ih (sameBlock_writeNode halloc.1 halloc.2 _)) fun l s u h => alike_bind (ih h) fun r s u h =>
            alike_ok (sameBlock_setChildren h _ _ _)
        · exact alike_desLeaf halloc

theorem alike_desBody {s u : State} (h : SameBlock s u) : (desBody s).Alike SameBlock (desBody u) := by
  obtain ⟨N, H, C, rfl, hlen, hbelow⟩ := sameBlock_iff.mp h
  have hstart : SameBlock (desStart s) (desStart (withHidden N H C s)) :=
    sameBlock_iff.mpr ⟨N, H, C, rfl, hlen, fun i hi => absurd hi (Nat.not_lt_zero i)⟩
  refine alike_bind (alike_desNode _ hstart) fun r s u h => ?_
  obtain ⟨N, H, C, rfl, hlen, hbelow⟩ := sameBlock_iff.mp h
  exact alike_ok (sameBlock_iff.mpr ⟨N, H, C, rfl, hlen, hbelow⟩)

theorem alike_gentabBody {s u : State} (h : SameBlock s u) : (gentabBody s).Alike SameBlock (gentabBody u) := by
  obtain ⟨N, H, C, rfl⟩ := portBlind_sameBlock.hidden s u h
  refine alike_ite Iff.rfl (alike_bind (alike_genNode _ _ _ (sameBlock_clearTable h)) fun _ s u h => ?_) (alike_raised h)
  obtain ⟨N, H, C, rfl, hlen, hbelow⟩ := sameBlock_iff.mp h
  exact alike_ok (sameBlock_iff.mpr ⟨N, H, C, rfl, hlen, hbelow⟩)

theorem alike_rmagicBody {s u : State} (h : SameBlock s u) : (rmagicBody s).Alike SameBlock (rmagicBody u) := by
  refine alike_readBits portBlind_sameBlock h fun r s u h => ?_
  cases r with
  | ioFail => exact alike_raised h
  | eos => exact alike_raised h
  | val v =>
    simp only
    split
    · exact alike_raised h
    · exact alike_ok h

theorem alike_resetIn {s u : State} (h : SameBlock s u) :
    (orIoError (resetIn s)).Alike SameBlock (orIoError (resetIn u)) := by
  obtain ⟨N, H, C, rfl⟩ := portBlind_sameBlock.hidden s u h
  have hports (i : InPort) := portBlind_sameBlock.ports s (withHidden N H C s) s.answers.tail i s.out h
  have hnext : nextAnswer (withHidden N H C s) = nextAnswer s := rfl
  unfold orIoError resetIn
  rw [hnext]
  cases nextAnswer s with
  | resetFirst => exact ⟨N, H, C, rfl⟩
  | fails k => exact alike_raised (hports s.inp)
  | succeeds => exact alike_ok (hports ⟨s.inp.bits, 0⟩)

theorem alike_closeOut {s u : State} (h : SameBlock s u) :
    (orIoError (closeOut s)).Alike SameBlock (orIoError (closeOut u)) := by
  obtain ⟨N, H, C, rfl⟩ := portBlind_sameBlock.hidden s u h
  have hports (o : OutPort) := portBlind_sameBlock.ports s (withHidden N H C s) s.answers.tail s.inp o h
  have hout : (withHidden N H C s).out = s.out := rfl
  have hnext : nextAnswer (withHidden N H C s) = nextAnswer s := rfl
  unfold orIoError closeOut
  rw [hout, hnext]
  split
  · exact alike_ok h
  · cases nextAnswer s with
    | resetFirst => exact ⟨N, H, C, rfl⟩
    | succeeds => exact alike_ok (hports (closedOut s.out))
    | fails k =>
      by_cases hk : k = 0
      · simp only [hk, if_true]
        exact alike_raised (hports s.out)
      · simp only [hk, if_false]
        exact alike_raised (hports (closedOut s.out))

/-- BUILD writes all the records that NODES then counts (R170). -/
theorem sameBlock_buildEffect {s u : State} (h : SameBlock s u) : SameBlock (buildEffect s) (buildEffect u) := by
  obtain ⟨N, H, C, rfl, hlen, -⟩ := sameBlock_iff.mp h
  refine sameBlock_iff.mpr ⟨(buildTree s.freq).1 ++ N.drop (buildTree s.freq).1.length, (buildTree s.freq).2, C, rfl,
    by simp [buildEffect, writeRecords, clearTable, hlen], fun i hi => ?_⟩
  have hstore : i < (buildTree s.freq).1.length := by
    simp only [buildEffect, BitVec.toNat_ofNat] at hi
    exact hi.trans_le (Nat.mod_le _ _)
  simp only [buildEffect, writeRecords, clearTable, List.getElem?_append_left hstore]

theorem sameBlock_clearAll {s u : State} (h : SameBlock s u) : SameBlock (clearAll s) (clearAll u) := by
  obtain ⟨N, H, C, rfl, hlen, -⟩ := sameBlock_iff.mp h
  exact sameBlock_iff.mpr ⟨N, H, C, rfl, hlen, fun i hi => absurd hi (Nat.not_lt_zero i)⟩

theorem alike_serBody {s u : State} (h : SameBlock s u) : (serBody s).Alike SameBlock (serBody u) := by
  obtain ⟨N, H, C, rfl⟩ := portBlind_sameBlock.hidden s u h
  exact alike_ite Iff.rfl (alike_serNode _ _ h) (alike_raised h)

theorem alike_encBody (sym : Nat) {s u : State} (h : SameBlock s u) : (encBody sym s).Alike SameBlock (encBody sym u) := by
  obtain ⟨N, H, C, rfl⟩ := portBlind_sameBlock.hidden s u h
  exact alike_ite Iff.rfl (alike_ite Iff.rfl (alike_raised h) (alike_lookupAndEmit sym h)) (alike_raised h)

theorem alike_encallBody {s u : State} (h : SameBlock s u) : (encallBody s).Alike SameBlock (encallBody u) := by
  obtain ⟨N, H, C, rfl⟩ := portBlind_sameBlock.hidden s u h
  exact alike_ite Iff.rfl (alike_bind (alike_encLoop _ h) fun _ s u h => alike_lookupAndEmit _ h) (alike_raised h)

/-- No command's pseudocode depends on a hidden field. -/
theorem alike_bodyOf (i : Instr) {s u : State} (h : SameBlock s u) : (bodyOf i s).Alike SameBlock (bodyOf i u) := by
  cases i with
  | nop => exact alike_ok h
  | clear => exact alike_ok (sameBlock_clearAll h)
  | build => exact alike_ok (sameBlock_buildEffect h)
  | ser => exact alike_serBody h
  | des => exact alike_desBody h
  | gentab => exact alike_gentabBody h
  | enc sym => exact alike_encBody sym h
  | encall => exact alike_encallBody h
  | decode => exact alike_decodeBody h
  | wmagic => exact alike_emitBits portBlind_sameBlock h
  | rmagic => exact alike_rmagicBody h
  | rewind => exact alike_resetIn h
  | close => exact alike_closeOut h

/-! ### The moves -/

/-- An update that neither writes nor reads the tree's registers, the node store or a hidden field. -/
theorem sameBlock_update {s u : State} {f : State → State} (h : SameBlock s u)
    (hf : ∀ N H C, f (withHidden N H C s) = withHidden N H C (f s)) (hnode : (f s).node = s.node)
    (hnodes : (f s).nodes = s.nodes) : SameBlock (f s) (f u) := by
  obtain ⟨N, H, C, rfl, hlen, hbelow⟩ := sameBlock_iff.mp h
  exact sameBlock_iff.mpr ⟨N, H, C, hf N H C, by rw [hnode, hlen], by rw [hnode, hnodes]; exact hbelow⟩

/-- A reset leaves nothing of a hidden field. -/
theorem sameBlock_coreReset {s u : State} (h : ∃ N H C, u = withHidden N H C s) : SameBlock (coreReset s) (coreReset u) := by
  obtain ⟨N, H, C, rfl⟩ := h
  exact ⟨rfl, rfl, fun _ _ => rfl⟩

/-- A move of the two states ends alike. -/
def MovesAlike (x y : Host.Outcome State Fault Refusal) : Prop := ∀ t, x = .next t → ∃ v, y = .next v ∧ SameBlock t v

theorem movesAlike_next {t v : State} (h : SameBlock t v) : MovesAlike (.next t) (.next v) := by
  rintro _ ⟨⟩
  exact ⟨v, rfl, h⟩

theorem movesAlike_ite {c d : Prop} [Decidable c] [Decidable d] (hcd : c ↔ d)
    {x y x' y' : Host.Outcome State Fault Refusal} (hx : MovesAlike x x') (hy : MovesAlike y y') :
    MovesAlike (if c then x else y) (if d then x' else y') := by
  by_cases hc : c
  · rw [if_pos hc, if_pos (hcd.mp hc)]; exact hx
  · rw [if_neg hc, if_neg (mt hcd.mpr hc)]; exact hy

theorem movesAlike_refused {r q : Refusal} : MovesAlike (.refused r) (.refused q) := by rintro _ ⟨⟩

theorem movesAlike_fault {r q : Fault} : MovesAlike (.fault r) (.fault q) := by rintro _ ⟨⟩

theorem movesAlike_runCommand {body : State → Flow Unit} {s u : State}
    (h : (body (clearOutcome s)).Alike SameBlock (body (clearOutcome u))) :
    MovesAlike (runCommand body s) (runCommand body u) := by
  unfold runCommand
  obtain ⟨a, t, v, hx, hy, hR⟩ | ⟨e, t, v, hx, hy, hR⟩ | ⟨t, v, hx, hy, hhidden⟩ | ⟨r, q, hx, hy⟩ := alike_cases h <;>
    rw [hx, hy]
  · exact movesAlike_next (sameBlock_update (f := done) hR (fun _ _ _ => rfl) rfl rfl)
  · exact movesAlike_next (sameBlock_update (f := raiseError e) hR (fun _ _ _ => rfl) rfl rfl)
  · exact movesAlike_next (sameBlock_coreReset hhidden)
  · exact movesAlike_fault

theorem sameBlock_clearOutcome {s u : State} (h : SameBlock s u) : SameBlock (clearOutcome s) (clearOutcome u) :=
  sameBlock_update (f := clearOutcome) h (fun _ _ _ => rfl) rfl rfl

theorem movesAlike_exec (i : Instr) {s u : State} (h : SameBlock s u) : MovesAlike (exec i s) (exec i u) := by
  rw [exec_eq_runCommand, exec_eq_runCommand]
  exact movesAlike_runCommand (alike_bodyOf i (sameBlock_clearOutcome h))

theorem movesAlike_runWord (w : Word) {s u : State} (h : SameBlock s u) : MovesAlike (runWord w s) (runWord w u) := by
  unfold runWord
  cases decode w with
  | some i => exact movesAlike_exec i h
  | none => exact movesAlike_runCommand (alike_raised (sameBlock_clearOutcome h))

theorem movesAlike_coreMove {s u : State} (h : SameBlock s u) : MovesAlike (coreMove s) (coreMove u) := by
  obtain ⟨N, H, C, rfl⟩ := portBlind_sameBlock.hidden s u h
  refine movesAlike_ite Iff.rfl ?_ (movesAlike_next h)
  have hpending : (withHidden N H C s).pending = s.pending := rfl
  unfold executePending
  rw [hpending]
  cases s.pending with
  | some w => exact movesAlike_runWord w h
  | none => exact movesAlike_fault

/-- No access returns a word of a hidden field (R46). -/
theorem memRead_of_sameBlock (off : Offset) {s u : State} (h : SameBlock s u) : memRead off u = memRead off s := by
  obtain ⟨N, H, C, rfl, -, hbelow⟩ := sameBlock_iff.mp h
  have hidle : idleRead (regAt off) (withHidden N H C s) = idleRead (regAt off) s := by
    cases regAt off with
    | nodeWord i k =>
      simp only [idleRead, nodeWordAt, withHidden, List.getD_eq_getElem?_getD]
      split
      · rw [hbelow i ‹_›]
      · rfl
    | _ => rfl
  have hbusy (d : Word) : busyRead (regAt off) d (withHidden N H C s) = busyRead (regAt off) d s := by
    cases regAt off <;> rfl
  unfold memRead
  rw [hidle, hbusy]
  rfl

theorem sameBlock_hostRead (off : Offset) {s u : State} (h : SameBlock s u) : SameBlock (hostRead off s) (hostRead off u) := by
  have hread := memRead_of_sameBlock off h
  obtain ⟨N, H, C, rfl, hlen, hbelow⟩ := sameBlock_iff.mp h
  refine sameBlock_iff.mpr ⟨N, H, C, ?_, hlen, hbelow⟩
  unfold hostRead
  rw [hread]
  rfl

theorem sameBlock_ite {c d : Prop} [Decidable c] [Decidable d] (hcd : c ↔ d) {s t u v : State} (hs : SameBlock s u)
    (ht : SameBlock t v) : SameBlock (if c then s else t) (if d then u else v) := by
  by_cases hc : c
  · rw [if_pos hc, if_pos (hcd.mp hc)]; exact hs
  · rw [if_neg hc, if_neg (mt hcd.mpr hc)]; exact ht

/-- The lines and turns to come, and how the host stopped. -/
theorem sameBlock_hostFields {s u : State} (h : SameBlock s u) (sc : List HostLine) (ts : List Turn)
    (f : Option (BitVec 4)) : SameBlock { s with script := sc, turns := ts, hostFail := f }
      { u with script := sc, turns := ts, hostFail := f } := by
  obtain ⟨N, H, C, rfl, hlen, hbelow⟩ := sameBlock_iff.mp h
  exact sameBlock_iff.mpr ⟨N, H, C, rfl, hlen, hbelow⟩

theorem sameBlock_memWrite (off : Offset) (v : Word) {s u : State} (h : SameBlock s u) :
    SameBlock (memWrite off v s) (memWrite off v u) := by
  obtain ⟨N, H, C, rfl⟩ := portBlind_sameBlock.hidden s u h
  have hdrop := sameBlock_update (f := setDrop) h (fun _ _ _ => rfl) rfl rfl
  unfold memWrite
  split
  case h_1 => exact sameBlock_ite Iff.rfl hdrop (sameBlock_update (f := accept v) h (fun _ _ _ => rfl) rfl rfl)
  case h_2 i _ => exact sameBlock_ite Iff.rfl hdrop (sameBlock_update (f := writeFreq i v) h (fun _ _ _ => rfl) rfl rfl)
  all_goals exact h

theorem movesAlike_hostLine (l : HostLine) {s u : State} (h : SameBlock s u) : MovesAlike (hostLine l s) (hostLine l u) := by
  have hread (off : Offset) := sameBlock_hostRead off h
  obtain ⟨N, H, C, rfl⟩ := portBlind_sameBlock.hidden s u h
  cases l with
  | rd off => exact movesAlike_next (hread off)
  | wr off v => exact movesAlike_next (sameBlock_memWrite off v h)
  | attach b =>
    exact movesAlike_ite Iff.rfl movesAlike_refused
      (movesAlike_next (sameBlock_update (f := attachIn b) h (fun _ _ _ => rfl) rfl rfl))
  | take r =>
    exact movesAlike_ite Iff.rfl movesAlike_refused
      (movesAlike_next (sameBlock_update (f := takeOut r) h (fun _ _ _ => rfl) rfl rfl))
  | wait =>
    have hword : (hostRead 0x0004 (withHidden N H C s)).hostWord = (hostRead 0x0004 s).hostWord :=
      memRead_of_sameBlock 0x0004 h
    refine movesAlike_next (sameBlock_ite (by rw [hword]) ?_ (hread 0x0004))
    exact sameBlock_hostFields (hread 0x0004) (.wait :: s.script) s.turns s.hostFail
  | stopIfErr =>
    refine movesAlike_next (sameBlock_ite Iff.rfl ?_ h)
    exact sameBlock_hostFields h [] s.turns (some (s.hostWord.extractLsb' 4 4))

theorem movesAlike_hostMove {s u : State} (h : SameBlock s u) : MovesAlike (hostMove s) (hostMove u) := by
  obtain ⟨N, H, C, rfl⟩ := portBlind_sameBlock.hidden s u h
  have hscript : (withHidden N H C s).script = s.script := rfl
  unfold hostMove
  rw [hscript]
  cases s.script with
  | nil => exact movesAlike_next h
  | cons l rest => exact movesAlike_hostLine l (sameBlock_hostFields h rest s.turns s.hostFail)

theorem movesAlike_step {s u : State} (h : SameBlock s u) : MovesAlike (step s) (step u) := by
  obtain ⟨N, H, C, rfl⟩ := portBlind_sameBlock.hidden s u h
  have hturns : (withHidden N H C s).turns = s.turns := rfl
  have hpass (ts : List Turn) := sameBlock_hostFields h s.script ts s.hostFail
  unfold step
  rw [hturns]
  cases s.turns with
  | nil => exact movesAlike_ite Iff.rfl (movesAlike_coreMove h) (movesAlike_hostMove h)
  | cons a ts =>
    cases a with
    | core => exact movesAlike_coreMove (hpass ts)
    | host => exact movesAlike_hostMove (hpass ts)
    | reset => exact movesAlike_next (sameBlock_coreReset (portBlind_sameBlock.hidden _ _ (hpass ts)))

/-- Settles O60: the words read and the moves of the agents are the same over the two states. -/
theorem hiddenStateIsUnobservable : Obligations.HiddenStateIsUnobservable :=
  fun _ _ h => ⟨fun off => memRead_of_sameBlock off h, movesAlike_step h⟩

end Sys2Proof.Machine
end

section
/-! A call that fails and a reset before a call (R91, R94, R306 (3), R331): at whichever call of a command, and at its first. -/

namespace Sys2Proof.Machine

/-! ### A reset before a command's first call -/

theorem readBits_reset {n : Nat} {s : State} (ha : nextAnswer s = .resetFirst) : readBits n s = .abandoned (dropAnswer s) := by
  simp [readBits, ha]

theorem emitBits_reset {n v : Nat} {s : State} (ha : nextAnswer s = .resetFirst) (ho : s.out.closed = false) :
    emitBits n v s = .abandoned (dropAnswer s) := by
  simp [emitBits, orIoError, writeBits, ha, ho]

theorem serBody_reset {s : State} {tr : Tree} (ha : nextAnswer s = .resetFirst) (hv : s.treeValid = true)
    (htr : heldTree s = some tr) (ho : s.out.closed = false) : serBody s = .abandoned (dropAnswer s) := by
  obtain ⟨r, hr, -⟩ := readNode_of_treeAt htr
  rw [serBody, if_pos hv, Config.treeDepth, serNode, hr, bind_ok]
  split <;> rw [emitBits_reset ha ho, bind_abandoned]

theorem encBody_reset {s : State} {sym : Nat} (ha : nextAnswer s = .resetFirst) (ht : s.tableValid = true) (hs : sym ≤ 256)
    (hv : (readCode sym s).valid = true) (hl : (readCode sym s).len ≠ 0) (ho : s.out.closed = false) :
    encBody sym s = .abandoned (dropAnswer s) := by
  have hpos : 0 < (readCode sym s).len.toNat :=
    Nat.pos_of_ne_zero fun h => hl (BitVec.eq_of_toNat_eq (by simpa using h))
  rw [encBody_of_table ht hs, lookupAndEmit, if_pos hv, emitCode, if_pos hpos, emitBits_reset ha ho]

theorem encallBody_reset {s : State} (ha : nextAnswer s = .resetFirst) (ht : s.tableValid = true) :
    encallBody s = .abandoned (dropAnswer s) := by
  rw [encallBody, if_pos ht, encReads, encLoop, readBits_reset ha, bind_abandoned, bind_abandoned]

theorem decodeBody_reset {s : State} {tr : Tree} (ha : nextAnswer s = .resetFirst) (hv : s.treeValid = true)
    (htr : heldTree s = some tr) (hinner : tr.isLeaf = false) :
    decodeBody s = .abandoned (dropAnswer (moveCur s.root s)) := by
  cases tr with
  | leaf x => cases hinner
  | node l u => rw [decodeBody_of_node hv htr, decodeReads, decodeLoop, readBits_reset (s := moveCur s.root s) ha, bind_abandoned]

/-- Where a reset is asserted before the first call of a command, its pseudocode has not touched IN or OUT (R331). -/
theorem bodyOf_reset {i : Instr} {s : State} (h : firstCallReached i s) (ha : nextAnswer s = .resetFirst) :
    ∃ v, bodyOf i (clearOutcome s) = .abandoned v ∧ coreReset v = coreReset (dropAnswer s) := by
  cases i with
  | nop => exact h.elim
  | clear => exact h.elim
  | build => exact h.elim
  | gentab => exact h.elim
  | ser =>
    obtain ⟨hv, ⟨tr, htr⟩, ho⟩ := h
    exact ⟨_, serBody_reset (s := clearOutcome s) ha hv (heldTree_clearOutcome htr) ho, rfl⟩
  | des =>
    refine ⟨dropAnswer (desStart (clearOutcome s)), ?_, rfl⟩
    rw [bodyOf, desBody, desNode, readBits_reset (s := desStart (clearOutcome s)) ha, bind_abandoned, bind_abandoned]
  | enc sym =>
    obtain ⟨ht, hs, hv, hl, ho⟩ := h
    exact ⟨_, encBody_reset (s := clearOutcome s) ha ht hs hv hl ho, rfl⟩
  | encall => exact ⟨_, encallBody_reset (s := clearOutcome s) ha h, rfl⟩
  | decode =>
    obtain ⟨hv, tr, htr, hinner⟩ := h
    exact ⟨_, decodeBody_reset (s := clearOutcome s) ha hv (heldTree_clearOutcome htr) hinner, rfl⟩
  | wmagic => exact ⟨_, emitBits_reset (s := clearOutcome s) ha h, rfl⟩
  | rmagic =>
    refine ⟨dropAnswer (clearOutcome s), ?_, rfl⟩
    rw [bodyOf, rmagicBody, readBits_reset (s := clearOutcome s) ha, bind_abandoned]
  | rewind =>
    refine ⟨dropAnswer (clearOutcome s), ?_, rfl⟩
    have hnext : nextAnswer (clearOutcome s) = .resetFirst := ha
    simp [bodyOf, orIoError, resetIn, hnext]
  | close =>
    refine ⟨dropAnswer (clearOutcome s), ?_, rfl⟩
    have hnext : nextAnswer (clearOutcome s) = .resetFirst := ha
    have ho : (clearOutcome s).out.closed = false := h
    simp only [bodyOf, orIoError, closeOut, ho, hnext, Bool.false_eq_true, if_false, bind_abandoned]

theorem exec_of_abandoned {i : Instr} {s v : State} (h : bodyOf i (clearOutcome s) = .abandoned v) :
    exec i s = .next (coreReset v) := by
  rw [exec_eq_runCommand, runCommand, h]

theorem exec_reset_first {i : Instr} {s : State} {as : List PortAnswer} (h : firstCallReached i s)
    (ha : s.answers = .resetFirst :: as) : exec i s = .next (coreReset { s with answers := as }) := by
  obtain ⟨v, hbody, hv⟩ := bodyOf_reset h (nextAnswer_of_cons ha)
  rw [exec_of_abandoned hbody, hv, dropAnswer, ha, List.tail_cons]

/-! ### A call that fails -/

theorem exec_of_body_raised {i : Instr} {s u : State} {e : ErrCode} (h : bodyOf i (clearOutcome s) = .raised e u) :
    exec i s = .next (raiseError e u) := by
  rw [exec_eq_runCommand, runCommand_raised h]

/-- Settles O22: a reset at a call leaves what a failure that does nothing leaves there, but for the reset. -/
theorem resetAbandonsTheCommand : Obligations.ResetAbandonsTheCommand := by
  refine ⟨fun i s t pre post a hexec hdrawn => ?_, fun i s as => exec_reset_first⟩
  obtain ⟨hfails, u, v, hu, hv, hreset⟩ := body_of_drawn hexec hdrawn
  obtain ⟨u', hu', hanswers⟩ := hfails 0
  cases hu.symm.trans hu'
  refine ⟨raiseError .io u, exec_of_body_raised hu, rfl, rfl, hanswers, ?_⟩
  rw [exec_of_abandoned hv, hreset]
  rfl

theorem exec_fails_drawn {i : Instr} {s t : State} {pre post : List PortAnswer} {a : PortAnswer}
    (h : exec i { s with answers := pre ++ a :: post } = .next t) (hl : t.answers.length ≤ post.length) (k : Nat) :
    ∃ u, exec i { s with answers := pre ++ .fails k :: post } = .next u ∧ u.err = true ∧ u.errcode = 11 ∧ u.answers = post := by
  obtain ⟨hfails, -⟩ := body_of_drawn h hl
  obtain ⟨u, hu, hanswers⟩ := hfails k
  exact ⟨raiseError .io u, exec_of_body_raised hu, rfl, rfl, hanswers⟩

/-- Whether a command reaches a call does not depend on the answers to come. -/
theorem firstCallReached_withAnswers {i : Instr} {s : State} (h : firstCallReached i s) (as : List PortAnswer) :
    firstCallReached i { s with answers := as } := by
  have hheld : heldTree { s with answers := as } = heldTree s := heldTree_congr rfl rfl rfl
  cases i with
  | ser =>
    obtain ⟨hv, ⟨tr, htr⟩, ho⟩ := h
    exact ⟨hv, ⟨tr, hheld.trans htr⟩, ho⟩
  | decode =>
    obtain ⟨hv, tr, htr, hinner⟩ := h
    exact ⟨hv, tr, hheld.trans htr, hinner⟩
  | _ => exact h

/-- A first call that fails: a reset in its place would be drawn. -/
theorem exec_fails_first {i : Instr} {s : State} {k : Nat} {as : List PortAnswer} (h : firstCallReached i s)
    (ha : s.answers = .fails k :: as) :
    ∃ t, exec i s = .next t ∧ t.err = true ∧ t.errcode = 11 ∧ t.answers = as := by
  have hreset := exec_reset_first (firstCallReached_withAnswers h (.resetFirst :: as)) rfl
  have hs : s = { s with answers := [] ++ .fails k :: as } := by rw [List.nil_append, ← ha]
  rw [hs]
  exact exec_fails_drawn (pre := []) hreset (Nat.le_refl _) k

/-- A failed read leaves IN.pos anywhere from where it was to the end of IN (R91). -/
theorem readBits_fails_spec (n : Nat) {s : State} (as : List PortAnswer) (hpos : s.inp.pos ≤ s.inp.bits.length) :
    (∀ p, s.inp.pos ≤ p → p ≤ s.inp.bits.length → ∃ k, readBits n { s with answers := .fails k :: as } =
      .ok .ioFail { s with answers := as, inp := ⟨s.inp.bits, p⟩ }) ∧
    ∀ k, ∃ p, s.inp.pos ≤ p ∧ p ≤ s.inp.bits.length ∧ readBits n { s with answers := .fails k :: as } =
      .ok .ioFail { s with answers := as, inp := ⟨s.inp.bits, p⟩ } := by
  have hread (k : Nat) : readBits n { s with answers := .fails k :: as } = .ok .ioFail { s with
      answers := as, inp := ⟨s.inp.bits, s.inp.pos + min k (s.inp.bits.length - s.inp.pos)⟩ } := readBits_fails rfl
  constructor
  · intro p hp hlen
    refine ⟨p - s.inp.pos, ?_⟩
    rw [hread, Nat.min_eq_left (by omega), Nat.add_sub_cancel' hp]
  · intro k
    exact ⟨_, Nat.le_add_right _ _, by omega, hread k⟩

/-- A failed write on an open OUT appends any front part of its bits (R94). -/
theorem writeBits_fails_spec (n v : Nat) {s : State} (as : List PortAnswer) (ho : s.out.closed = false) :
    (∀ b, b <+: bitsOf n v → ∃ k, writeBits n v { s with answers := .fails k :: as } =
      .ok .ioFail { s with answers := as, out := ⟨s.out.bits ++ b, false⟩ }) ∧
    ∀ k, ∃ b, b <+: bitsOf n v ∧ writeBits n v { s with answers := .fails k :: as } =
      .ok .ioFail { s with answers := as, out := ⟨s.out.bits ++ b, false⟩ } := by
  have hwrite (k : Nat) : writeBits n v { s with answers := .fails k :: as } = .ok .ioFail { s with
      answers := as, out := ⟨s.out.bits ++ (bitsOf n v).take k, false⟩ } := by
    rw [writeBits_fails (s := { s with answers := .fails k :: as }) rfl ho, ← ho]
    rfl
  constructor
  · intro b hb
    refine ⟨b.length, ?_⟩
    rw [hwrite, ← List.prefix_iff_eq_take.mp hb]
  · intro k
    exact ⟨_, List.take_prefix k _, hwrite k⟩

/-- Settles O50: a failed call raises E_IO wherever it is drawn, and the first call of a command is drawn. -/
theorem failedCallsDrawWhatTheyMay : Obligations.FailedCallsDrawWhatTheyMay := by
  refine ⟨fun s n v as hpos => ?_, fun i s t pre post k hexec hdrawn => ?_, fun i s k as => exec_fails_first⟩
  · obtain ⟨hany, hsome⟩ := readBits_fails_spec n as hpos
    exact ⟨hany, hsome, writeBits_fails_spec n v as⟩
  · obtain ⟨u, hu, hfailed⟩ := exec_fails_drawn hexec hdrawn k
    cases hexec.symm.trans hu
    exact hfailed

end Sys2Proof.Machine
end

section
/-! BUILD as a command (R170, R176, R178): its next state, and the weights of its records. -/

namespace Sys2Proof.Machine

/-- Settles O25: BUILD writes these fields and no others, and what it writes is well formed. -/
theorem buildMakesATree : Obligations.BuildMakesATree := by
  intro s hw
  refine ⟨_, exec_build s, rfl, ?_, { buildSymbols_buildEffect (clearOutcome s) with }, wf_buildEffect (s := clearOutcome s) hw⟩
  exact wellFormedTree_congr (wellFormedTree_buildEffect (clearOutcome s)) rfl rfl rfl rfl

theorem weightAt_of_getElem? {store : List Node} {j : Nat} {r : Node} (h : store[j]? = some r) :
    weightAt store j = r.weight := by
  simp [weightAt, h]

/-- No leaf weighs 0: a byte leaf stands for a nonzero count (R171). -/
theorem buildLeaves_weight_pos {freq : List Word} {r : Node} (h : r ∈ buildLeaves freq) : 0 < r.weight.toNat := by
  obtain hbyte | heof := List.mem_append.mp h
  · rw [byteLeaves_eq_map] at hbyte
    obtain ⟨x, hx, rfl⟩ := List.mem_map.mp hbyte
    obtain ⟨-, hcount⟩ := List.mem_filter.mp hx
    have hne : (freq.getD x 0).toNat ≠ 0 := fun h0 => of_decide_eq_true hcount (BitVec.eq_of_toNat_eq h0)
    have hlt := (freq.getD x 0).isLt
    simp only [leafNode, BitVec.toNat_setWidth]
    omega
  · rw [List.mem_singleton.mp heof]
    decide

/-- A leaf record of the store is one of those that BUILD starts from (R178). -/
theorem buildTree_leaf_mem {freq : List Word} {r : Node} (h : r ∈ (buildTree freq).1) (hl : r.leaf = true) :
    r ∈ buildLeaves freq := by
  obtain ⟨rest, hsplit, hrest⟩ := buildTree_split freq
  rw [hsplit] at h
  exact (List.mem_append.mp h).resolve_right fun hr => absurd ((hrest r hr).1.symm.trans hl) Bool.false_ne_true

/-- No record weighs 0: an internal one weighs what its children do (R176). -/
theorem buildTree_weight_pos {freq : List Word} {j : Nat} {r : Node} (h : (buildTree freq).1[j]? = some r) :
    0 < r.weight.toNat := by
  induction j using Nat.strong_induction_on generalizing r with
  | _ j ih =>
    cases hl : r.leaf with
    | true => exact buildLeaves_weight_pos (buildTree_leaf_mem (List.mem_of_getElem? h) hl)
    | false =>
      obtain ⟨-, hforest, -⟩ := buildTree_spec freq
      obtain ⟨hleft, -, -, hweight, -⟩ := hforest.inner j r h hl
      obtain ⟨hj, -⟩ := List.getElem?_eq_some_iff.mp h
      have hchild := List.getElem?_eq_getElem (hleft.trans hj)
      have hpos := ih _ hleft hchild
      rw [hweight, weightAt_of_getElem? hchild]
      omega

/-- A record below an index weighs no more than the record at it (R176). -/
theorem Forest.weight_le {L T : Nat} {store : List Node} {heap : List Nat} (h : Forest L T store heap) {i : Nat}
    {l : List Nat} (hs : Spans store i l) : ∀ k ∈ l, (weightAt store k).toNat ≤ (weightAt store i).toNat := by
  induction hs with
  | leaf hr hl => simp
  | @node i r l m hr hl h1 h2 ih1 ih2 =>
    obtain ⟨-, -, -, hweight, -⟩ := h.inner i r hr hl
    intro k hk
    rw [weightAt_of_getElem? hr, hweight]
    simp only [List.mem_cons, List.mem_append] at hk
    obtain rfl | hk | hk := hk
    · rw [weightAt_of_getElem? hr, hweight]
    · exact (ih1 k hk).trans (Nat.le_add_right _ _)
    · exact (ih2 k hk).trans (Nat.le_add_left _ _)

/-- The root of BUILD's tree weighs the total, and every record at most that (R176). -/
theorem buildTree_weights (freq : List Word) :
    (weightAt (buildTree freq).1 (2 * (buildLeaves freq).length - 2)).toNat =
        ((buildLeaves freq).map (·.weight.toNat)).sum ∧
      ∀ r ∈ (buildTree freq).1, r.weight.toNat ≤ ((buildLeaves freq).map (·.weight.toNat)).sum := by
  obtain ⟨-, hforest, -⟩ := buildTree_spec freq
  have hroot : (weightAt (buildTree freq).1 (2 * (buildLeaves freq).length - 2)).toNat =
      ((buildLeaves freq).map (·.weight.toNat)).sum := by simpa using hforest.weights
  refine ⟨hroot, fun r hr => ?_⟩
  obtain ⟨f, hspans, hperm⟩ := hforest.spans
  obtain ⟨j, hj⟩ := List.getElem?_of_mem hr
  obtain ⟨hlt, -⟩ := List.getElem?_eq_some_iff.mp hj
  have hmem : j ∈ f (2 * (buildLeaves freq).length - 2) := by
    have := hperm.mem_iff.mpr (List.mem_range.mpr hlt)
    rwa [List.flatMap_singleton] at this
  have hle := hforest.weight_le (hspans _ (List.mem_singleton.mpr rfl)) j hmem
  rwa [weightAt_of_getElem? hj, hroot] at hle

/-- Settles O28: the forest's weights add up to the total at every merge, and at the end one tree has it all. -/
theorem buildWeightsAreExact : Obligations.BuildWeightsAreExact := by
  rintro s ⟨hfreq, -, -⟩
  obtain ⟨t, hexec, hused, hroot, -⟩ := exec_build_spec s
  obtain ⟨htotal, hle⟩ := buildTree_weights s.freq
  have hsum : ((buildLeaves s.freq).map (·.weight.toNat)).sum = 1 + freqTotal s := buildLeaves_weight_eq s.freq hfreq
  have hL := (buildLeaves_length s.freq).2
  refine ⟨t, hexec, ?_, hsum ▸ buildLeaves_weight s.freq, ?_⟩ <;> rw [hused]
  · rw [hroot, BitVec.toNat_ofNat, Nat.mod_eq_of_lt (by omega), htotal, hsum]
  · intro r hr
    obtain ⟨j, hj⟩ := List.getElem?_of_mem hr
    exact ⟨buildTree_weight_pos hj, hsum ▸ hle r hr⟩

end Sys2Proof.Machine
end

section
/-! DES, where it reads a tree, where it fails and where it stops (R193, R195, R197), and the magic header (R199, R200). -/

namespace Sys2Proof.Machine

/-! ### A DES that reads a tree -/

/-- Settles O32: the next state is the one that the records in pre-order give. -/
theorem desReadsATree : Obligations.DesReadsATree := by
  intro s tr rest hw hrem hcap hp
  have hsize : tr.size ≤ 513 := by have := tr.leafCount_eq; simp only [Tree.size]; omega
  obtain ⟨k, hk⟩ := exec_des hrem hp hw hcap
  exact ⟨_, k, hk, rfl, heldTree_desResult k hw hsize, wellFormedTree_desResult k hw hsize⟩

/-! ### A DES that fails -/

/-- IN holds the same bits as in `s`, and IN.pos is not behind where `s` has it, nor past the end. -/
def ReadOn (s t : State) : Prop := t.inp.bits = s.inp.bits ∧ s.inp.pos ≤ t.inp.pos ∧ t.inp.pos ≤ s.inp.bits.length

theorem readOn_readBits {s t : State} (n : Nat) (h : ReadOn s t) : (readBits n t).All (ReadOn s) := by
  obtain ⟨hbits, hpos, hle⟩ := h
  unfold readBits
  cases nextAnswer t with
  | resetFirst => exact ⟨hbits, hpos, hle⟩
  | fails k => exact ⟨hbits, by simp; omega, by simp [hbits]; omega⟩
  | succeeds =>
    rw [hbits]
    by_cases hlen : s.inp.bits.length < t.inp.pos + n
    · simp only [if_pos hlen]
      exact ⟨hbits, hpos.trans hle, Nat.le_refl _⟩
    · simp only [if_neg hlen]
      exact ⟨hbits, Nat.le_add_right_of_le hpos, Nat.not_lt.mp hlen⟩

/-- `des()` reads on (R91, R193): all it does to IN is to read. -/
theorem readOn_desNode {s t : State} (n : Nat) (h : ReadOn s t) : (desNode n t).All (ReadOn s) := by
  induction n generalizing t with
  | zero => trivial
  | succ n ih =>
    refine all_bind (readOn_readBits 1 h) fun tag t h => ?_
    cases tag with
    | ioFail => exact h
    | eos => exact h
    | val tag =>
      simp only
      split
      · exact h
      · split
        · exact all_bind (ih h) fun _ t h => all_bind (ih h) fun _ t h => h
        · refine all_bind (readOn_readBits 9 h) fun v t h => ?_
          cases v <;> exact h

theorem readOn_desBody {s : State} (hpos : s.inp.pos ≤ s.inp.bits.length) : (desBody s).All (ReadOn s) :=
  all_bind (readOn_desNode _ (t := desStart s) ⟨rfl, Nat.le_refl _, hpos⟩) fun _ _ h => h

/-- A command is left with ERR = 1 by a `raise` alone: a success clears ERR, and so does a reset (R154, R303, R330). -/
theorem exec_raised_of_err {i : Instr} {s t : State} (h : exec i s = .next t) (herr : t.err = true) :
    ∃ e u, raisedBy e i ∧ bodyOf i (clearOutcome s) = .raised e u ∧ t = raiseError e u := by
  have hall := bodyOf_all (i := i) (P := fun u => u.err = false) {} (s := clearOutcome s) rfl
  have hwithin := bodyOf_within i (R := True) (s := clearOutcome s) (.inl trivial)
  rw [exec_eq_runCommand] at h
  obtain ⟨u, hu, rfl⟩ | ⟨e, u, hu, rfl⟩ | ⟨u, hu, rfl⟩ := runCommand_cases h <;> rw [hu] at hall hwithin
  · exact absurd (hall.symm.trans herr) Bool.false_ne_true
  · exact ⟨e, u, hwithin, hu, rfl⟩
  · cases herr

/-- The errors of DES, by their numbers (R300). -/
theorem errNumber_of_des {e : ErrCode} (h : raisedBy e .des) : errNumber e = 2 ∨ errNumber e = 5 ∨ errNumber e = 11 := by
  revert h
  cases e <;> simp [raisedBy, errNumber]

/-- What every DES that fails leaves (R197). -/
theorem exec_des_failed {s t : State} (hpos : s.inp.pos ≤ s.inp.bits.length) (h : exec .des s = .next t)
    (herr : t.err = true) :
    NoTables t ∧ ReadOn s t ∧ t.out = s.out ∧ t.freq = s.freq ∧ (t.errcode = 2 ∨ t.errcode = 5 ∨ t.errcode = 11) := by
  obtain ⟨e, u, he, hu, rfl⟩ := exec_raised_of_err h herr
  have hread : (bodyOf .des (clearOutcome s)).All (ReadOn s) := readOn_desBody (s := clearOutcome s) hpos
  have hkeep := bodyOf_all (i := .des) (P := fun u => u.out = s.out ∧ u.freq = s.freq)
    { appendOut := nofun, finishOut := nofun, clearAll := nofun, buildEffect := nofun } (s := clearOutcome s) ⟨rfl, rfl⟩
  have hno : NoTables u := noTables_of_desBody_raised hu
  rw [hu] at hread hkeep
  exact ⟨hno, hread, hkeep.1, hkeep.2, errNumber_of_des he⟩

/-- Where `des()` is when it starts to read. -/
theorem desNode_stops_desStart {s : State} {tr : Tree} {q rest : BitString} (hw : Memory.wf s) (hp : PortsSucceed s)
    (hrem : remaining s = q ++ rest) (hq : q <+: tr.bits) :
    (q ≠ tr.bits → rest = [] → tr.tagsIn q.length ≤ 513 →
      ∃ k store, exec .des s = .next (raiseError .eosTree (desStopped s.inp.bits.length k store (desStart (clearOutcome s))))) ∧
    (513 < tr.tagsIn q.length →
      ∃ k store m, m < q.length ∧ tr.tagsIn m = 513 ∧ tr.tagsIn (m + 1) = 514 ∧
        exec .des s = .next (raiseError .capacity (desStopped (s.inp.pos + m + 1) k store (desStart (clearOutcome s))))) := by
  obtain ⟨-, hnode, -⟩ := hw
  obtain ⟨heos, hcap⟩ := desNode_stops (n := Config.nodeCap + 1) (s := desStart (clearOutcome s)) hrem hq hp hnode
    (Nat.zero_le _) (Nat.le_refl _)
  have hzero : (desStart (clearOutcome s)).nodes.toNat = 0 := rfl
  simp only [hzero, Nat.zero_add] at heos hcap
  have hraise {e : ErrCode} {u : State} (h : desNode (Config.nodeCap + 1) (desStart (clearOutcome s)) = .raised e u) :
      exec .des s = .next (raiseError e u) :=
    exec_of_body_raised (i := .des) (by rw [bodyOf, desBody, h, bind_raised])
  refine ⟨fun hne hrest htags => ?_, fun htags => ?_⟩
  · obtain ⟨k, store, hrun⟩ := heos hne hrest htags
    exact ⟨k, store, hraise hrun⟩
  · obtain ⟨k, store, m, hm, h513, h514, hrun⟩ := hcap htags
    exact ⟨k, store, m, hm, h513, h514, hraise hrun⟩

/-- Settles O35: `fail` leaves no tree whatever raised it, and the end of IN is met where the tree is cut. -/
theorem desFailureLeavesNoTree : Obligations.DesFailureLeavesNoTree := by
  constructor
  · intro s t hpos hexec herr
    obtain ⟨⟨htree, htable, hroot, hnodes, hleaves, hcode⟩, ⟨hbits, hfrom, hto⟩, hout, hfreq, hcodes⟩ :=
      exec_des_failed hpos hexec herr
    exact ⟨hnodes, hleaves, hroot, htree, hcode, htable, hbits, hfrom, hto, hout, hfreq, hcodes⟩
  · intro s tr hw hp hpre hne htags
    obtain ⟨heos, -⟩ := desNode_stops_desStart hw hp (List.append_nil _).symm hpre
    exact heos hne rfl htags

/-- Settles O36: the 514th tag bit is met before the form's last bit, since a tree has an odd number of nodes. -/
theorem desRefusesOversizeTrees : Obligations.DesRefusesOversizeTrees := by
  constructor
  · intro s tr rest hw hrem hbig hp
    have hleaves := tr.leafCount_eq
    have hall : tr.tagsIn tr.bits.length = 2 * tr.innerCount + 1 := Tree.tagsIn_of_length_le (Nat.le_refl _)
    obtain ⟨-, hcap⟩ := desNode_stops_desStart hw hp hrem (List.prefix_refl _)
    obtain ⟨k, store, m, hm, -, h514, hexec⟩ := hcap (by omega)
    have hlast : m + 1 ≠ tr.bits.length := fun h => by rw [h, hall] at h514; omega
    refine ⟨_, hexec, rfl, rfl, rfl, rfl, rfl, rfl, ?_, ?_⟩
    · show s.inp.pos < s.inp.pos + m + 1
      omega
    · show s.inp.pos + m + 1 < s.inp.pos + tr.bits.length
      omega
  · intro s tr q rest hw hp hrem hq htags
    obtain ⟨-, hcap⟩ := desNode_stops_desStart hw hp hrem hq
    exact hcap htags

/-! ### The magic header -/

theorem exec_of_body_ok {i : Instr} {s u : State} (h : bodyOf i (clearOutcome s) = .ok () u) :
    exec i s = .next (done u) := by
  rw [exec_eq_runCommand, runCommand_ok h]

/-- WMAGIC on an open OUT, where its call does not fail (R199). -/
theorem exec_wmagic {s : State} (hp : PortsSucceed s) (ho : s.out.closed = false) : exec .wmagic s =
    .next (succeeded (afterCalls 1 { s with out := ⟨s.out.bits ++ bitsOf 32 Config.magic.toNat, false⟩ })) := by
  have hbody : bodyOf .wmagic (clearOutcome s) = _ :=
    emitBits_ok (s := clearOutcome s) (nextAnswer_of_portsSucceed hp) ho
  rw [exec_of_body_ok hbody, ← ho]
  rfl

/-- RMAGIC where 32 bits are left: their number decides (R200). -/
theorem rmagicBody_of_bits {s : State} (hp : PortsSucceed s) (hlen : 32 ≤ (remaining s).length) :
    rmagicBody s = if num ((remaining s).take 32) = Config.magic.toNat then
      .ok () (moveIn (s.inp.pos + 32) (afterCalls 1 s)) else .raised .magic (moveIn (s.inp.pos + 32) (afterCalls 1 s)) := by
  rw [remaining_length] at hlen
  rw [rmagicBody, readBits_val (nextAnswer_of_portsSucceed hp) (by omega), bind_ok]
  exact ite_not _ _ _

theorem rmagicBody_of_short {s : State} (hp : PortsSucceed s) (hlen : (remaining s).length < 32) :
    rmagicBody s = .raised .magic (moveIn s.inp.bits.length (afterCalls 1 s)) := by
  rw [remaining_length] at hlen
  rw [rmagicBody, readBits_eos (nextAnswer_of_portsSucceed hp) (by omega), bind_ok]

/-- 32 bits are those of MAGIC where their number is MAGIC (R9, R200). -/
theorem num_eq_magic_iff {p : BitString} (hp : p.length = 32) :
    num p = Config.magic.toNat ↔ p = bitsOf 32 Config.magic.toNat := by
  refine ⟨fun h => ?_, fun h => ?_⟩
  · rw [← h, ← hp, bitsOf_num]
  · rw [h, num_bitsOf, Nat.mod_eq_of_lt Config.magic.isLt]

/-- RMAGIC on MAGIC's own bits (R200). -/
theorem exec_rmagic {s : State} (hp : PortsSucceed s) (hlen : 32 ≤ (remaining s).length)
    (hmagic : (remaining s).take 32 = bitsOf 32 Config.magic.toNat) :
    exec .rmagic s = .next (succeeded (afterCalls 1 { s with inp := ⟨s.inp.bits, s.inp.pos + 32⟩ })) := by
  have hbody : bodyOf .rmagic (clearOutcome s) = _ := (rmagicBody_of_bits (s := clearOutcome s) hp hlen).trans
    (if_pos ((num_eq_magic_iff (List.length_take_of_le hlen)).mpr hmagic))
  exact exec_of_body_ok hbody

/-- Settles O37: 32 bits are compared by their number, and fewer are consumed. -/
theorem magicHeader : Obligations.MagicHeader := by
  intro s hp
  refine ⟨exec_wmagic hp, exec_rmagic hp, fun hlen hne => ?_, fun hlen => ?_⟩
  · have hbody : bodyOf .rmagic (clearOutcome s) = _ := (rmagicBody_of_bits (s := clearOutcome s) hp hlen).trans
      (if_neg fun h => hne ((num_eq_magic_iff (List.length_take_of_le hlen)).mp h))
    exact (exec_of_body_raised hbody).trans rfl
  · have hbody : bodyOf .rmagic (clearOutcome s) = _ := rmagicBody_of_short (s := clearOutcome s) hp hlen
    exact (exec_of_body_raised hbody).trans rfl

end Sys2Proof.Machine
end

section
/-! GENTAB, ENC, ENCALL and DECODE as commands: what each leaves where it succeeds, where a code is missing, and where it comes
to write to a closed OUT (R230 to R234, R250 to R252, R272, R273, R276, R304, R94). -/

namespace Sys2Proof.Machine

/-- Settles O38: the table is filled in the order of the paths, so a symbol's last one stays. -/
theorem gentabRecordsThePaths : Obligations.GentabRecordsThePaths := fun _ _ => exec_gentab

/-! ### ENC -/

/-- ENC of a code that has a bit, on a closed OUT (R94). -/
theorem exec_enc_closed {s : State} {sym : Nat} (ho : s.out.closed = true) (hs : sym ≤ 256) (ht : s.tableValid = true)
    (hv : (readCode sym s).valid = true) (hl : (readCode sym s).len ≠ 0) :
    exec (.enc sym) s = .next (failedWith .io s) := by
  have hbody : bodyOf (.enc sym) (clearOutcome s) = .raised .io (clearOutcome s) :=
    (encBody_of_table (s := clearOutcome s) ht hs).trans (lookupAndEmit_closed hv hl ho)
  exact (exec_of_body_raised hbody).trans rfl

/-- Settles O42: a code of length 0 is no bits and no call, any other is one call. -/
theorem encEmitsTheCode : Obligations.EncEmitsTheCode := by
  intro s sym ht hs hv
  have hbody : bodyOf (.enc sym) (clearOutcome s) = lookupAndEmit sym (clearOutcome s) :=
    encBody_of_table (s := clearOutcome s) ht hs
  refine ⟨fun hl => ?_, fun hl ho hp => ?_⟩
  · have hemit : lookupAndEmit sym (clearOutcome s) = .ok () (clearOutcome s) := by
      have hzero : (readCode sym (clearOutcome s)).len.toNat = 0 := congrArg BitVec.toNat hl
      rw [lookupAndEmit, if_pos (show (readCode sym (clearOutcome s)).valid = true from hv), emitCode,
        if_neg (by rw [hzero]; exact Nat.lt_irrefl 0)]
    exact exec_of_body_ok (hbody.trans hemit)
  · have hemit := lookupAndEmit_run (s := clearOutcome s) hv hp (.inl ho)
    have hne : ¬ (readCode sym (clearOutcome s)).len.toNat = 0 := fun h => hl (BitVec.eq_of_toNat_eq h)
    rw [if_neg hne] at hemit
    rw [exec_of_body_ok (hbody.trans hemit), ← ho]
    rfl

/-! ### ENCALL -/

/-- ENCALL's state when it has read all of IN up to `p`, and has written the codes of the bytes `bs` (R251). -/
def encReached (bs : List (BitVec 8)) (p k : Nat) (s : State) : State :=
  moveIn p (appendOut (bs.flatMap fun b => codeOf s b.toNat) (afterCalls k s))

theorem encReached_of_empty_codes {bs : List (BitVec 8)} (p k : Nat) {s : State}
    (h : ∀ b ∈ bs, (readCode b.toNat s).len = 0) : encReached bs p k s = moveIn p (afterCalls k s) := by
  have hnone : (bs.flatMap fun b => codeOf s b.toNat) = [] :=
    List.flatMap_eq_nil_iff.mpr fun b hb => codeOf_of_len_eq_zero (congrArg BitVec.toNat (h b hb))
  rw [encReached, hnone, appendOut_nil]

section Encall

variable {s : State} {bs : List (BitVec 8)} (ht : s.tableValid = true) (hv : ∀ c ∈ bs, (readCode c.toNat s).valid = true)
  (hp : PortsSucceed s) (ho : s.out.closed = false ∨ ∀ c ∈ bs, (readCode c.toNat s).len = 0)
include ht hv hp ho

/-- After bytes that have codes, ENCALL is at the next byte's code (R251). -/
theorem encallBody_reaches_byte {b : BitVec 8} {rest : BitString}
    (hb : remaining s = bitsOfBytes bs ++ (bitsOf 8 b.toNat ++ rest)) :
    ∃ k n, encallBody s = ((lookupAndEmit b.toNat (encReached bs (s.inp.pos + 8 * (bs.length + 1)) k s)).bind
      fun _ t => encLoop n t).bind fun _ t => lookupAndEmit Config.pseudoEof t := by
  have hlen := remaining_length_eq hb
  simp only [List.length_append, bitsOfBytes_length, bitsOf_length] at hlen
  obtain ⟨n, hn⟩ : ∃ n, encReads s = n + 1 + bs.length := ⟨encReads s - bs.length - 1, by rw [encReads]; omega⟩
  obtain ⟨k, hloop⟩ := encLoop_bytes (n := n + 1) hb hv hp ho
  -- the state after the codes of `bs`
  generalize hu : moveIn (s.inp.pos + 8 * bs.length) (appendOut (bs.flatMap fun b => codeOf s b.toNat) (afterCalls k s)) = u
    at hloop
  have hrem : remaining u = bitsOf 8 b.toNat ++ rest := by
    rw [remaining_moveIn (8 * bs.length) s u (hu ▸ rfl), hb, ← bitsOfBytes_length, List.drop_left]
  refine ⟨k + 1, n, ?_⟩
  rw [encallBody, if_pos ht, hn, hloop, encLoop_read hrem (hu ▸ portsSucceed_afterCalls hp k), encReached,
    ← afterCalls_afterCalls, ← hu, Nat.mul_succ, ← Nat.add_assoc]
  rfl

/-- After the last whole byte, if all have codes, ENCALL is at the code of PSEUDO_EOF (R251). -/
theorem encallBody_reaches_eof {tail : BitString} (hb : remaining s = bitsOfBytes bs ++ tail) (htail : tail.length < 8) :
    ∃ k, encallBody s = lookupAndEmit Config.pseudoEof (encReached bs s.inp.bits.length k s) := by
  have hlen := remaining_length_eq hb
  rw [List.length_append, bitsOfBytes_length] at hlen
  obtain ⟨k, hloop⟩ := encLoop_run hb htail hv hp ho (n := encReads s) (by rw [encReads]; omega)
  exact ⟨k, by rw [encallBody, if_pos ht, hloop, bind_ok, encReached]⟩

end Encall

/-- Settles O44: at a symbol without a code, what the earlier ones wrote and what was read stands. -/
theorem encallKeepsItsOutputOnError : Obligations.EncallKeepsItsOutputOnError := by
  constructor
  · intro s bs b rest ht hb hv hno hp ho
    obtain ⟨k, n, hbody⟩ := encallBody_reaches_byte (s := clearOutcome s) ht hv hp ho hb
    rw [lookupAndEmit_noCode (by exact hno), bind_raised, bind_raised] at hbody
    exact ⟨k, (exec_of_body_raised (i := .encall) hbody).trans rfl⟩
  · intro s bs tail ht hb htail hv hno hp ho
    obtain ⟨k, hbody⟩ := encallBody_reaches_eof (s := clearOutcome s) ht hv hp ho hb htail
    rw [lookupAndEmit_noCode (by exact hno)] at hbody
    exact ⟨k, (exec_of_body_raised (i := .encall) hbody).trans rfl⟩

section EncallClosed

variable {s : State} {bs : List (BitVec 8)} (ho : s.out.closed = true) (ht : s.tableValid = true) (hp : PortsSucceed s)
  (hv : ∀ c ∈ bs, (readCode c.toNat s).valid = true ∧ (readCode c.toNat s).len = 0)
include ho ht hp hv

/-- ENCALL on a closed OUT stops at the first byte whose code has a bit (R94, R252). -/
theorem exec_encall_closed_byte {b : BitVec 8} {rest : BitString}
    (hb : remaining s = bitsOfBytes bs ++ (bitsOf 8 b.toNat ++ rest)) (hvb : (readCode b.toNat s).valid = true)
    (hl : (readCode b.toNat s).len ≠ 0) :
    ∃ k, exec .encall s = .next (failedWith .io (afterCalls k { s with
      inp := ⟨s.inp.bits, s.inp.pos + 8 * (bs.length + 1)⟩ })) := by
  obtain ⟨k, n, hbody⟩ := encallBody_reaches_byte (s := clearOutcome s) ht (fun c hc => (hv c hc).1) hp
    (.inr fun c hc => (hv c hc).2) hb
  rw [encReached_of_empty_codes (s := clearOutcome s) _ _ fun c hc => (hv c hc).2,
    lookupAndEmit_closed (by exact hvb) (by exact hl) (by exact ho), bind_raised, bind_raised] at hbody
  exact ⟨k, (exec_of_body_raised (i := .encall) hbody).trans rfl⟩

/-- ENCALL on a closed OUT, where the first bit to write is one of PSEUDO_EOF's code (R94, R252). -/
theorem exec_encall_closed_eof {tail : BitString} (hb : remaining s = bitsOfBytes bs ++ tail) (htail : tail.length < 8)
    (hvb : (readCode 256 s).valid = true) (hl : (readCode 256 s).len ≠ 0) :
    ∃ k, exec .encall s = .next (failedWith .io (afterCalls k { s with inp := ⟨s.inp.bits, s.inp.bits.length⟩ })) := by
  obtain ⟨k, hbody⟩ := encallBody_reaches_eof (s := clearOutcome s) ht (fun c hc => (hv c hc).1) hp
    (.inr fun c hc => (hv c hc).2) hb htail
  rw [encReached_of_empty_codes (s := clearOutcome s) _ _ fun c hc => (hv c hc).2,
    lookupAndEmit_closed (by exact hvb) (by exact hl) (by exact ho)] at hbody
  exact ⟨k, (exec_of_body_raised (i := .encall) hbody).trans rfl⟩

end EncallClosed

/-! ### DECODE -/

/-- After whole paths of symbols other than PSEUDO_EOF, and then one more path, DECODE is at that path's leaf (R272). -/
theorem decodeBody_reaches_leaf {s : State} {tr : Tree} {es : List (Nat × BitString)} {e : Nat × BitString} {rest : BitString}
    (hv : s.treeValid = true) (htr : heldTree s = some tr) (hinner : tr.isLeaf = false)
    (hes : ∀ f ∈ es, f ∈ tr.paths ∧ f.1 ≠ 256) (he : e ∈ tr.paths)
    (hb : remaining s = es.flatMap Prod.snd ++ (e.2 ++ rest)) (hp : PortsSucceed s) (ho : s.out.closed = false ∨ es = []) :
    ∃ k c n x, x.toNat = e.1 ∧ decodeBody s = leafReached n x (moveCur c (moveIn
      (s.inp.pos + (es.flatMap Prod.snd).length + e.2.length)
      (appendOut (es.flatMap fun f => bitsOf 8 (f.1 % 256)) (afterCalls k s)))) := by
  obtain ⟨x, hfollow, hx⟩ := Tree.mem_paths.mp he
  cases tr with
  | leaf y => cases hinner
  | node l u =>
    have hlen := remaining_length_eq hb
    rw [List.length_append, List.length_append] at hlen
    have hreads : decodeReads s = rest.length + 1 + e.2.length + (es.flatMap Prod.snd).length := by
      rw [decodeReads, hlen]; omega
    have htree : treeAt Config.treeDepth (moveCur s.root s) s.root = some (.node l u) := (treeAt_moveCur ..).trans htr
    obtain ⟨j, hpaths⟩ := decodeLoop_paths (s := moveCur s.root s) (n := rest.length + 1 + e.2.length) htree rfl hes hb hp ho
    -- the state after the whole paths, where CUR is at ROOT
    generalize hw : moveIn ((moveCur s.root s).inp.pos + (es.flatMap Prod.snd).length)
      (appendOut (es.flatMap fun f => bitsOf 8 (f.1 % 256)) (afterCalls j (moveCur s.root s))) = w at hpaths
    have hwtree : treeAt Config.treeDepth w w.cur = some (.node l u) := by
      rw [← hw, treeAt_moveIn, treeAt_appendOut, treeAt_afterCalls]
      exact htree
    have hwrem : remaining w = e.2 ++ rest := by
      rw [remaining_moveIn (es.flatMap Prod.snd).length s w (hw ▸ rfl), hb, List.drop_left]
    obtain ⟨c, hleaf⟩ := decodeLoop_path (n := rest.length + 1) hwtree hfollow hwrem (hw ▸ portsSucceed_afterCalls hp j)
    refine ⟨j + e.2.length, c, rest.length + 1, x, hx, ?_⟩
    rw [decodeBody_of_node hv htr, hreads, hpaths, hleaf, ← afterCalls_afterCalls, ← hw]
    rfl

/-- Settles O45: the leaf of PSEUDO_EOF is reached after the others, and nothing is read after it. -/
theorem decodeWritesTheSymbols : Obligations.DecodeWritesTheSymbols := by
  intro s tr es q rest hv htr hinner hes hq hb hp ho
  obtain ⟨k, c, n, x, hx, hbody⟩ :=
    decodeBody_reaches_leaf (s := clearOutcome s) hv (heldTree_clearOutcome htr) hinner hes hq hb hp ho
  rw [leafReached, if_pos hx] at hbody
  exact ⟨k, c, (exec_of_body_ok (i := .decode) hbody).trans rfl⟩

/-- DECODE on a closed OUT stops at the first symbol that it is to write (R94, R273). -/
theorem exec_decode_closed {s : State} {tr : Tree} {e : Nat × BitString} {rest : BitString} (ho : s.out.closed = true)
    (hv : s.treeValid = true) (hp : PortsSucceed s) (htr : heldTree s = some tr) (hinner : tr.isLeaf = false)
    (he : e ∈ tr.paths) (hne : e.1 ≠ 256) (hb : remaining s = e.2 ++ rest) :
    ∃ k c, exec .decode s = .next (failedWith .io (afterCalls k { s with
      inp := ⟨s.inp.bits, s.inp.pos + e.2.length⟩, cur := c })) := by
  obtain ⟨k, c, n, x, hx, hbody⟩ := decodeBody_reaches_leaf (s := clearOutcome s) (es := []) hv (heldTree_clearOutcome htr)
    hinner (by simp) he hb hp (.inr rfl)
  rw [leafReached, if_neg (hx ▸ hne), List.flatMap_nil, List.flatMap_nil, appendOut_nil, emitBits_closed (by exact ho), bind_raised] at hbody
  exact ⟨k, c, (exec_of_body_raised (i := .decode) hbody).trans rfl⟩

/-! ### A closed OUT -/

/-- A closed OUT stays as it is: no write extends it, and a close of it changes nothing (R94, R291). -/
theorem exec_out_of_closed {i : Instr} {s t : State} (ho : s.out.closed = true) (h : exec i s = .next t) : t.out = s.out := by
  have hopen {t : State} (ht : t.out = s.out) (hopen : t.out.closed = false) : False :=
    Bool.false_ne_true (hopen.symm.trans (ht ▸ ho))
  obtain ⟨u, hu, rfl | ⟨e, -, rfl⟩ | rfl⟩ := exec_cases (P := fun u => u.out = s.out) h
    { appendOut := fun _ _ _ ht hc => (hopen ht hc).elim, finishOut := fun _ _ ht hc => (hopen ht hc).elim } rfl <;> exact hu

theorem exec_ser_closed {s : State} {tr : Tree} (ho : s.out.closed = true) (hv : s.treeValid = true)
    (htr : heldTree s = some tr) : exec .ser s = .next (failedWith .io s) := by
  obtain ⟨r, hr, -⟩ := readNode_of_treeAt (heldTree_clearOutcome htr)
  have hbody : bodyOf .ser (clearOutcome s) = .raised .io (clearOutcome s) := by
    rw [bodyOf, serBody, if_pos (by exact hv), Config.treeDepth, serNode, hr, bind_ok]
    split <;> rw [emitBits_closed (by exact ho), bind_raised]
  exact (exec_of_body_raised hbody).trans rfl

theorem exec_wmagic_closed {s : State} (ho : s.out.closed = true) : exec .wmagic s = .next (failedWith .io s) := by
  have hbody : bodyOf .wmagic (clearOutcome s) = _ := emitBits_closed (s := clearOutcome s) ho
  exact (exec_of_body_raised hbody).trans rfl

/-- Settles O51: each command reaches its write as it does on an open OUT, and is refused there. -/
theorem closedOutputRefusesWrites : Obligations.ClosedOutputRefusesWrites := by
  intro s ho
  refine ⟨fun i t => exec_out_of_closed ho, exec_wmagic_closed ho, fun tr => exec_ser_closed ho,
    fun sym => exec_enc_closed ho, ?_, ?_, ?_⟩
  · intro bs b rest ht hp hb hv
    exact exec_encall_closed_byte ho ht hp hv hb
  · intro bs tail ht hp hb htail hv
    exact exec_encall_closed_eof ho ht hp hv hb htail
  · intro tr e rest hv hp htr
    exact exec_decode_closed ho hv hp htr

end Sys2Proof.Machine
end

section
/-! The round trip of R275: what the commands of COMPRESS write, those of DECOMPRESS read back. -/

namespace Sys2Proof.Machine

/-! ### Sequences of commands that succeed -/

/-- From every state of `P` the command succeeds, and leaves a state of `Q`. -/
def Succeeds (i : Instr) (P Q : State → Prop) : Prop := ∀ s, P s → ∃ t, exec i s = .next t ∧ t.err = false ∧ Q t

/-- From every state of `P` the commands all succeed, and leave a state of `Q`. -/
def AllSucceed (is : List Instr) (P Q : State → Prop) : Prop := ∀ s, P s → ∃ t, runAll is s = some t ∧ Q t

theorem allSucceed_nil (P : State → Prop) : AllSucceed [] P P := fun s hs => ⟨s, rfl, hs⟩

theorem allSucceed_cons {i : Instr} {is : List Instr} {P Q R : State → Prop} (hi : Succeeds i P Q)
    (his : AllSucceed is Q R) : AllSucceed (i :: is) P R := by
  intro s hs
  obtain ⟨t, hexec, herr, ht⟩ := hi s hs
  obtain ⟨v, hrun, hv⟩ := his t ht
  refine ⟨v, ?_, hv⟩
  simp only [runAll, hexec, herr, Bool.false_eq_true, if_false, hrun]

/-- No call fails, the bits `rest` are still to be read, and OUT is open and holds `out`. -/
def Streams (rest out : BitString) (s : State) : Prop := PortsSucceed s ∧ remaining s = rest ∧ s.out = ⟨out, false⟩

theorem Streams.not_closed {rest out : BitString} {s : State} (h : Streams rest out s) : s.out.closed = false := by
  rw [h.2.2]

/-- The tree `tr` is held. -/
def HoldsTree (tr : Tree) (s : State) : Prop := s.treeValid = true ∧ heldTree s = some tr

theorem holdsTree_congr {tr : Tree} {s t : State} (h : HoldsTree tr s) (hv : t.treeValid = s.treeValid)
    (hroot : t.root = s.root) (hnodes : t.nodes = s.nodes) (hnode : t.node = s.node) : HoldsTree tr t :=
  ⟨hv.trans h.1, (heldTree_congr hroot hnodes hnode).trans h.2⟩

/-- The entries of `tr` are in the table. -/
def HoldsTable (tr : Tree) (s : State) : Prop := s.tableValid = true ∧ s.code = (List.range 257).map tr.entry

/-! ### The codes of a tree -/

/-- A tree in which the bytes `X` and PSEUDO_EOF have codes that the block can hold. -/
structure CodesFor (X : List (BitVec 8)) (tr : Tree) : Prop where
  leaves_le : tr.leafCount ≤ 257
  path_le : ∀ e ∈ tr.paths, e.2.length ≤ 256
  symbol_le : ∀ x ∈ tr.symbols, x ≤ 256
  byte : ∀ b ∈ X, b.toNat ∈ tr.symbols
  eof : 256 ∈ tr.symbols

/-- The code of a symbol in a tree (R232). -/
def Tree.code (tr : Tree) (sym : Nat) : BitString := (tr.entry sym).path

/-- The codes of the bytes `X`. -/
def Tree.codes (tr : Tree) (X : List (BitVec 8)) : BitString := X.flatMap fun b => tr.code b.toNat

theorem CodesFor.code_mem_paths {X : List (BitVec 8)} {tr : Tree} (h : CodesFor X tr) {sym : Nat} (hs : sym ∈ tr.symbols) :
    (sym, tr.code sym) ∈ tr.paths := by
  obtain ⟨p, hp, hentry⟩ := Tree.entry_eq_of_valid (Tree.entry_valid_iff.mpr hs)
  rwa [Tree.code, hentry, pathEntry_path p (h.path_le _ hp)]

theorem codeOf_of_holdsTable {tr : Tree} {s : State} (h : HoldsTable tr s) {sym : Nat} (hs : sym ≤ 256) :
    codeOf s sym = tr.code sym := by
  rw [codeOf, readCode_of_code_eq h.2 hs, Tree.code]

theorem valid_of_holdsTable {tr : Tree} {s : State} (h : HoldsTable tr s) {sym : Nat} (hs : sym ≤ 256)
    (hmem : sym ∈ tr.symbols) : (readCode sym s).valid = true := by
  rw [readCode_of_code_eq h.2 hs]
  exact Tree.entry_valid_iff.mpr hmem

/-- A single leaf is PSEUDO_EOF's, and leaves no byte a code: a byte is below 256. -/
theorem CodesFor.of_leaf {X : List (BitVec 8)} {x : Sym} (h : CodesFor X (.leaf x)) : x.toNat = 256 ∧ X = [] := by
  have hsymbols : (Tree.leaf x).symbols = [x.toNat] := rfl
  have heof : 256 = x.toNat := List.mem_singleton.mp (hsymbols ▸ h.eof)
  refine ⟨heof.symm, List.eq_nil_iff_forall_not_mem.mpr fun b hb => ?_⟩
  have hbyte : b.toNat = x.toNat := List.mem_singleton.mp (hsymbols ▸ h.byte b hb)
  have hlt := b.isLt
  omega

/-! ### The commands of COMPRESS -/

/-- BUILD over the counts of `X` makes a tree with codes for `X` (R170, R171). -/
theorem exec_build_codes {s : State} {X : List (BitVec 8)} (hw : Memory.wf s)
    (hcounts : ∀ x < 256, (s.freq.getD x 0).toNat = X.count (BitVec.ofNat 8 x)) :
    ∃ tr, CodesFor X tr ∧ HoldsTree tr (done (buildEffect (clearOutcome s))) := by
  obtain ⟨hfreq, -, -⟩ := hw
  have hwf := wellFormedTree_buildEffect (clearOutcome s)
  obtain ⟨tr, htr, -⟩ := hwf.heldTree
  have hsymbols {x : Nat} : x ∈ tr.symbols ↔ x = 256 ∨ s.freq.getD x 0 ≠ 0 :=
    mem_symbols_of_build (s := clearOutcome s) hfreq htr
  refine ⟨tr, ⟨?_, fun e he => heldTree_path_length_le htr he, fun x hx => ?_, fun b hb => ?_, hsymbols.mpr (.inl rfl)⟩,
    holdsTree_congr (s := buildEffect (clearOutcome s)) ⟨rfl, htr⟩ rfl rfl rfl rfl⟩
  · exact hwf.leafCount htr ▸ hwf.leaves_bounds.2
  · exact (hsymbols.mp hx).elim Nat.le_of_eq fun hne => (lt_of_getD_ne_zero hfreq hne).le
  · have hcount : 0 < X.count (BitVec.ofNat 8 b.toNat) := by simpa using hb
    rw [← hcounts _ b.isLt] at hcount
    exact hsymbols.mpr (.inr fun h0 => by rw [h0] at hcount; exact Nat.lt_irrefl 0 hcount)

section Stages

variable {tr : Tree} {X : List (BitVec 8)} {rest out : BitString}

/-- What COMPRESS keeps from BUILD to its REWIND. -/
def Built (tr : Tree) (X : List (BitVec 8)) (s : State) : Prop :=
  HoldsTree tr s ∧ PortsSucceed s ∧ s.inp.bits = bitsOfBytes X ∧ s.out = ⟨[], false⟩

theorem rewind_succeeds : Succeeds .rewind (Built tr X) fun t => HoldsTree tr t ∧ Streams (bitsOfBytes X) [] t := by
  rintro s ⟨htree, hp, hin, hout⟩
  obtain ⟨hexec, -⟩ := rewindAndClose s []
  refine ⟨_, hexec hp, rfl, holdsTree_congr htree rfl rfl rfl rfl, portsSucceed_afterCalls hp 1, ?_, hout⟩
  exact hin

theorem wmagic_succeeds : Succeeds .wmagic (fun s => HoldsTree tr s ∧ Streams rest out s)
    fun t => HoldsTree tr t ∧ Streams rest (out ++ bitsOf 32 Config.magic.toNat) t := by
  rintro s ⟨htree, hs⟩
  have ho := hs.not_closed
  obtain ⟨hp, hrem, hout⟩ := hs
  refine ⟨_, exec_wmagic hp ho, rfl, holdsTree_congr htree rfl rfl rfl rfl, portsSucceed_afterCalls hp 1, hrem, ?_⟩
  simp [succeeded, afterCalls, hout]

theorem ser_succeeds : Succeeds .ser (fun s => HoldsTree tr s ∧ Streams rest out s)
    fun t => HoldsTree tr t ∧ Streams rest (out ++ tr.bits) t := by
  rintro s ⟨htree, hs⟩
  have ho := hs.not_closed
  obtain ⟨hp, hrem, hout⟩ := hs
  obtain ⟨k, hk⟩ := exec_ser htree.1 htree.2 hp ho
  refine ⟨_, hk, rfl, holdsTree_congr htree rfl rfl rfl rfl, portsSucceed_afterCalls hp k, hrem, ?_⟩
  simp [succeeded, afterCalls, hout]

theorem gentab_succeeds (hX : CodesFor X tr) : Succeeds .gentab (fun s => HoldsTree tr s ∧ Streams rest out s)
    fun t => HoldsTable tr t ∧ Streams rest out t := by
  rintro s ⟨⟨hv, htr⟩, hs⟩
  exact ⟨_, exec_gentab hv htr hX.symbol_le, rfl, ⟨rfl, rfl⟩, hs⟩

theorem encall_succeeds (hX : CodesFor X tr) :
    Succeeds .encall (fun s => HoldsTable tr s ∧ Streams (bitsOfBytes X) out s)
      fun t => Streams [] (out ++ (tr.codes X ++ tr.code 256)) t := by
  rintro s ⟨htable, hs⟩
  have ho := hs.not_closed
  obtain ⟨hp, hrem, hout⟩ := hs
  have hbyte : ∀ b ∈ X, b.toNat ≤ 256 := fun b hb => hX.symbol_le _ (hX.byte b hb)
  obtain ⟨k, hk⟩ := encallBody_run (s := clearOutcome s) (tail := []) htable.1 (hrem.trans (List.append_nil _).symm)
    (by decide) (fun b hb => valid_of_holdsTable htable (hbyte b hb) (hX.byte b hb))
    (valid_of_holdsTable htable (Nat.le_refl _) hX.eof) hp (.inl ho)
  have hcodes : (X.flatMap fun b => codeOf s b.toNat) = tr.codes X :=
    List.flatMap_congr fun b hb => codeOf_of_holdsTable htable (hbyte b hb)
  refine ⟨_, exec_of_body_ok (i := .encall) hk, rfl, portsSucceed_afterCalls hp k, List.drop_length, ?_⟩
  show OutPort.mk (s.out.bits ++ ((X.flatMap fun b => codeOf s b.toNat) ++ codeOf s 256)) s.out.closed = _
  rw [hcodes, codeOf_of_holdsTable htable (Nat.le_refl _), hout]

/-- CLOSE pads to whole bytes (R95). -/
theorem close_succeeds : Succeeds .close (Streams rest out)
    fun t => ∃ n, t.out.bits = out ++ zeros n ∧ (out.length % 8 = 0 → n = 0) := by
  intro s hs
  have ho := hs.not_closed
  obtain ⟨hp, -, hout⟩ := hs
  obtain ⟨-, -, -, hexec, -⟩ := rewindAndClose s []
  refine ⟨_, hexec ho hp, rfl, (8 - out.length % 8) % 8, ?_, fun h => by rw [h]⟩
  simp [succeeded, afterCalls, hout]

/-- What COMPRESS writes for `X`, its codes being those of `tr`: the header, the tree, the codes, and the padding. -/
def compressed (tr : Tree) (X : List (BitVec 8)) (pad : BitString) : BitString :=
  bitsOf 32 Config.magic.toNat ++ (tr.bits ++ (tr.codes X ++ (tr.code 256 ++ pad)))

theorem compress_succeeds (hX : CodesFor X tr) :
    AllSucceed [.rewind, .wmagic, .ser, .gentab, .encall, .close] (Built tr X)
      fun t => ∃ pad, t.out.bits = compressed tr X pad := by
  have hall := allSucceed_cons rewind_succeeds <| allSucceed_cons wmagic_succeeds <| allSucceed_cons ser_succeeds <|
    allSucceed_cons (gentab_succeeds hX) <| allSucceed_cons (encall_succeeds hX) <| allSucceed_cons close_succeeds <|
    allSucceed_nil _
  intro s hs
  obtain ⟨t, hrun, n, ht, -⟩ := hall s hs
  refine ⟨t, hrun, zeros n, ht.trans ?_⟩
  simp only [compressed, List.nil_append, List.append_assoc]

/-! ### The commands of DECOMPRESS -/

theorem rmagic_succeeds : Succeeds .rmagic
    (fun s => Memory.wf s ∧ Streams (bitsOf 32 Config.magic.toNat ++ rest) out s)
    fun t => Memory.wf t ∧ Streams rest out t := by
  rintro s ⟨hw, hp, hrem, hout⟩
  have htake : (remaining s).take 32 = bitsOf 32 Config.magic.toNat := by
    rw [hrem, List.take_left' (bitsOf_length _ _)]
  have hlen : 32 ≤ (remaining s).length := by
    rw [hrem, List.length_append, bitsOf_length]
    exact Nat.le_add_right _ _
  refine ⟨_, exec_rmagic hp hlen htake, rfl, hw, portsSucceed_afterCalls hp 1, ?_, hout⟩
  rw [remaining_moveIn 32 s _ rfl, hrem, List.drop_left' (bitsOf_length _ _)]

theorem des_succeeds (hX : CodesFor X tr) : Succeeds .des (fun s => Memory.wf s ∧ Streams (tr.bits ++ rest) out s)
    fun t => HoldsTree tr t ∧ Streams rest out t := by
  rintro s ⟨hw, hp, hrem, hout⟩
  obtain ⟨k, hk⟩ := exec_des hrem hp hw hX.leaves_le
  have hsize : tr.size ≤ 513 := by
    have hle := hX.leaves_le
    have hcount := tr.leafCount_eq
    simp only [Tree.size]
    omega
  refine ⟨_, hk, rfl, ⟨rfl, heldTree_desResult k hw hsize⟩, portsSucceed_of_drop hp k rfl, ?_, hout⟩
  rw [remaining_moveIn tr.bits.length s _ (desResult_inp tr k s), hrem, List.drop_left]

/-- The codes of `X`, as the paths that DECODE walks. -/
def codePaths (tr : Tree) (X : List (BitVec 8)) : List (Nat × BitString) := X.map fun b => (b.toNat, tr.code b.toNat)

theorem codePaths_flatMap_snd (tr : Tree) (X : List (BitVec 8)) : (codePaths tr X).flatMap Prod.snd = tr.codes X := by
  rw [codePaths, List.flatMap_map, Tree.codes]

/-- DECODE writes a byte's low 8 bits, which are the byte (R273). -/
theorem codePaths_flatMap_fst (tr : Tree) (X : List (BitVec 8)) :
    ((codePaths tr X).flatMap fun e => bitsOf 8 (e.1 % 256)) = bitsOfBytes X := by
  rw [codePaths, List.flatMap_map, bitsOfBytes]
  exact List.flatMap_congr fun b _ => by rw [Nat.mod_eq_of_lt b.isLt]

theorem codePaths_mem (hX : CodesFor X tr) : ∀ e ∈ codePaths tr X, e ∈ tr.paths ∧ e.1 ≠ 256 := by
  intro e he
  obtain ⟨b, hb, rfl⟩ := List.mem_map.mp he
  exact ⟨hX.code_mem_paths (hX.byte b hb), b.isLt.ne⟩

theorem decode_succeeds (hX : CodesFor X tr) :
    Succeeds .decode (fun s => HoldsTree tr s ∧ Streams (tr.codes X ++ (tr.code 256 ++ rest)) [] s)
      fun t => ∃ unread, Streams unread (bitsOfBytes X) t := by
  rintro s ⟨⟨hv, htr⟩, hs⟩
  have ho := hs.not_closed
  obtain ⟨hp, hrem, hout⟩ := hs
  cases hleaf : tr.isLeaf with
  | true =>
    cases tr with
    | node l r => cases hleaf
    | leaf x =>
      obtain ⟨heof, rfl⟩ := hX.of_leaf
      obtain ⟨hexec, -⟩ := decodeOfALeafRoot s x hv htr
      exact ⟨_, hexec heof, rfl, _, hp, rfl, hout⟩
  | false =>
    obtain ⟨k, c, hexec⟩ := decodeWritesTheSymbols s tr (codePaths tr X) (tr.code 256) rest hv htr hleaf (codePaths_mem hX)
      (hX.code_mem_paths hX.eof) ((codePaths_flatMap_snd tr X).symm ▸ hrem) hp (.inl ho)
    refine ⟨_, hexec, rfl, _, portsSucceed_afterCalls hp k, rfl, ?_⟩
    simp [succeeded, afterCalls, hout, codePaths_flatMap_fst]

theorem decompress_succeeds (hX : CodesFor X tr) (pad : BitString) :
    AllSucceed [.rmagic, .des, .decode, .close] (fun s => Memory.wf s ∧ Streams (compressed tr X pad) [] s)
      fun t => t.out.bits = bitsOfBytes X := by
  have hclose : Succeeds .close (fun s => ∃ unread, Streams unread (bitsOfBytes X) s) fun t => t.out.bits = bitsOfBytes X := by
    rintro s ⟨unread, hs⟩
    obtain ⟨t, hexec, herr, n, ht, hn⟩ := close_succeeds s hs
    obtain rfl : n = 0 := hn (by rw [bitsOfBytes_length, Nat.mul_mod_right])
    exact ⟨t, hexec, herr, ht.trans (List.append_nil _)⟩
  exact allSucceed_cons rmagic_succeeds <| allSucceed_cons (des_succeeds hX) <| allSucceed_cons (decode_succeeds hX) <|
    allSucceed_cons hclose <| allSucceed_nil _

end Stages

/-- Settles O48: COMPRESS writes the header, a tree and codes that are its paths; DES reads that tree and DECODE walks those
paths. -/
theorem compressThenDecompress : Obligations.CompressThenDecompress := by
  intro s X p hw hp hcounts hin hout
  obtain ⟨tr, hX, htree⟩ := exec_build_codes hw hcounts
  have hbuild : Succeeds .build (· = s) (Built tr X) := by
    rintro _ rfl
    exact ⟨_, exec_build _, rfl, htree, hp, congrArg InPort.bits hin, hout⟩
  obtain ⟨t, hrun, pad, hbits⟩ := allSucceed_cons hbuild (compress_succeeds hX) s rfl
  refine ⟨t, hrun, fun u hwu hpu hinu houtu => ?_⟩
  refine decompress_succeeds hX pad u ⟨hwu, hpu, ?_, houtu⟩
  rw [remaining, hinu, hbits, List.drop_zero]

end Sys2Proof.Machine
end
